-- ==== Sys2Proof/Word.lean ====
section
/-! DEFINITION. The word types of SLRB: bytes, the 32-bit port word, and the 4-byte tag. -/

namespace Sys2Proof

/-- One byte of a byte string (00_scope.md R12). -/
abbrev Byte := BitVec 8

/-- One word of the command port, and every 32-bit register (30_encoding.md R140, 10_state.md). -/
abbrev Word := BitVec 32

/-- A tag: exactly 4 bytes, `b0` first (40_crypto.md R204, 30_encoding.md R150). -/
structure Tag where
  b0 : Byte
  b1 : Byte
  b2 : Byte
  b3 : Byte
  deriving DecidableEq, Repr, Inhabited

end Sys2Proof
end

