-- ==== Sys2Proof/Config.lean ====
section
/-! DEFINITION. The parameters of SLRB (00_scope.md R8): what an implementation fixes, and the values the spec
leaves open. An `opaque` constant has no body, so a claim about the machine holds for every value of it. -/

namespace Sys2Proof

/-- What an insert into an occupied reorder-buffer slot does: the parameter `RB_COLLISION` (00_scope.md R8,
20_memory.md R102). -/
inductive Collision where
  | overwrite
  | fault
  deriving DecidableEq, Repr, Inhabited

/-- The parameters a model of SLRB takes (00_scope.md R8, but for `SN_BITS`, a configuration field, and for
`KEY_LEN` and `CTR_BITS`, fixed below and in the register widths). A capacity `none` is unbounded. -/
structure Params where
  /-- `INIT_SN`: value of `TXU.SN` and `RXU.NE_SN` at configuration. -/
  initSn : Word
  /-- `INIT_HFN`: value of `TXU.HFN` and `RXU.HFN_EST` at configuration. -/
  initHfn : Word
  /-- `REPLAY_CAP`: most counts the replay cache holds. -/
  replayCap : Option Nat
  /-- `DL_CAP`: most entries the delivered list holds. -/
  dlCap : Option Nat
  /-- `DB_CAP`: most entries the delay buffer holds. -/
  dbCap : Option Nat
  /-- `MAX_PAYLOAD`: most bytes in any payload a command carries. -/
  maxPayload : Option Nat
  /-- `RB_COLLISION`. -/
  collision : Collision
  /-- Byte `i` of `KS(key, count, bearer, dir, n)`: arguments key, count, bearer, dir, `n`, `i` (40_crypto.md R200). -/
  ksByte : List Byte → Word → BitVec 5 → BitVec 1 → Nat → Nat → Byte
  /-- `TAG(ikey, msg)` (40_crypto.md R204). -/
  tag : List Byte → List Byte → Tag
  /-- The draw oracle: raw value number `n`, one for each draw point reached (43_channel.md R332). -/
  draw : Nat → Nat
  /-- The word that stands where a count or a length of 2^32 or more belongs in a 32-bit response word: the spec
  states no value (log 11, DESIGN CHOICE). -/
  longCount : Nat → Word

namespace Config

/-- `KEY_LEN`, 16 bytes (00_scope.md R8). -/
def keyLen : Nat := 16

/-- `INIT_SN`, 0 (00_scope.md R8; log 8). -/
def initSn : Word := 0

/-- `INIT_HFN`, 0 (00_scope.md R8; log 8). -/
def initHfn : Word := 0

/-- `RB_COLLISION`, `OVERWRITE` (00_scope.md R8; log 8). -/
def collision : Collision := .overwrite

/-- `REPLAY_CAP`, OPEN (00_scope.md R8; log 7). -/
opaque replayCap : Option Nat

/-- `DL_CAP`, OPEN (00_scope.md R8; log 7). -/
opaque dlCap : Option Nat

/-- `DB_CAP`, OPEN (00_scope.md R8; log 7). -/
opaque dbCap : Option Nat

/-- `MAX_PAYLOAD`, OPEN (00_scope.md R8; log 7). -/
opaque maxPayload : Option Nat

/-- The bytes of `KS`, OPEN (40_crypto.md R200; log 9). -/
opaque ksByte : List Byte → Word → BitVec 5 → BitVec 1 → Nat → Nat → Byte

/-- `TAG`, OPEN (40_crypto.md R204; log 10). -/
opaque tag : List Byte → List Byte → Tag

/-- The draw oracle that stands for `PRNG`, OPEN (43_channel.md R332; log 5). -/
opaque draw : Nat → Nat

/-- The word for a count or a length that 32 bits cannot hold: no value is stated (log 11, DESIGN CHOICE). -/
opaque longCount : Nat → Word

/-- The parameters of the machine `Sys2Proof.core`: the spec's values where it gives one, free constants where it
does not. -/
def params : Params :=
  { initSn, initHfn, replayCap, dlCap, dbCap, maxPayload, collision, ksByte, tag, draw, longCount }

end Config

end Sys2Proof
end

