-- ==== Sys2Proof/Syntax.lean ====
section
/-! DEFINITION. The syntax of SLRB: the PDU record, the operand records, the nine commands, and the frames that
carry them. One constructor of `Instr` for each row of spec/opcode_table.json. -/

namespace Sys2Proof

/-- The three units, each with one command port (00_scope.md R2, 30_encoding.md R140). -/
inductive UnitId where
  | txu
  | rxu
  | chu
  deriving DecidableEq, Repr

/-- The status label of a PDU, codes 0 to 12 in this order (10_state.md R76). -/
inductive Status where
  | prepared
  | inTransit
  | lost
  | corrupted
  | tampered
  | buffered
  | delivered
  | discardedChannelCorruption
  | discardedNoKey
  | discardedIntegrityNoKey
  | discardedIntegrityTooShort
  | discardedIntegrityFailure
  | discardedDuplicate
  deriving DecidableEq, Repr

/-- The tri-state `verified` of a PDU: `NA`, `TRUE`, `FALSE`, codes 0, 1, 2 (10_state.md R77). -/
inductive Verified where
  | notApplicable
  | verifiedTrue
  | verifiedFalse
  deriving DecidableEq, Repr

/-- The PDU record (10_state.md R75). `tag = none` is `tagPresent = 0`, whose tag bytes are all zero. -/
structure Pdu where
  sduId : Word
  sn : Word
  count : Word
  hfn : Word
  payload : List Byte
  tag : Option Tag
  corrupted : Bool
  tampered : Bool
  verified : Verified
  status : Status
  deriving DecidableEq, Repr

/-- The link configuration register set `LCFG` (10_state.md R33), which is also the operand record of TX.CONFIG
and RX.CONFIG (30_encoding.md R153). -/
structure LinkCfg where
  bearer : BitVec 5
  dir : BitVec 1
  ien : Bool
  cen : Bool
  snbits : BitVec 5
  ikp : Bool
  ckp : Bool
  ikey : List Byte
  ckey : List Byte
  deriving DecidableEq, Repr

/-- The operand record of CH.CONFIG (30_encoding.md R154). -/
structure ChannelCfg where
  loss : BitVec 17
  dup : BitVec 17
  reorder : BitVec 17
  corrupt : BitVec 17
  tamper : BitVec 17
  maxd : BitVec 16
  seed : Word
  deriving DecidableEq, Repr

/-- The nine commands with their operand records (30_encoding.md R143, R150 to R155). -/
inductive Instr where
  | txConfig (cfg : LinkCfg)
  | txSend (sduId : Word) (payload : List Byte)
  | rxConfig (cfg : LinkCfg)
  | rxReceive (pdu : Pdu)
  | rxStats
  | rxDelivered
  | chConfig (cfg : ChannelCfg)
  | chTransmit (pdus : List Pdu)
  | chFlush
  deriving DecidableEq, Repr

/-- The operation a command word names, without operands: a row of the opcode map (30_encoding.md R143). -/
inductive Op where
  | txConfig
  | txSend
  | rxConfig
  | rxReceive
  | rxStats
  | rxDelivered
  | chConfig
  | chTransmit
  | chFlush
  deriving DecidableEq, Repr

/-- The operation of an instruction. -/
def Instr.op : Instr → Op
  | .txConfig _ => .txConfig
  | .txSend _ _ => .txSend
  | .rxConfig _ => .rxConfig
  | .rxReceive _ => .rxReceive
  | .rxStats => .rxStats
  | .rxDelivered => .rxDelivered
  | .chConfig _ => .chConfig
  | .chTransmit _ => .chTransmit
  | .chFlush => .chFlush

/-- The unit that executes an operation (30_encoding.md R143). -/
def Op.unit : Op → UnitId
  | .txConfig | .txSend => .txu
  | .rxConfig | .rxReceive | .rxStats | .rxDelivered => .rxu
  | .chConfig | .chTransmit | .chFlush => .chu

/-- The configuration commands (60_exceptions.md R404). -/
def Op.isConfig : Op → Bool
  | .txConfig | .rxConfig | .chConfig => true
  | .txSend | .rxReceive | .rxStats | .rxDelivered | .chTransmit | .chFlush => false

/-- A command frame: the command word and the words of the operand record. A frame has at least its command word
(30_encoding.md R140, R144). -/
structure Frame where
  cmd : Word
  operands : List Word
  deriving DecidableEq, Repr

/-- What reaches the block from outside: a frame on a unit's port (30_encoding.md R140), or a unit's reset input
(70_reset_and_hazards.md R450; log 17). -/
inductive Event where
  | frame (port : UnitId) (f : Frame)
  | reset (u : UnitId)
  deriving DecidableEq, Repr

end Sys2Proof
end

