-- ==== Sys2Proof/WellFormed.lean ====
section
/-! DEFINITION. Which instructions a frame can carry: the bounds that the operand records put on their fields. The
checks that need a parameter or a unit's state (`MAX_PAYLOAD`, `SN ≤ MAX_SN`) are in `Machine/Operands.lean`. -/

namespace Sys2Proof

/-- A key field has `KEY_LEN` bytes (30_encoding.md R153). -/
def keyOk (key : List Byte) : Bool := key.length = Config.keyLen

/-- A byte string whose length its 32-bit `LEN` word holds (30_encoding.md R150, R152). -/
def bytesOk (bytes : List Byte) : Bool := bytes.length < 2 ^ 32

/-- Both key fields have `KEY_LEN` bytes (30_encoding.md R153). -/
def LinkCfg.keysOk (cfg : LinkCfg) : Bool := keyOk cfg.ikey && keyOk cfg.ckey

/-- A PDU a descriptor can carry (30_encoding.md R150, R151): the other conditions of R151 hold by the types. -/
def Pdu.fits (p : Pdu) : Bool := bytesOk p.payload

/-- An instruction that a frame can carry (30_encoding.md R150 to R155). -/
def Instr.wellFormed : Instr → Bool
  | .txConfig cfg => cfg.keysOk
  | .txSend _ payload => bytesOk payload
  | .rxConfig cfg => cfg.keysOk
  | .rxReceive p => p.fits
  | .rxStats => true
  | .rxDelivered => true
  | .chConfig _ => true
  | .chTransmit ps => decide (ps.length < 2 ^ 32) && ps.all Pdu.fits
  | .chFlush => true

end Sys2Proof
end

