-- ==== Sys2Proof/Decode.lean ====
section
/-! DEFINITION. The decoder, total on every frame, and after it the encoder, both from the encoding tables of
30_encoding.md. -/

namespace Sys2Proof

/-! ### Command words (30_encoding.md R141 to R145) -/

/-- The `UNIT` field of a unit's command words (30_encoding.md R141). -/
def UnitId.code : UnitId → BitVec 4
  | .txu => 1
  | .rxu => 2
  | .chu => 3

/-- The unit a `UNIT` field names (30_encoding.md R141). -/
def UnitId.ofCode (c : BitVec 4) : Option UnitId :=
  match c.toNat with
  | 1 => some .txu
  | 2 => some .rxu
  | 3 => some .chu
  | _ => none

/-- The `FUNC` field of an operation (30_encoding.md R143). -/
def Op.func : Op → BitVec 4
  | .txConfig | .rxConfig | .chConfig => 0
  | .txSend | .rxReceive | .chTransmit => 1
  | .rxStats | .chFlush => 2
  | .rxDelivered => 3

/-- The command word of an operation: `UNIT`, `FUNC`, and 24 reserved zero bits (30_encoding.md R141). -/
def Op.word (op : Op) : Word := op.unit.code ++ op.func ++ (0 : BitVec 24)

/-- The opcode map, by `UNIT` and `FUNC` (30_encoding.md R143). -/
def Op.ofFields (unit func : BitVec 4) : Option Op :=
  match unit.toNat, func.toNat with
  | 1, 0 => some .txConfig
  | 1, 1 => some .txSend
  | 2, 0 => some .rxConfig
  | 2, 1 => some .rxReceive
  | 2, 2 => some .rxStats
  | 2, 3 => some .rxDelivered
  | 3, 0 => some .chConfig
  | 3, 1 => some .chTransmit
  | 3, 2 => some .chFlush
  | _, _ => none

/-- Decoding of a command word received on the port of unit `u`; `none` is `ILLEGAL` (30_encoding.md R144). -/
def decodeOp (u : UnitId) (w : Word) : Option Op :=
  if w.extractLsb' 0 24 ≠ 0 then none
  else if w.extractLsb' 28 4 ≠ u.code then none
  else Op.ofFields (w.extractLsb' 28 4) (w.extractLsb' 24 4)

/-! ### Byte strings (20_memory.md R108, 30_encoding.md R146) -/

/-- Byte `j` of a word, byte 0 in bits 31 to 24 (20_memory.md R108). -/
def wordByte (w : Word) (j : Nat) : Byte := w.extractLsb' (24 - 8 * j) 8

/-- The word of four bytes, the first in bits 31 to 24 (20_memory.md R108). -/
def byteWord (a b c d : Byte) : Word := a ++ b ++ c ++ d

/-- The number of words a string of `n` bytes occupies (30_encoding.md R146). -/
def wordsFor (n : Nat) : Nat := (n + 3) / 4

/-- A byte string as port words: four bytes a word, zero pad bytes in the last (30_encoding.md R146). -/
def packBytes : List Byte → List Word
  | [] => []
  | [a] => [byteWord a 0 0 0]
  | [a, b] => [byteWord a b 0 0]
  | [a, b, c] => [byteWord a b c 0]
  | a :: b :: c :: d :: bytes => byteWord a b c d :: packBytes bytes

/-- The string of `n` bytes at the head of a list of words, and the words after it; `none` where words are missing
or a pad byte is not zero (30_encoding.md R146, R151). -/
def takeBytes (n : Nat) (words : List Word) : Option (List Byte × List Word) :=
  match n, words with
  | 0, ws => some ([], ws)
  | _ + 1, [] => none
  | 1, w :: ws => if w.extractLsb' 0 24 = 0 then some ([wordByte w 0], ws) else none
  | 2, w :: ws => if w.extractLsb' 0 16 = 0 then some ([wordByte w 0, wordByte w 1], ws) else none
  | 3, w :: ws => if w.extractLsb' 0 8 = 0 then some ([wordByte w 0, wordByte w 1, wordByte w 2], ws) else none
  | n + 4, w :: ws =>
    match takeBytes n ws with
    | some (bytes, rest) => some (wordByte w 0 :: wordByte w 1 :: wordByte w 2 :: wordByte w 3 :: bytes, rest)
    | none => none
  termination_by structural words

/-! ### Fields of the PDU descriptor (30_encoding.md R150) -/

/-- The code of a status label (10_state.md R76). -/
def Status.code : Status → BitVec 4
  | .prepared => 0
  | .inTransit => 1
  | .lost => 2
  | .corrupted => 3
  | .tampered => 4
  | .buffered => 5
  | .delivered => 6
  | .discardedChannelCorruption => 7
  | .discardedNoKey => 8
  | .discardedIntegrityNoKey => 9
  | .discardedIntegrityTooShort => 10
  | .discardedIntegrityFailure => 11
  | .discardedDuplicate => 12

/-- The status label of a code; codes 13 to 15 are reserved (10_state.md R76). -/
def Status.ofCode (c : BitVec 4) : Option Status :=
  match c.toNat with
  | 0 => some .prepared
  | 1 => some .inTransit
  | 2 => some .lost
  | 3 => some .corrupted
  | 4 => some .tampered
  | 5 => some .buffered
  | 6 => some .delivered
  | 7 => some .discardedChannelCorruption
  | 8 => some .discardedNoKey
  | 9 => some .discardedIntegrityNoKey
  | 10 => some .discardedIntegrityTooShort
  | 11 => some .discardedIntegrityFailure
  | 12 => some .discardedDuplicate
  | _ => none

/-- The code of a `verified` value (10_state.md R77). -/
def Verified.code : Verified → BitVec 2
  | .notApplicable => 0
  | .verifiedTrue => 1
  | .verifiedFalse => 2

/-- The `verified` value of a code; code 3 is reserved (10_state.md R77). -/
def Verified.ofCode (c : BitVec 2) : Option Verified :=
  match c.toNat with
  | 0 => some .notApplicable
  | 1 => some .verifiedTrue
  | 2 => some .verifiedFalse
  | _ => none

/-- The `TAG` word of a tag, byte 0 in bits 31 to 24 (30_encoding.md R150). -/
def Tag.word (t : Tag) : Word := byteWord t.b0 t.b1 t.b2 t.b3

/-- The tag of a `TAG` word (30_encoding.md R150). -/
def Tag.ofWord (w : Word) : Tag := ⟨wordByte w 0, wordByte w 1, wordByte w 2, wordByte w 3⟩

/-- The tag field of a descriptor from its `TAG_PRESENT` bit and `TAG` word: `some none` is an absent tag, `none` a
word that is not zero though the tag is absent (30_encoding.md R151). -/
def decodeTag (present : Bool) (w : Word) : Option (Option Tag) :=
  if present then some (some (Tag.ofWord w)) else if w = 0 then some none else none

/-- The PDU at the head of a list of words and the words after it; `none` where the descriptor is not well formed
(30_encoding.md R150, R151; the bounds by `MAX_PAYLOAD` and `MAX_SN` are checked in the prologue). -/
def decodePdu : List Word → Option (Pdu × List Word)
  | sduId :: sn :: count :: hfn :: flags :: tag :: len :: words =>
    if flags.extractLsb' 5 3 ≠ 0 ∨ flags.extractLsb' 12 20 ≠ 0 then none
    else
      match Verified.ofCode (flags.extractLsb' 2 2), Status.ofCode (flags.extractLsb' 8 4),
          decodeTag (flags.getLsbD 4) tag, takeBytes len.toNat words with
      | some verified, some status, some tag, some (payload, rest) =>
        some ({ sduId, sn, count, hfn, payload, tag, corrupted := flags.getLsbD 0, tampered := flags.getLsbD 1,
                verified, status }, rest)
      | _, _, _, _ => none
  | _ => none

/-- `n` descriptors back to back, and the words after them (30_encoding.md R155). -/
def decodePdus : Nat → List Word → Option (List Pdu × List Word)
  | 0, words => some ([], words)
  | n + 1, words =>
    match decodePdu words with
    | none => none
    | some (p, rest) =>
      match decodePdus n rest with
      | none => none
      | some (ps, rest') => some (p :: ps, rest')

/-! ### Operand records (30_encoding.md R152 to R155) -/

/-- The record of TX.CONFIG and RX.CONFIG: the `CFG` word, then `IKEY`, then `CKEY` (30_encoding.md R153). -/
def decodeLinkCfg : List Word → Option LinkCfg
  | [] => none
  | cfg :: words =>
    if cfg.extractLsb' 15 17 ≠ 0 then none
    else
      match takeBytes Config.keyLen words with
      | none => none
      | some (ikey, rest) =>
        match takeBytes Config.keyLen rest with
        | some (ckey, []) =>
          some { bearer := cfg.extractLsb' 0 5, dir := cfg.extractLsb' 5 1, ien := cfg.getLsbD 6,
                 cen := cfg.getLsbD 7, snbits := cfg.extractLsb' 8 5, ikp := cfg.getLsbD 13,
                 ckp := cfg.getLsbD 14, ikey, ckey }
        | _ => none

/-- The record of TX.SEND: `SDU_ID`, `LEN`, payload (30_encoding.md R152). -/
def decodeSend : List Word → Option (Word × List Byte)
  | sduId :: len :: words =>
    match takeBytes len.toNat words with
    | some (payload, []) => some (sduId, payload)
    | _ => none
  | _ => none

/-- A rate word of CH.CONFIG: 17 bits, the others reserved (30_encoding.md R154). -/
def decodeRate (w : Word) : Option (BitVec 17) :=
  if w.extractLsb' 17 15 = 0 then some (w.extractLsb' 0 17) else none

/-- The record of CH.CONFIG (30_encoding.md R154). -/
def decodeChannelCfg : List Word → Option ChannelCfg
  | [loss, dup, reorder, corrupt, tamper, maxd, seed] =>
    match decodeRate loss, decodeRate dup, decodeRate reorder, decodeRate corrupt, decodeRate tamper with
    | some loss, some dup, some reorder, some corrupt, some tamper =>
      if maxd.extractLsb' 16 16 = 0 then
        some { loss, dup, reorder, corrupt, tamper, maxd := maxd.extractLsb' 0 16, seed }
      else none
    | _, _, _, _, _ => none
  | _ => none

/-- The record of RX.RECEIVE: one descriptor and nothing after it (30_encoding.md R155). -/
def decodeReceive (words : List Word) : Option Pdu :=
  match decodePdu words with
  | some (p, []) => some p
  | _ => none

/-- The record of CH.TRANSMIT: `N`, then `N` descriptors and nothing after them (30_encoding.md R155). -/
def decodeTransmit : List Word → Option (List Pdu)
  | [] => none
  | n :: words =>
    match decodePdus n.toNat words with
    | some (ps, []) => some ps
    | _ => none

/-- An empty record (30_encoding.md R155). -/
def decodeEmpty (i : Instr) : List Word → Option Instr
  | [] => some i
  | _ :: _ => none

/-- The instruction of an operation and its operand record; `none` where the record is not well formed. -/
def decodeRecord (op : Op) (words : List Word) : Option Instr :=
  match op with
  | .txConfig => (decodeLinkCfg words).map .txConfig
  | .txSend => (decodeSend words).map fun r => .txSend r.1 r.2
  | .rxConfig => (decodeLinkCfg words).map .rxConfig
  | .rxReceive => (decodeReceive words).map .rxReceive
  | .rxStats => decodeEmpty .rxStats words
  | .rxDelivered => decodeEmpty .rxDelivered words
  | .chConfig => (decodeChannelCfg words).map .chConfig
  | .chTransmit => (decodeTransmit words).map .chTransmit
  | .chFlush => decodeEmpty .chFlush words

/-- Why a frame is no instruction: its command word is `ILLEGAL` (60_exceptions.md R401), or the operand record of
the operation it names is not well formed (60_exceptions.md R402). -/
inductive DecodeError where
  | illegalCommand
  | badOperand (op : Op)
  deriving DecidableEq, Repr

/-- Decoding of a frame received on the port of unit `u` (30_encoding.md R144, R172). -/
def decode (u : UnitId) (f : Frame) : Except DecodeError Instr :=
  match decodeOp u f.cmd with
  | none => .error .illegalCommand
  | some op =>
    match decodeRecord op f.operands with
    | none => .error (.badOperand op)
    | some i => .ok i

/-! ### The encoder, from the same tables -/

/-- The flags word of a descriptor, word 4 (30_encoding.md R150). -/
def encodeFlags (p : Pdu) : Word :=
  (0 : BitVec 20) ++ p.status.code ++ (0 : BitVec 3) ++ BitVec.ofBool p.tag.isSome ++ p.verified.code
    ++ BitVec.ofBool p.tampered ++ BitVec.ofBool p.corrupted

/-- The `TAG` word of a descriptor: zero when the tag is absent (30_encoding.md R150). -/
def encodeTag : Option Tag → Word
  | none => 0
  | some t => t.word

/-- A PDU descriptor with the given `LEN` word (30_encoding.md R150). -/
def encodePduWith (len : Word) (p : Pdu) : List Word :=
  p.sduId :: p.sn :: p.count :: p.hfn :: encodeFlags p :: encodeTag p.tag :: len :: packBytes p.payload

/-- A PDU descriptor (30_encoding.md R150). -/
def encodePdu (p : Pdu) : List Word := encodePduWith (BitVec.ofNat 32 p.payload.length) p

/-- The `CFG` word (30_encoding.md R153). -/
def encodeCfgWord (cfg : LinkCfg) : Word :=
  (0 : BitVec 17) ++ BitVec.ofBool cfg.ckp ++ BitVec.ofBool cfg.ikp ++ cfg.snbits ++ BitVec.ofBool cfg.cen
    ++ BitVec.ofBool cfg.ien ++ cfg.dir ++ cfg.bearer

/-- The record of TX.CONFIG and RX.CONFIG (30_encoding.md R153). -/
def encodeLinkCfg (cfg : LinkCfg) : List Word :=
  encodeCfgWord cfg :: (packBytes cfg.ikey ++ packBytes cfg.ckey)

/-- The record of CH.CONFIG (30_encoding.md R154). -/
def encodeChannelCfg (cfg : ChannelCfg) : List Word :=
  [(0 : BitVec 15) ++ cfg.loss, (0 : BitVec 15) ++ cfg.dup, (0 : BitVec 15) ++ cfg.reorder,
    (0 : BitVec 15) ++ cfg.corrupt, (0 : BitVec 15) ++ cfg.tamper, (0 : BitVec 16) ++ cfg.maxd, cfg.seed]

/-- The operand record of an instruction (30_encoding.md R152 to R155). -/
def encodeRecord : Instr → List Word
  | .txConfig cfg => encodeLinkCfg cfg
  | .txSend sduId payload => sduId :: BitVec.ofNat 32 payload.length :: packBytes payload
  | .rxConfig cfg => encodeLinkCfg cfg
  | .rxReceive p => encodePdu p
  | .rxStats => []
  | .rxDelivered => []
  | .chConfig cfg => encodeChannelCfg cfg
  | .chTransmit ps => BitVec.ofNat 32 ps.length :: ps.flatMap encodePdu
  | .chFlush => []

/-- The frame of an instruction, for the port of its unit (30_encoding.md R140). -/
def encode (i : Instr) : Frame := { cmd := i.op.word, operands := encodeRecord i }

/-! ### Instructions given as the opcode table numbers their bits -/

/-- How many operand words the shortest record of an operation has: the record of zero words that stands for it
where the opcode table gives the operands no bits (30_encoding.md R152 to R155; log 16). -/
def Op.recordWords : Op → Nat
  | .txConfig | .rxConfig => 1 + Config.keyLen / 2
  | .txSend => 2
  | .rxReceive => 7
  | .chConfig => 7
  | .chTransmit => 1
  | .rxStats | .rxDelivered | .chFlush => 0

/-- Word `k` of an instruction whose bits are `w`, bit 0 the least significant of the first word. -/
def tableWord (w k : Nat) : Word := BitVec.ofNat 32 (w >>> (32 * k))

/-- The port that the table's instruction is for: the one its `UNIT` field names, TXU's where it names none. -/
def tablePort (w : Nat) : UnitId := (UnitId.ofCode ((tableWord w 0).extractLsb' 28 4)).getD .txu

/-- The frame of an instruction whose `nbits` bits are `w`: the words the bits fill, then words of zeros up to the
shortest record of the operation (log 16). -/
def tableFrame (nbits w : Nat) : Frame :=
  let given := (List.range ((nbits + 31) / 32 - 1)).map fun k => tableWord w (k + 1)
  let cmd := tableWord w 0
  let need := match decodeOp (tablePort w) cmd with
    | some op => op.recordWords
    | none => 0
  { cmd, operands := given ++ List.replicate (need - given.length) 0 }

/-- The instruction the decoder reads from an instruction whose bits are `w`; `none` where it refuses. -/
def decodeTableWord (nbits w : Nat) : Option Instr :=
  match decode (tablePort w) (tableFrame nbits w) with
  | .ok i => some i
  | .error _ => none

end Sys2Proof
end

