-- ==== Sys2Proof/Machine/State.lean ====
section
/-! DEFINITION. The state of SLRB (10_state.md): the three units, and the model's own record of what the host still
issues and what it was answered. Plain data. -/

namespace Sys2Proof.Machine

/-- The lifecycle register `LIFE` of a unit; value 3 is never written (10_state.md R31). -/
inductive Life where
  | unconfigured
  | ready
  | cfgError
  deriving DecidableEq, Repr

/-- The transmitter unit (10_state.md R31 to R42). -/
structure Txu where
  life : Life
  lcfg : LinkCfg
  sn : Word
  hfn : Word
  deriving DecidableEq, Repr

/-- A valid slot of the reordering buffer: `valid = 1` and these fields (10_state.md R53). -/
structure Slot where
  sduId : Word
  count : Word
  body : List Byte
  deriving DecidableEq, Repr

/-- The reordering buffer `RB`, SLRB's one indexed store: the pairs of an index and a slot whose `valid` is 1, in
strictly rising order of the index; an unlisted index reads `valid = 0`, its reset contents (10_state.md R53, R90,
20_memory.md R101; log 13). -/
abbrev Memory := List (Nat × Slot)

/-- The replay cache `RC`, a set of counts as a strictly rising list (10_state.md R54; log 13). -/
abbrev CountSet := List Word

/-- An entry of the delivered list (10_state.md R55). -/
structure DlEntry where
  sduId : Word
  payload : List Byte
  count : Word
  deriving DecidableEq, Repr

/-- The receiver unit (10_state.md R31 to R33, R50 to R60). -/
structure Rxu where
  life : Life
  lcfg : LinkCfg
  neSn : Word
  hfnEst : Word
  ldValid : Bool
  ldSn : Word
  rb : Memory
  rc : CountSet
  dl : List DlEntry
  cntSuccess : Word
  cntInteg : Word
  cntDup : Word
  cntOld : Word
  fault : Bool
  deriving DecidableEq, Repr

/-- An entry of the delay buffer (10_state.md R68). -/
structure DbEntry where
  pdu : Pdu
  delay : BitVec 16
  deriving DecidableEq, Repr

/-- The channel unit (10_state.md R31, R65 to R69). -/
structure Chu where
  life : Life
  rateLoss : BitVec 17
  rateDup : BitVec 17
  rateReorder : BitVec 17
  rateCorrupt : BitVec 17
  rateTamper : BitVec 17
  maxd : BitVec 16
  seed : Word
  db : List DbEntry
  fault : Bool
  deriving DecidableEq, Repr

/-- A response frame and the port it was sent on (30_encoding.md R140). -/
structure Response where
  port : UnitId
  words : List Word
  deriving DecidableEq, Repr

/-- The state of the block. `inbox`, `outbox` and `drawIx` are the model's own: the events the host and the platform
will still issue (log 1), the response frames sent so far, oldest first (log 2), and the index of the next draw
(log 6). -/
structure State where
  txu : Txu
  rxu : Rxu
  chu : Chu
  inbox : List Event
  outbox : List Response
  drawIx : Nat
  deriving DecidableEq, Repr

/-- Why the machine stops. -/
inductive Fault where
  /-- Raised by RX.RECEIVE when it reads or writes the reorder-buffer slot `index` above `MAX_SN`, a slot that does
  not exist (20_memory.md R101, R102; log 12). Safe: the model stops where the spec gives the access no meaning, and
  no state that meets the receiver's invariant reaches it. -/
  | slotOutOfRange (index : Nat)
  deriving DecidableEq, Repr

/-- Why the model gives an instruction no meaning. -/
inductive Refusal where
  /-- Raised by `exec` for an instruction without a meaning yet. Safe: nothing is claimed of it. -/
  | notModelled (mnemonic : String)
  deriving DecidableEq, Repr

/-- The link configuration after reset: all fields 0 but `SNBITS = 12` (10_state.md R90). The keys are not read
before they are written; the model holds zero bytes (log 3, DESIGN CHOICE). -/
def resetLinkCfg : LinkCfg :=
  { bearer := 0, dir := 0, ien := false, cen := false, snbits := 12, ikp := false, ckp := false,
    ikey := List.replicate Config.keyLen 0, ckey := List.replicate Config.keyLen 0 }

/-- TXU after reset (10_state.md R90). -/
def resetTxu : Txu := { life := .unconfigured, lcfg := resetLinkCfg, sn := 0, hfn := 0 }

/-- RXU after reset (10_state.md R90). `LD_SN` is not read before it is written; the model holds 0 (log 4,
DESIGN CHOICE). -/
def resetRxu : Rxu :=
  { life := .unconfigured, lcfg := resetLinkCfg, neSn := 0, hfnEst := 0, ldValid := false, ldSn := 0, rb := [],
    rc := [], dl := [], cntSuccess := 0, cntInteg := 0, cntDup := 0, cntOld := 0, fault := false }

/-- CHU after reset (10_state.md R90). -/
def resetChu : Chu :=
  { life := .unconfigured, rateLoss := 0, rateDup := 0, rateReorder := 0, rateCorrupt := 0, rateTamper := 0,
    maxd := 0, seed := 0, db := [], fault := false }

/-- The block right after all three units are reset (10_state.md R90): nothing issued, nothing answered. -/
def State.reset : State :=
  { txu := resetTxu, rxu := resetRxu, chu := resetChu, inbox := [], outbox := [], drawIx := 0 }

end Sys2Proof.Machine
end

