-- ==== Sys2Proof/Machine/Flags.lean ====
section
/-! DEFINITION. Result codes, response words, the `FAULT` and statistic flags, and the derived constants of a
sequence-number width. -/

namespace Sys2Proof.Machine

/-! ### Derived constants (00_scope.md R9) -/

/-- `MAX_SN = 2^S − 1` (00_scope.md R9). -/
def maxSn (S : Nat) : Nat := 2 ^ S - 1

/-- The window size `W = 2^(S−1)` (00_scope.md R9, 10_state.md R61). -/
def windowSize (S : Nat) : Nat := 2 ^ (S - 1)

/-- `HFN_MOD = 2^(32 − S)` (00_scope.md R9). -/
def hfnMod (S : Nat) : Nat := 2 ^ (32 - S)

/-- The wrap threshold `T = MAX_SN − W + 1` (00_scope.md R9). -/
def wrapThreshold (S : Nat) : Nat := maxSn S - windowSize S + 1

/-- The sequence-number width `S` of a link configuration (10_state.md R33). -/
def snWidth (cfg : LinkCfg) : Nat := cfg.snbits.toNat

/-- The count `(hfn << S) | sn`, 32 bits (10_state.md R42, 41_transmitter.md R241). -/
def mkCount (S : Nat) (hfn sn : Word) : Word := (hfn <<< S) ||| sn

/-! ### Result codes and response words (30_encoding.md R160, R161) -/

/-- The result codes (30_encoding.md R160). -/
inductive Result where
  | ok
  | illegalCommand
  | badOperand
  | notConfigured
  | alreadyConfigured
  | configError
  | capacityFault
  deriving DecidableEq, Repr

/-- The code of a result (30_encoding.md R160). -/
def Result.code : Result → BitVec 8
  | .ok => 0
  | .illegalCommand => 1
  | .badOperand => 2
  | .notConfigured => 3
  | .alreadyConfigured => 4
  | .configError => 5
  | .capacityFault => 6

/-- The response word: bits 31 to 24 of the command word, `RESULT`, 16 zero bits (30_encoding.md R161). -/
def responseWord (cmd : Word) (r : Result) : Word := cmd.extractLsb' 24 8 ++ r.code ++ (0 : BitVec 16)

/-- The `RXINFO` word of an RX.RECEIVE response (30_encoding.md R163). -/
def rxInfo (accept : Bool) (verified : Verified) (status : Status) : Word :=
  (0 : BitVec 20) ++ status.code ++ (0 : BitVec 4) ++ verified.code ++ (0 : BitVec 1) ++ BitVec.ofBool accept

/-- A count or a length as a 32-bit response word; where it does not fit, a free value (30_encoding.md R150, R162,
R165; log 11). -/
def countWord (P : Params) (n : Nat) : Word := if n < 2 ^ 32 then BitVec.ofNat 32 n else P.longCount n

/-! ### Statistic counters and the capacity-fault flag (10_state.md R56 to R60, R69) -/

/-- A statistic counter incremented by one, modulo `2^CTR_BITS` (10_state.md R56 to R58). -/
def bump (counter : Word) : Word := counter + 1

/-- The statistic counters that a discard reason increments: `CNT_INTEG` for the three integrity discards, `CNT_DUP`
for a duplicate, none for the others (60_exceptions.md R420, 10_state.md R57, R58). -/
def countDiscard (reason : Status) (r : Rxu) : Rxu :=
  match reason with
  | .discardedIntegrityNoKey | .discardedIntegrityTooShort | .discardedIntegrityFailure =>
    { r with cntInteg := bump r.cntInteg }
  | .discardedDuplicate => { r with cntDup := bump r.cntDup }
  | .prepared | .inTransit | .lost | .corrupted | .tampered | .buffered | .delivered
  | .discardedChannelCorruption | .discardedNoKey => r

/-- The `FAULT` flag of a unit; TXU has none (60_exceptions.md R400, 10_state.md R42, R60, R69). -/
def State.faultOf (s : State) : UnitId → Bool
  | .txu => false
  | .rxu => s.rxu.fault
  | .chu => s.chu.fault

/-- The `LIFE` register of a unit (10_state.md R31). -/
def State.lifeOf (s : State) : UnitId → Life
  | .txu => s.txu.life
  | .rxu => s.rxu.life
  | .chu => s.chu.life

/-- `FAULT <- 1` in a unit that has the flag (60_exceptions.md R412). -/
def State.setFault (s : State) : UnitId → State
  | .txu => s
  | .rxu => { s with rxu := { s.rxu with fault := true } }
  | .chu => { s with chu := { s.chu with fault := true } }

/-- `LIFE <- CFG_ERROR` in a unit (60_exceptions.md R405). -/
def State.setCfgError (s : State) : UnitId → State
  | .txu => { s with txu := { s.txu with life := .cfgError } }
  | .rxu => { s with rxu := { s.rxu with life := .cfgError } }
  | .chu => { s with chu := { s.chu with life := .cfgError } }

end Sys2Proof.Machine
end

