-- ==== Sys2Proof/Machine/Ops.lean ====
section
/-! DEFINITION. The shared operations: the command prologue, responses and errors, the primitives of the four
stores, unit reset, and the fetch of the next event. SLRB has no trap entry and no trap return (60_exceptions.md
R426, R427): what stands in their place is `raiseCmdError`, the one way a command ends with an error. -/

namespace Sys2Proof.Machine

/-- A result of the machine: what `step` and every meaning answer. -/
abbrev StepResult := Host.Outcome State Fault Refusal

/-! ### Responses (30_encoding.md R140, R161) -/

/-- Sends one response frame on a port. -/
def sendFrame (port : UnitId) (words : List Word) (s : State) : State :=
  { s with outbox := s.outbox ++ [{ port, words }] }

/-- Ends a command with `OK` and its response record (30_encoding.md R161, R162, 60_exceptions.md R406). -/
def respondOk (op : Op) (record : List Word) (s : State) : State :=
  sendFrame op.unit (responseWord op.word .ok :: record) s

/-- `raise CmdError(code)`: ends a command with the response word alone (00_scope.md R13, 30_encoding.md R161,
60_exceptions.md R400). -/
def raiseCmdError (op : Op) (code : Result) (s : State) : State := sendFrame op.unit [responseWord op.word code] s

/-- The answer to an illegal command word: nothing changes, the response word alone (60_exceptions.md R401). -/
def raiseIllegal (port : UnitId) (cmd : Word) (s : State) : State :=
  sendFrame port [responseWord cmd .illegalCommand] s

/-- The capacity fault: the unit's `FAULT <- 1` and the response word alone (60_exceptions.md R412). -/
def raiseCapacity (op : Op) (s : State) : State := raiseCmdError op .capacityFault (s.setFault op.unit)

/-- The configuration error of a configuration command's body: `LIFE <- CFG_ERROR` and the response word alone
(60_exceptions.md R405). -/
def raiseConfigError (op : Op) (s : State) : State := raiseCmdError op .configError (s.setCfgError op.unit)

/-! ### The command prologue (60_exceptions.md R400) -/

/-- The result code of the first check that fails, in the order of R400; `none` when all pass. The check of the
command word comes before: it is the decoder's. -/
def prologue (op : Op) (operandsOk : Bool) (s : State) : Option Result :=
  if s.lifeOf op.unit = .cfgError then some .configError
  else if op.isConfig ∧ s.lifeOf op.unit = .ready then some .alreadyConfigured
  else if ¬ op.isConfig ∧ s.lifeOf op.unit = .unconfigured then some .notConfigured
  else if s.faultOf op.unit then some .capacityFault
  else if ¬ operandsOk then some .badOperand
  else none

/-- A command: the prologue, then the body if every check passes (60_exceptions.md R400). -/
def runCommand (op : Op) (operandsOk : Bool) (body : State → StepResult) (s : State) : StepResult :=
  match prologue op operandsOk s with
  | some code => .next (raiseCmdError op code s)
  | none => body s

/-- A frame whose operand record is not well formed (60_exceptions.md R400, R402): the prologue decides the code. -/
def badFrame (op : Op) (s : State) : State := raiseCmdError op ((prologue op false s).getD .badOperand) s

/-! ### Capacities (60_exceptions.md R412) -/

/-- Whether a store that holds `n` entries may take no more; an unbounded store always may (00_scope.md R8). -/
def atCapacity (cap : Option Nat) (n : Nat) : Bool :=
  match cap with
  | none => false
  | some c => decide (c ≤ n)

/-- Whether a payload of `n` bytes is within `MAX_PAYLOAD` (30_encoding.md R151, R152). -/
def withinLimit (limit : Option Nat) (n : Nat) : Bool :=
  match limit with
  | none => true
  | some m => decide (n ≤ m)

/-! ### The reorder buffer (20_memory.md R101, R102) -/

/-- Slot `i` of the list: `none` where its `valid` is 0. -/
def Memory.find : Memory → Nat → Option Slot
  | [], _ => none
  | (j, e) :: m, i => if i = j then some e else Memory.find m i

/-- The list with slot `i` valid and holding `e`, in its canonical form. -/
def Memory.insert : Memory → Nat → Slot → Memory
  | [], i, e => [(i, e)]
  | (j, f) :: m, i, e =>
    if i < j then (i, e) :: (j, f) :: m
    else if i = j then (i, e) :: m
    else (j, f) :: Memory.insert m i e

/-- The list with slot `i` not valid. -/
def Memory.remove : Memory → Nat → Memory
  | [], _ => []
  | (j, f) :: m, i => if i = j then m else (j, f) :: Memory.remove m i

/-- The canonical form: strictly rising indexes, so one entry an index and none for a slot that reads its default. -/
abbrev Memory.wf (m : Memory) : Prop := m.Pairwise fun a b => a.1 < b.1

/-- `MemRead(RB, i)`, `none` standing for `valid = 0`; an index above `MAX_SN` is no slot (20_memory.md R102;
log 12). -/
def memRead (S : Nat) (m : Memory) (i : Nat) : Except Fault (Option Slot) :=
  if i ≤ maxSn S then .ok (Memory.find m i) else .error (.slotOutOfRange i)

/-- `MemWrite(RB, i, e)`: an insert for `some e`, a removal for `none`; an index above `MAX_SN` is no slot
(20_memory.md R102; log 12). -/
def memWrite (S : Nat) (m : Memory) (i : Nat) (e : Option Slot) : Except Fault Memory :=
  if i ≤ maxSn S then
    match e with
    | some slot => .ok (Memory.insert m i slot)
    | none => .ok (Memory.remove m i)
  else .error (.slotOutOfRange i)

/-- The number of slots with `valid = 1` (10_state.md R61). -/
def Memory.validCount (m : Memory) : Nat := m.length

/-! ### The replay cache (20_memory.md R103) -/

/-- `RC <- RC ∪ {c}` (20_memory.md R103). -/
def CountSet.insert : CountSet → Word → CountSet
  | [], c => [c]
  | d :: rc, c => if c < d then c :: d :: rc else if c = d then d :: rc else d :: CountSet.insert rc c

/-- The canonical form of the replay cache: strictly rising. -/
abbrev CountSet.wf (rc : CountSet) : Prop := rc.Pairwise (· < ·)

/-! ### Reset and fetch -/

/-- Reset of one unit: every piece of its state to the value of R90, nothing in the other units
(70_reset_and_hazards.md R450). -/
def resetUnit (u : UnitId) (s : State) : State :=
  match u with
  | .txu => { s with txu := resetTxu }
  | .rxu => { s with rxu := resetRxu }
  | .chu => { s with chu := resetChu }

/-- The next event the host or the platform issues, and the state with it taken from the list (log 1). -/
def fetch (s : State) : Option (Event × State) :=
  match s.inbox with
  | [] => none
  | e :: rest => some (e, { s with inbox := rest })

end Sys2Proof.Machine
end

