-- ==== Sys2Proof/Machine/Operands.lean ====
section
/-! DEFINITION. The operand checks that need a parameter or the unit's state, and the response records. -/

namespace Sys2Proof.Machine

/-! ### Operand checks of the prologue (60_exceptions.md R400, R402) -/

/-- A PDU whose payload is within `MAX_PAYLOAD` (30_encoding.md R151). -/
def pduWithin (P : Params) (p : Pdu) : Bool := p.fits && withinLimit P.maxPayload p.payload.length

/-- Legal operands of TX.CONFIG and RX.CONFIG: any record of the right length (30_encoding.md R153). -/
def linkCfgOperandOk (cfg : LinkCfg) : Bool := cfg.keysOk

/-- Legal operands of TX.SEND: `LEN + 4·IEN ≤ MAX_PAYLOAD` (30_encoding.md R152). -/
def sendOperandOk (P : Params) (t : Txu) (payload : List Byte) : Bool :=
  bytesOk payload && withinLimit P.maxPayload (payload.length + if t.lcfg.ien then 4 else 0)

/-- Legal operands of RX.RECEIVE: a well-formed descriptor with `SN ≤ MAX_SN` of the receiver (30_encoding.md
R151). -/
def receiveOperandOk (P : Params) (r : Rxu) (p : Pdu) : Bool :=
  pduWithin P p && decide (p.sn.toNat ≤ maxSn (snWidth r.lcfg))

/-- Legal operands of CH.TRANSMIT: every descriptor well formed, or the command is refused as a whole
(30_encoding.md R151, R155, 60_exceptions.md R402). -/
def transmitOperandOk (P : Params) (ps : List Pdu) : Bool := decide (ps.length < 2 ^ 32) && ps.all (pduWithin P)

/-- `cfg_legal`, conditions (a) to (e) in order: what the body of TX.CONFIG and of RX.CONFIG checks of a record that
passed the prologue (41_transmitter.md R231). -/
def cfgLegal (P : Params) (cfg : LinkCfg) : Bool :=
  (!cfg.ien || cfg.ikp) && (!cfg.cen || cfg.ckp) && decide (1 ≤ snWidth cfg)
    && decide (P.initSn.toNat ≤ maxSn (snWidth cfg)) && decide (P.initHfn.toNat < hfnMod (snWidth cfg))

/-! ### Response records (30_encoding.md R162 to R165) -/

/-- One PDU descriptor of a response (30_encoding.md R150, R162). -/
def pduRecord (P : Params) (p : Pdu) : List Word := encodePduWith (countWord P p.payload.length) p

/-- `N` and `N` descriptors (30_encoding.md R162). -/
def pduListRecord (P : Params) (ps : List Pdu) : List Word := countWord P ps.length :: ps.flatMap (pduRecord P)

/-- The record of RX.RECEIVE: `RXINFO`, `COUNT`, `NDRAIN` (30_encoding.md R163). -/
def receiveRecord (P : Params) (accept : Bool) (p : Pdu) (ndrain : Nat) : List Word :=
  [rxInfo accept p.verified p.status, p.count, countWord P ndrain]

/-- The record of RX.STATS (30_encoding.md R164, 42_receiver.md R300). -/
def statsRecord (P : Params) (r : Rxu) : List Word :=
  [r.cntSuccess, r.cntInteg, r.cntDup, r.cntOld, countWord P (Memory.validCount r.rb)]

/-- One entry of the delivered list in a response (30_encoding.md R165). -/
def dlEntryRecord (P : Params) (e : DlEntry) : List Word :=
  e.sduId :: e.count :: countWord P e.payload.length :: packBytes e.payload

/-- The record of RX.DELIVERED (30_encoding.md R165, 42_receiver.md R305). -/
def deliveredRecord (P : Params) (dl : List DlEntry) : List Word :=
  countWord P dl.length :: dl.flatMap (dlEntryRecord P)

end Sys2Proof.Machine
end

