-- ==== Sys2Proof/Machine/Channel.lean ====
section
/-! DEFINITION. The channel unit: the draws, CH.CONFIG, CH.TRANSMIT and CH.FLUSH (43_channel.md). A draw point that a
command reaches takes one raw value of the oracle, a natural number, and reads from it, digit by digit in a mixed
radix, a value of the draw's set; every value of the set is read from some raw value (43_channel.md R332; log 5). -/

namespace Sys2Proof.Machine

/-! ### Draws (43_channel.md R330 to R336) -/

/-- `roll(rate)` read from a raw value: never at rate 0, always at rate 65536, either way between
(43_channel.md R331). -/
def rollOf (rate : BitVec 17) (raw : Nat) : Bool :=
  if rate = 0 then false else if rate = 65536 then true else decide (raw % 2 = 1)

/-- `k` pairs of a position, each from the positions left, and a mask in 1 to 255 (43_channel.md R333). -/
def tamperPairs : Nat → Nat → List Nat → List (Nat × Byte)
  | 0, _, _ => []
  | k + 1, raw, positions =>
    match positions[raw % positions.length]? with
    | none => []
    | some pos =>
      let raw' := raw / positions.length
      (pos, BitVec.ofNat 8 (raw' % 255 + 1))
        :: tamperPairs k (raw' / 255) (positions.eraseIdx (raw % positions.length))

/-- The tamper draw for a payload of `n` bytes (43_channel.md R333). -/
def tamperOf (n : Nat) (raw : Nat) : List (Nat × Byte) :=
  if n = 0 then [] else tamperPairs (raw % min 3 n + 1) (raw / min 3 n) (List.range n)

/-- The corruption draw for a payload of `n ≥ 1` bytes: a position and a bit (43_channel.md R334). -/
def corruptOf (n : Nat) (raw : Nat) : Nat × Nat := (raw % n, raw / n % 8)

/-- The delay draw, in 1 to `maxd` (43_channel.md R335). -/
def delayOf (maxd : BitVec 16) (raw : Nat) : BitVec 16 := BitVec.ofNat 16 (raw % maxd.toNat + 1)

/-- A list in the order that a raw value reads: its first digit, in radix the length, picks the first element, the
next digits order the others. The first argument is the length (43_channel.md R336). -/
def permuteOf {α : Type} : Nat → Nat → List α → List α
  | 0, _, _ => []
  | m + 1, raw, xs =>
    match xs[raw % xs.length]? with
    | none => []
    | some x => x :: permuteOf m (raw / xs.length) (xs.eraseIdx (raw % xs.length))

/-- The shuffle of an output list (43_channel.md R336, R358). -/
def shuffleOf {α : Type} (xs : List α) (raw : Nat) : List α := permuteOf xs.length raw xs

/-! ### CH.CONFIG (43_channel.md R340) -/

/-- Legal rates: none above 65536 (43_channel.md R340). -/
def ratesLegal (cfg : ChannelCfg) : Bool :=
  decide (cfg.loss.toNat ≤ 65536) && decide (cfg.dup.toNat ≤ 65536) && decide (cfg.reorder.toNat ≤ 65536)
    && decide (cfg.corrupt.toNat ≤ 65536) && decide (cfg.tamper.toNat ≤ 65536)

/-- CHU after a successful CH.CONFIG; `DB` and `FAULT` keep their values (43_channel.md R340). -/
def configuredChu (cfg : ChannelCfg) (c : Chu) : Chu :=
  { c with
    life := .ready, rateLoss := cfg.loss, rateDup := cfg.dup, rateReorder := cfg.reorder,
    rateCorrupt := cfg.corrupt, rateTamper := cfg.tamper, maxd := cfg.maxd, seed := cfg.seed }

/-- CH.CONFIG (43_channel.md R340). -/
def execChConfig (cfg : ChannelCfg) (s : State) : StepResult :=
  runCommand .chConfig true
    (fun s =>
      if ratesLegal cfg then .next (respondOk .chConfig [] { s with chu := configuredChu cfg s.chu })
      else .next (raiseConfigError .chConfig s))
    s

/-! ### CH.TRANSMIT: the impairments of one PDU (43_channel.md R351 to R356) -/

/-- A byte string with the byte at one position XORed with a mask. -/
def xorAt (bytes : List Byte) (pos : Nat) (mask : Byte) : List Byte := bytes.modify pos (· ^^^ mask)

/-- A PDU tampered with: every drawn byte XORed with its mask, the flag and the status set (43_channel.md R353). -/
def tamperPdu (raw : Nat) (p : Pdu) : Pdu :=
  { p with
    payload := (tamperOf p.payload.length raw).foldl (fun bytes d => xorAt bytes d.1 d.2) p.payload
    tampered := true
    status := .tampered }

/-- A PDU corrupted: the drawn bit flipped, the flag and the status set; an empty payload has no bit to flip
(43_channel.md R354). -/
def corruptPdu (raw : Nat) (p : Pdu) : Pdu :=
  { p with
    payload :=
      if p.payload.length ≥ 1 then
        xorAt p.payload (corruptOf p.payload.length raw).1 ((1 : Byte) <<< (corruptOf p.payload.length raw).2)
      else p.payload
    corrupted := true
    status := .corrupted }

/-- Step 2, tamper: the PDU, whether it was tampered with in this pass, and the next draw (43_channel.md R353). -/
def tamperStep (P : Params) (rate : BitVec 17) (ix : Nat) (p : Pdu) : Pdu × Bool × Nat :=
  if rollOf rate (P.draw ix) then (tamperPdu (P.draw (ix + 1)) p, true, ix + 2) else (p, false, ix + 1)

/-- Step 3, corruption, not rolled for a PDU tampered with in this pass: the PDU and the next draw
(43_channel.md R354). -/
def corruptStep (P : Params) (rate : BitVec 17) (tamperedNow : Bool) (ix : Nat) (p : Pdu) : Pdu × Nat :=
  if tamperedNow then (p, ix)
  else if rollOf rate (P.draw ix) then
    (corruptPdu (P.draw (ix + 1)) p, if p.payload.length ≥ 1 then ix + 2 else ix + 1)
  else (p, ix + 1)

/-- Step 5, reordering delay: the delay and the next draw (43_channel.md R356). -/
def delayStep (P : Params) (rate : BitVec 17) (maxd : BitVec 16) (ix : Nat) : BitVec 16 × Nat :=
  if rollOf rate (P.draw ix) ∧ maxd ≠ 0 then (delayOf maxd (P.draw (ix + 1)), ix + 2) else (0, ix + 1)

/-- What a CH.TRANSMIT has done so far: the delay buffer, whether an append exceeded `DB_CAP`, and the next draw. -/
structure Transit where
  db : List DbEntry
  overflow : Bool
  ix : Nat
  deriving DecidableEq, Repr

/-- `append(DB, e)`, noting an append beyond `DB_CAP` (20_memory.md R105). -/
def enqueue (P : Params) (e : DbEntry) (t : Transit) : Transit :=
  { t with db := t.db ++ [e], overflow := t.overflow || atCapacity P.dbCap t.db.length }

/-- Step 4, duplication: a copy of the PDU with delay 0 (43_channel.md R355). -/
def dupStep (P : Params) (rate : BitVec 17) (p : Pdu) (t : Transit) : Transit :=
  let t' := { t with ix := t.ix + 1 }
  if rollOf rate (P.draw t.ix) then enqueue P { pdu := p, delay := 0 } t' else t'

/-- Steps 5 and 6: the PDU enqueued with its delay (43_channel.md R356). -/
def enqueueStep (P : Params) (rate : BitVec 17) (maxd : BitVec 16) (p : Pdu) (t : Transit) : Transit :=
  enqueue P { pdu := p, delay := (delayStep P rate maxd t.ix).1 } { t with ix := (delayStep P rate maxd t.ix).2 }

/-- The PDU as it leaves steps 2 and 3, in transit and impaired, and the next draw (43_channel.md R352 to R354). -/
def impair (P : Params) (c : Chu) (ix : Nat) (p : Pdu) : Pdu × Nat :=
  let t := tamperStep P c.rateTamper ix { p with status := .inTransit }
  corruptStep P c.rateCorrupt t.2.1 t.2.2 t.1

/-- One input PDU: loss, or the impairments and the enqueue (43_channel.md R350 to R356). -/
def transmitOne (P : Params) (c : Chu) (t : Transit) (p : Pdu) : Transit :=
  if rollOf c.rateLoss (P.draw t.ix) then { t with ix := t.ix + 1 }
  else
    let q := impair P c (t.ix + 1) p
    enqueueStep P c.rateReorder c.maxd q.1 (dupStep P c.rateDup q.1 { t with ix := q.2 })

/-- Every input PDU, first to last (43_channel.md R350, 20_memory.md R119). -/
def transmitAll (P : Params) (c : Chu) (ix : Nat) (ps : List Pdu) : Transit :=
  ps.foldl (transmitOne P c) { db := c.db, overflow := false, ix }

/-! ### CH.TRANSMIT: release and shuffle (43_channel.md R357, R358) -/

/-- The PDUs of the entries whose delay has run out (43_channel.md R357). -/
def released (db : List DbEntry) : List Pdu := (db.filter fun e => e.delay = 0).map DbEntry.pdu

/-- The other entries, their delay one less (43_channel.md R357). -/
def keptDelayed (db : List DbEntry) : List DbEntry :=
  (db.filter fun e => e.delay ≠ 0).map fun e => { e with delay := e.delay - 1 }

/-- CH.TRANSMIT for every value of the parameters (43_channel.md R350). A capacity fault undoes the whole command but
for `FAULT` (60_exceptions.md R412); the draws it took are not taken again (log 6). -/
def chTransmit (P : Params) (ps : List Pdu) (s : State) : StepResult :=
  runCommand .chTransmit (transmitOperandOk P ps)
    (fun s =>
      let t := transmitAll P s.chu s.drawIx ps
      if t.overflow then .next (raiseCapacity .chTransmit { s with drawIx := t.ix })
      else
        .next (respondOk .chTransmit (pduListRecord P (shuffleOf (released t.db) (P.draw t.ix)))
          { s with chu := { s.chu with db := keptDelayed t.db }, drawIx := t.ix + 1 }))
    s

/-- CH.TRANSMIT (43_channel.md R350). -/
def execChTransmit (ps : List Pdu) (s : State) : StepResult := chTransmit Config.params ps s

/-! ### CH.FLUSH (43_channel.md R360) -/

/-- CH.FLUSH for every value of the parameters: every entry, whatever its delay (43_channel.md R360). -/
def chFlush (P : Params) (s : State) : StepResult :=
  runCommand .chFlush true
    (fun s =>
      .next (respondOk .chFlush (pduListRecord P (shuffleOf (s.chu.db.map DbEntry.pdu) (P.draw s.drawIx)))
        { s with chu := { s.chu with db := [] }, drawIx := s.drawIx + 1 }))
    s

/-- CH.FLUSH (43_channel.md R360). -/
def execChFlush (s : State) : StepResult := chFlush Config.params s

end Sys2Proof.Machine
end

