-- ==== Sys2Proof/Machine/Crypto.lean ====
section
/-! DEFINITION. The cryptographic primitives (40_crypto.md): the keystream and the tag are parameters, everything
built from them is as the spec says. -/

namespace Sys2Proof.Machine

/-- `be32(v)`: four bytes, most significant first (00_scope.md R12). -/
def be32 (v : Word) : List Byte := [wordByte v 0, wordByte v 1, wordByte v 2, wordByte v 3]

/-- `xorb(a, b)`, byte by byte (00_scope.md R12, 20_memory.md R106). -/
def xorBytes (a b : List Byte) : List Byte := List.zipWith (· ^^^ ·) a b

/-- The keystream `KS`, of exactly `n` bytes (40_crypto.md R200). -/
def keystream (P : Params) (key : List Byte) (count : Word) (bearer : BitVec 5) (dir : BitVec 1) (n : Nat) :
    List Byte :=
  (List.range n).map (P.ksByte key count bearer dir n)

/-- `CIPHER`: encryption and decryption alike, the identity without a key (40_crypto.md R201). -/
def cipher (P : Params) (keyPresent : Bool) (key : List Byte) (count : Word) (bearer : BitVec 5) (dir : BitVec 1)
    (x : List Byte) : List Byte :=
  if keyPresent then xorBytes x (keystream P key count bearer dir x.length) else x

/-- The bytes of a tag (40_crypto.md R204). -/
def tagBytes (t : Tag) : List Byte := [t.b0, t.b1, t.b2, t.b3]

/-- `TAGMSG`: count, bearer, direction, data (40_crypto.md R203). -/
def tagMessage (count : Word) (bearer : BitVec 5) (dir : BitVec 1) (data : List Byte) : List Byte :=
  be32 count ++ [bearer.setWidth 8] ++ [dir.setWidth 8] ++ data

/-- `MACI(ikey, count, bearer, dir, data)` (40_crypto.md R204). -/
def maci (P : Params) (ikey : List Byte) (count : Word) (bearer : BitVec 5) (dir : BitVec 1) (data : List Byte) : Tag :=
  P.tag ikey (tagMessage count bearer dir data)

end Sys2Proof.Machine
end

