-- ==== Sys2Proof/Machine/Receiver.lean ====
section
/-! DEFINITION. The receiver unit: RX.CONFIG, RX.RECEIVE, RX.STATS and RX.DELIVERED (42_receiver.md). -/

namespace Sys2Proof.Machine

/-! ### RX.CONFIG (42_receiver.md R260, R262) -/

/-- RXU after a successful RX.CONFIG; the stores, the counters, `LD_SN` and `FAULT` keep their values
(42_receiver.md R260, R262). -/
def configuredRxu (P : Params) (cfg : LinkCfg) (r : Rxu) : Rxu :=
  { r with life := .ready, lcfg := cfg, neSn := P.initSn, hfnEst := P.initHfn, ldValid := false }

/-- RX.CONFIG for every value of the parameters (42_receiver.md R260). -/
def rxConfig (P : Params) (cfg : LinkCfg) (s : State) : StepResult :=
  runCommand .rxConfig (linkCfgOperandOk cfg)
    (fun s =>
      if cfgLegal P cfg then .next (respondOk .rxConfig [] { s with rxu := configuredRxu P cfg s.rxu })
      else .next (raiseConfigError .rxConfig s))
    s

/-- RX.CONFIG (42_receiver.md R260). -/
def execRxConfig (cfg : LinkCfg) (s : State) : StepResult := rxConfig Config.params cfg s

/-! ### RX.RECEIVE: steps 1 to 4 (42_receiver.md R281 to R284) -/

/-- The reference of counter reconstruction: the last delivered number if there is one, else the next expected one
(42_receiver.md R282). -/
def reference (r : Rxu) : Nat := if r.ldValid then r.ldSn.toNat else r.neSn.toNat

/-- The estimated hyper-frame number for sequence number `sn`, reference `ref` and estimate `h`, in integers, with
the thresholds as the rule writes them (42_receiver.md R282). -/
def estimateHfn (S ref h sn : Nat) : Nat :=
  if ((sn : Int) - (ref : Int)).natAbs < windowSize S then h
  else if sn < ref ∧ ref - sn > wrapThreshold S then (h + 1) % hfnMod S
  else if sn > ref ∧ sn - ref > wrapThreshold S then max (h - 1) 0
  else h

/-- `reconstruct(sn)` (42_receiver.md R282). -/
def reconstruct (r : Rxu) (sn : Word) : Word :=
  mkCount (snWidth r.lcfg)
    (BitVec.ofNat 32 (estimateHfn (snWidth r.lcfg) (reference r) r.hfnEst.toNat sn.toNat)) sn

/-- The decipher step: `none` where ciphering is enabled without a cipher key (42_receiver.md R283). -/
def decipher (P : Params) (cfg : LinkCfg) (count : Word) (payload : List Byte) : Option (List Byte) :=
  if cfg.cen then
    if cfg.ckp then some (cipher P true cfg.ckey count cfg.bearer cfg.dir payload) else none
  else some payload

/-- The verify step: the body and the `verified` value, or the discard reason (42_receiver.md R284). -/
def verify (P : Params) (cfg : LinkCfg) (count : Word) (data : List Byte) : Except Status (List Byte × Verified) :=
  if cfg.ien then
    if ¬ cfg.ikp then .error .discardedIntegrityNoKey
    else if data.length < 4 then .error .discardedIntegrityTooShort
    else
      let body := data.take (data.length - 4)
      if data.drop (data.length - 4) ≠ tagBytes (maci P cfg.ikey count cfg.bearer cfg.dir body) then
        .error .discardedIntegrityFailure
      else .ok (body, .verifiedTrue)
  else .ok (data, .notApplicable)

/-! ### RX.RECEIVE: steps 5 to 7 (42_receiver.md R285 to R287) -/

/-- Why a command stops short of its end: a capacity is exceeded (60_exceptions.md R412), or a slot does not exist
(log 12). -/
inductive Stop where
  | capacity
  | fault (f : Fault)
  deriving DecidableEq, Repr

/-- What the drain of one command has done so far: the receiver, `ndrain`, and whether it delivered the PDU of this
command (42_receiver.md R287). -/
structure Drain where
  rxu : Rxu
  ndrain : Nat
  own : Bool
  deriving DecidableEq, Repr

/-- RXU with the entry of slot `NE_SN` delivered: the body of the drain loop (42_receiver.md R287). -/
def deliverSlot (e : Slot) (rb : Memory) (r : Rxu) : Rxu :=
  let S := snWidth r.lcfg
  { r with
    rb := rb
    hfnEst :=
      if r.neSn = 0 ∧ r.ldValid = true ∧ r.ldSn.toNat = maxSn S then
        BitVec.ofNat 32 ((r.hfnEst.toNat + 1) % hfnMod S)
      else r.hfnEst
    ldValid := true
    ldSn := r.neSn
    neSn := BitVec.ofNat 32 ((r.neSn.toNat + 1) % (maxSn S + 1))
    dl := r.dl ++ [{ sduId := e.sduId, payload := e.body, count := e.count }]
    cntSuccess := bump r.cntSuccess }

/-- One iteration of the drain loop for the slot `e` at `NE_SN`, `rb` the buffer without it (42_receiver.md R287). -/
def drainOne (ownSn : Word) (e : Slot) (rb : Memory) (d : Drain) : Drain :=
  { rxu := deliverSlot e rb d.rxu, ndrain := d.ndrain + 1, own := d.own || decide (d.rxu.neSn = ownSn) }

/-- The drain loop: while slot `NE_SN` is valid, deliver it. `ownSn` is the slot that this command wrote. The
argument in front bounds the iterations; each one empties a slot, so one more than the number of valid slots is
never used up (42_receiver.md R287). -/
def drain (P : Params) (ownSn : Word) : Nat → Drain → Except Stop Drain
  | 0, d => .ok d
  | fuel + 1, d =>
    match memRead (snWidth d.rxu.lcfg) d.rxu.rb d.rxu.neSn.toNat with
    | .error f => .error (.fault f)
    | .ok none => .ok d
    | .ok (some e) =>
      match memWrite (snWidth d.rxu.lcfg) d.rxu.rb d.rxu.neSn.toNat none with
      | .error f => .error (.fault f)
      | .ok rb =>
        if atCapacity P.dlCap d.rxu.dl.length then .error .capacity else drain P ownSn fuel (drainOne ownSn e rb d)

/-- Steps 6 and 7 for a receiver whose replay cache already holds the count: insert the slot, then drain
(42_receiver.md R286, R287). An occupied slot is replaced or is a capacity fault, by `RB_COLLISION`. -/
def bufferAndDrain (P : Params) (p : Pdu) (body : List Byte) (r : Rxu) : Except Stop Drain :=
  match memRead (snWidth r.lcfg) r.rb p.sn.toNat with
  | .error f => .error (.fault f)
  | .ok old =>
    if old.isSome ∧ P.collision = .fault then .error .capacity
    else
      match memWrite (snWidth r.lcfg) r.rb p.sn.toNat (some { sduId := p.sduId, count := p.count, body }) with
      | .error f => .error (.fault f)
      | .ok rb => drain P p.sn (rb.length + 1) { rxu := { r with rb := rb }, ndrain := 0, own := false }

/-- How RX.RECEIVE ends: a discard or an acceptance, each with the receiver and the received PDU after it, or a stop
(42_receiver.md R280, R288). -/
inductive Reception where
  | discard (rxu : Rxu) (pdu : Pdu)
  | accept (rxu : Rxu) (pdu : Pdu) (ndrain : Nat)
  | stop (why : Stop)
  deriving DecidableEq, Repr

/-- `raise Discard(reason)`: the status of the PDU, and the counter of the reason (42_receiver.md R280,
60_exceptions.md R420). -/
def discard (reason : Status) (r : Rxu) (p : Pdu) : Reception :=
  .discard (countDiscard reason r) { p with status := reason }

/-- Steps 5 to 7 for a PDU whose count and `verified` are settled (42_receiver.md R285 to R288). -/
def acceptPdu (P : Params) (r : Rxu) (p : Pdu) (body : List Byte) : Reception :=
  if p.count ∈ r.rc then discard .discardedDuplicate r p
  else if atCapacity P.replayCap r.rc.length then .stop .capacity
  else
    match bufferAndDrain P p body { r with rc := CountSet.insert r.rc p.count } with
    | .error why => .stop why
    | .ok d => .accept d.rxu { p with status := if d.own then .delivered else .buffered } d.ndrain

/-- The fixed step order of RX.RECEIVE (42_receiver.md R280, 60_exceptions.md R421). -/
def receive (P : Params) (r : Rxu) (p : Pdu) : Reception :=
  if p.corrupted then discard .discardedChannelCorruption r p
  else
    let p := { p with count := reconstruct r p.sn }
    match decipher P r.lcfg p.count p.payload with
    | none => discard .discardedNoKey r p
    | some data =>
      match verify P r.lcfg p.count data with
      | .error reason => discard reason r { p with verified := .verifiedFalse }
      | .ok (body, verified) => acceptPdu P r { p with verified } body

/-- RX.RECEIVE for every value of the parameters (42_receiver.md R280). A capacity fault undoes the whole command but
for `FAULT` (60_exceptions.md R412). -/
def rxReceive (P : Params) (p : Pdu) (s : State) : StepResult :=
  runCommand .rxReceive (receiveOperandOk P s.rxu p)
    (fun s =>
      match receive P s.rxu p with
      | .discard r q => .next (respondOk .rxReceive (receiveRecord P false q 0) { s with rxu := r })
      | .accept r q n => .next (respondOk .rxReceive (receiveRecord P true q n) { s with rxu := r })
      | .stop .capacity => .next (raiseCapacity .rxReceive s)
      | .stop (.fault f) => .fault f)
    s

/-- RX.RECEIVE (42_receiver.md R280). -/
def execRxReceive (p : Pdu) (s : State) : StepResult := rxReceive Config.params p s

/-! ### RX.STATS and RX.DELIVERED (42_receiver.md R300, R305) -/

/-- RX.STATS for every value of the parameters: a snapshot, nothing written (42_receiver.md R300). -/
def rxStats (P : Params) (s : State) : StepResult :=
  runCommand .rxStats true (fun s => .next (respondOk .rxStats (statsRecord P s.rxu) s)) s

/-- RX.STATS (42_receiver.md R300). -/
def execRxStats (s : State) : StepResult := rxStats Config.params s

/-- RX.DELIVERED for every value of the parameters: the whole list, nothing written (42_receiver.md R305). -/
def rxDelivered (P : Params) (s : State) : StepResult :=
  runCommand .rxDelivered true (fun s => .next (respondOk .rxDelivered (deliveredRecord P s.rxu.dl) s)) s

/-- RX.DELIVERED (42_receiver.md R305). -/
def execRxDelivered (s : State) : StepResult := rxDelivered Config.params s

end Sys2Proof.Machine
end

