-- ==== Sys2Proof/Machine/Transmitter.lean ====
section
/-! DEFINITION. The transmitter unit: TX.CONFIG and TX.SEND (41_transmitter.md). -/

namespace Sys2Proof.Machine

/-! ### TX.CONFIG (41_transmitter.md R230 to R232) -/

/-- TXU after a successful TX.CONFIG (41_transmitter.md R230, R232). -/
def configuredTxu (P : Params) (cfg : LinkCfg) : Txu :=
  { life := .ready, lcfg := cfg, sn := P.initSn, hfn := P.initHfn }

/-- TX.CONFIG for every value of the parameters (41_transmitter.md R230). -/
def txConfig (P : Params) (cfg : LinkCfg) (s : State) : StepResult :=
  runCommand .txConfig (linkCfgOperandOk cfg)
    (fun s =>
      if cfgLegal P cfg then .next (respondOk .txConfig [] { s with txu := configuredTxu P cfg })
      else .next (raiseConfigError .txConfig s))
    s

/-- TX.CONFIG (41_transmitter.md R230). -/
def execTxConfig (cfg : LinkCfg) (s : State) : StepResult := txConfig Config.params cfg s

/-! ### TX.SEND (41_transmitter.md R240 to R246) -/

/-- The count TX.SEND assigns: the value of the counter before it advances (41_transmitter.md R241, 10_state.md
R42). -/
def txCount (t : Txu) : Word := mkCount (snWidth t.lcfg) t.hfn t.sn

/-- TXU with its counter advanced by one (41_transmitter.md R241). -/
def advanceCounter (t : Txu) : Txu :=
  if t.sn.toNat + 1 > maxSn (snWidth t.lcfg) then
    { t with sn := 0, hfn := BitVec.ofNat 32 ((t.hfn.toNat + 1) % hfnMod (snWidth t.lcfg)) }
  else { t with sn := t.sn + 1 }

/-- The integrity stage: the tag, if integrity is enabled (41_transmitter.md R242). -/
def txTag (P : Params) (t : Txu) (payload : List Byte) : Option Tag :=
  if t.lcfg.ien then some (maci P t.lcfg.ikey (txCount t) t.lcfg.bearer t.lcfg.dir payload) else none

/-- The bytes of an optional tag: none where there is no tag. -/
def optionalTagBytes : Option Tag → List Byte
  | none => []
  | some t => tagBytes t

/-- What is ciphered: the payload, then the tag if there is one (41_transmitter.md R242). -/
def txPlain (P : Params) (t : Txu) (payload : List Byte) : List Byte :=
  payload ++ optionalTagBytes (txTag P t payload)

/-- The cipher stage: the payload of the PDU (41_transmitter.md R243). -/
def txWire (P : Params) (t : Txu) (payload : List Byte) : List Byte :=
  if t.lcfg.cen then cipher P true t.lcfg.ckey (txCount t) t.lcfg.bearer t.lcfg.dir (txPlain P t payload)
  else txPlain P t payload

/-- The PDU that TX.SEND constructs (41_transmitter.md R240, R244). -/
def txPdu (P : Params) (t : Txu) (sduId : Word) (payload : List Byte) : Pdu :=
  { sduId, sn := t.sn, count := txCount t, hfn := t.hfn, payload := txWire P t payload, tag := txTag P t payload,
    corrupted := false, tampered := false, verified := .notApplicable, status := .prepared }

/-- TX.SEND for every value of the parameters (41_transmitter.md R240). -/
def txSend (P : Params) (sduId : Word) (payload : List Byte) (s : State) : StepResult :=
  runCommand .txSend (sendOperandOk P s.txu payload)
    (fun s => .next (respondOk .txSend (pduRecord P (txPdu P s.txu sduId payload))
      { s with txu := advanceCounter s.txu }))
    s

/-- TX.SEND (41_transmitter.md R240). -/
def execTxSend (sduId : Word) (payload : List Byte) (s : State) : StepResult := txSend Config.params sduId payload s

end Sys2Proof.Machine
end

