-- ==== Sys2Proof/Machine/Dispatch.lean ====
section
/-! DEFINITION. `exec`: one arm per command, one meaning per arm. -/

namespace Sys2Proof.Machine

def exec (i : Instr) (s : State) : Host.Outcome State Fault Refusal :=
  match i with
  | .txConfig cfg => Sys2Proof.Machine.execTxConfig cfg s
  | .txSend sduId payload => Sys2Proof.Machine.execTxSend sduId payload s
  | .rxConfig cfg => Sys2Proof.Machine.execRxConfig cfg s
  | .rxReceive pdu => Sys2Proof.Machine.execRxReceive pdu s
  | .rxStats => Sys2Proof.Machine.execRxStats s
  | .rxDelivered => Sys2Proof.Machine.execRxDelivered s
  | .chConfig cfg => Sys2Proof.Machine.execChConfig cfg s
  | .chTransmit pdus => Sys2Proof.Machine.execChTransmit pdus s
  | .chFlush => Sys2Proof.Machine.execChFlush s

end Sys2Proof.Machine
end

