-- ==== Sys2Proof/Machine/Step.lean ====
section
/-! DEFINITION. One step of the block: the next event, whole. -/

namespace Sys2Proof.Machine

/-- A frame on the port of unit `u`: the instruction it decodes to, or the answer to a frame that is none
(60_exceptions.md R400 to R402). -/
def runFrame (u : UnitId) (f : Frame) (s : State) : Host.Outcome State Fault Refusal :=
  match decode u f with
  | .ok i => exec i s
  | .error .illegalCommand => .next (raiseIllegal u f.cmd s)
  | .error (.badOperand op) => .next (badFrame op s)

/-- One step: the next event taken from `inbox` and executed whole (00_scope.md R7, 20_memory.md R115). With no event
left the block holds its state (60_exceptions.md R435; log 14). -/
def step (s : State) : Host.Outcome State Fault Refusal :=
  match fetch s with
  | none => .next s
  | some (.reset u, s') => .next (resetUnit u s')
  | some (.frame u f, s') => runFrame u f s'

/-- `s` with the frame of the instruction whose `nbits` bits are `w` as the next event, on the port its `UNIT` field
names (logs 1, 16). -/
def State.withFetchWord (s : State) (nbits w : Nat) : State :=
  { s with inbox := .frame (tablePort w) (tableFrame nbits w) :: s.inbox }

end Sys2Proof.Machine
end

