-- ==== Sys2Proof/Safety.lean ====
section
/-! DEFINITION. The terms claims are stated in: when a unit takes a command, the invariants of the three units, what a
CH.TRANSMIT may do with a PDU, and what a safe run is. -/

namespace Sys2Proof.Machine

/-- The unit is configured and not faulted: its commands pass the lifecycle and `FAULT` checks of the prologue
(60_exceptions.md R400). -/
def State.accepts (s : State) (u : UnitId) : Prop := s.lifeOf u = .ready ∧ s.faultOf u = false

/-- The configuration that a successful TX.CONFIG or RX.CONFIG leaves (41_transmitter.md R231). -/
def legalLink (P : Params) (cfg : LinkCfg) : Prop := cfgLegal P cfg = true ∧ cfg.keysOk = true

/-- TXU's invariant: at reset values until it is configured; then a legal configuration, `SN ≤ MAX_SN` and
`HFN < HFN_MOD` (10_state.md R32, R40, R41, R90). -/
structure Txu.Inv (P : Params) (t : Txu) : Prop where
  idle : t.life ≠ .ready → t = { resetTxu with life := t.life }
  legal : t.life = .ready → legalLink P t.lcfg
  snBound : t.life = .ready → t.sn.toNat ≤ maxSn (snWidth t.lcfg)
  hfnBound : t.life = .ready → t.hfn.toNat < hfnMod (snWidth t.lcfg)

/-- RXU's registers and stores keep their forms: at reset values until it is configured; then a legal configuration,
`NE_SN ≤ MAX_SN`, `HFN_EST < HFN_MOD`, `NE_SN` the successor of `LD_SN`, `RB` and `RC` canonical, every valid slot in
the index space, and slot `NE_SN` empty between commands (10_state.md R50 to R53, R90, 42_receiver.md R286, R287). -/
structure Rxu.WindowInv (P : Params) (r : Rxu) : Prop where
  idle : r.life ≠ .ready → r = { resetRxu with life := r.life }
  legal : r.life = .ready → legalLink P r.lcfg
  neBound : r.life = .ready → r.neSn.toNat ≤ maxSn (snWidth r.lcfg)
  hfnBound : r.life = .ready → r.hfnEst.toNat < hfnMod (snWidth r.lcfg)
  ldBound : r.life = .ready → r.ldValid = true → r.ldSn.toNat ≤ maxSn (snWidth r.lcfg)
  successor : r.life = .ready → r.ldValid = true →
    r.neSn.toNat = (r.ldSn.toNat + 1) % 2 ^ snWidth r.lcfg
  rbForm : Memory.wf r.rb
  rbRange : ∀ x ∈ r.rb, x.1 ≤ maxSn (snWidth r.lcfg)
  headEmpty : Memory.find r.rb r.neSn.toNat = none
  rcForm : CountSet.wf r.rc

/-- RXU's accounts: every buffered or delivered count is in the replay cache, no count is buffered or delivered
twice, a slot's count ends in its index, deliveries follow one another by one in the sequence number, `CNT_SUCCESS`
counts them, `CNT_OLD` is 0, and no capacity is exceeded (10_state.md R54 to R56, R59, 20_memory.md R118,
42_receiver.md R285 to R287, R300). -/
structure Rxu.LedgerInv (P : Params) (r : Rxu) : Prop where
  bufferedSeen : ∀ x ∈ r.rb, x.2.count ∈ r.rc
  deliveredSeen : ∀ e ∈ r.dl, e.count ∈ r.rc
  onceOnly : (r.dl.map DlEntry.count ++ r.rb.map fun x => x.2.count).Nodup
  slotCount : ∀ x ∈ r.rb, x.2.count.toNat % 2 ^ snWidth r.lcfg = x.1
  inSequence : r.dl.IsChain fun a b =>
    b.count.toNat % 2 ^ snWidth r.lcfg = (a.count.toNat + 1) % 2 ^ snWidth r.lcfg
  lastDelivered : ∀ e, r.dl.getLast? = some e →
    r.ldValid = true ∧ e.count.toNat % 2 ^ snWidth r.lcfg = r.ldSn.toNat
  success : r.cntSuccess = BitVec.ofNat 32 r.dl.length
  noOld : r.cntOld = 0
  rcRoom : withinLimit P.replayCap r.rc.length = true
  dlRoom : withinLimit P.dlCap r.dl.length = true

/-- CHU's invariant: at reset values until it is configured; then legal rates, every buffered delay below `MAXD`, and
no more entries than `DB_CAP` (10_state.md R65, R66, R68, R90, 43_channel.md R335, R357). -/
structure Chu.Inv (P : Params) (c : Chu) : Prop where
  idle : c.life ≠ .ready → c = { resetChu with life := c.life }
  lossBound : c.rateLoss.toNat ≤ 65536
  dupBound : c.rateDup.toNat ≤ 65536
  reorderBound : c.rateReorder.toNat ≤ 65536
  corruptBound : c.rateCorrupt.toNat ≤ 65536
  tamperBound : c.rateTamper.toNat ≤ 65536
  delays : ∀ e ∈ c.db, e.delay.toNat < c.maxd.toNat
  dbRoom : withinLimit P.dbCap c.db.length = true

/-- The invariant of the block: those of its units. -/
structure State.Inv (s : State) : Prop where
  txu : s.txu.Inv Config.params
  window : s.rxu.WindowInv Config.params
  ledger : s.rxu.LedgerInv Config.params
  chu : s.chu.Inv Config.params

/-- A run from `s` is safe: no number of steps ends in a fault or a refusal. -/
def State.Safe (s : State) : Prop := ∀ n, ∃ s' : State, Sys2Proof.core.run n s = Host.Outcome.next s'

/-- Commands executed one after another, to the first that stops. -/
def execAll : List Instr → State → StepResult
  | [], s => .next s
  | i :: is, s =>
    match exec i s with
    | .next s' => execAll is s'
    | .fault f => .fault f
    | .refused r => .refused r

/-- `exec` for every value of the parameters: the machine is the one at `Config.params` (`execAt_params`). -/
def execAt (P : Params) : Instr → State → StepResult
  | .txConfig cfg, s => txConfig P cfg s
  | .txSend sduId payload, s => txSend P sduId payload s
  | .rxConfig cfg, s => rxConfig P cfg s
  | .rxReceive pdu, s => rxReceive P pdu s
  | .rxStats, s => rxStats P s
  | .rxDelivered, s => rxDelivered P s
  | .chConfig cfg, s => execChConfig cfg s
  | .chTransmit pdus, s => chTransmit P pdus s
  | .chFlush, s => chFlush P s

/-- What steps 2 and 3 of a CH.TRANSMIT may make of the input PDU `p` at the rates of `c`: its status `IN_TRANSIT`, and
then a tamper, or a corruption, or neither, never both (43_channel.md R352 to R354). -/
def Impaired (c : Chu) (p q : Pdu) : Prop :=
  (c.rateTamper ≠ 65536 ∧ c.rateCorrupt ≠ 65536 ∧ q = { p with status := .inTransit }) ∨
  (c.rateTamper ≠ 0 ∧ ∃ raw, q = tamperPdu raw { p with status := .inTransit }) ∨
  (c.rateTamper ≠ 65536 ∧ c.rateCorrupt ≠ 0 ∧ ∃ raw, q = corruptPdu raw { p with status := .inTransit })

/-- The entries that steps 4 to 6 of a CH.TRANSMIT may append for the PDU `q` at the rates of `c`: a clone with delay 0 or
none, then `q` with its own delay (43_channel.md R355, R356). -/
def EnqueuedAs (c : Chu) (q : Pdu) (entries : List DbEntry) : Prop :=
  ∃ (cloned : Bool) (delay : BitVec 16),
    entries = (if cloned then [{ pdu := q, delay := 0 }] else []) ++ [{ pdu := q, delay }] ∧
    (c.rateDup = 0 → cloned = false) ∧ (c.rateDup = 65536 → cloned = true) ∧
    (c.rateReorder = 0 ∨ c.maxd = 0 → delay = 0) ∧ (c.rateReorder = 65536 → c.maxd ≠ 0 → delay ≠ 0) ∧
    delay.toNat ≤ c.maxd.toNat

/-- The entries that a CH.TRANSMIT may append for the input PDU `p` at the rates of `c`: none where it is lost, else those
of the impaired PDU (43_channel.md R350, R351). -/
def ChannelFate (c : Chu) (p : Pdu) (entries : List DbEntry) : Prop :=
  (c.rateLoss ≠ 0 ∧ entries = []) ∨ (c.rateLoss ≠ 65536 ∧ ∃ q, Impaired c p q ∧ EnqueuedAs c q entries)

/-- The transmitter and the receiver are in step: configured alike, nothing buffered, the receiver expecting the
number the transmitter will assign, and its estimate the hyper-frame number that goes with it, one behind where the
number is 0 and the wrap is still to be delivered (42_receiver.md R282, R287, 70_reset_and_hazards.md R455, R456). -/
structure InStep (t : Txu) (r : Rxu) : Prop where
  sameLink : r.lcfg = t.lcfg
  nothingBuffered : r.rb = []
  sameSn : r.neSn = t.sn
  sameHfn : t.hfn.toNat =
    if t.sn = 0 ∧ r.ldValid = true then (r.hfnEst.toNat + 1) % hfnMod (snWidth t.lcfg) else r.hfnEst.toNat

end Sys2Proof.Machine
end

