-- ==== Sys2Proof/Certificates/Slice0/Obligations.lean ====
section
/-! DEFINITION. The statements for the provers, each a proposition about the machine. A statement that needs room in a
store, a payload within `MAX_PAYLOAD` or a chosen `RB_COLLISION` speaks of every parameter value `P`, and of `exec`
where `P` is the machine's own (`Config.params`). In every statement that names a response record (`pduRecord`,
`pduListRecord`, `countWord`) the word for a count or a length that 32 bits cannot hold is the model's choice (log 11):
a free value, which no statement says anything of. -/

open Sys2Proof Sys2Proof.Machine

/-! ### Encoding (30_encoding.md) -/

/-- The opcode map, whole: on the port of a unit the nine command words of the map decode, each to its operation, and no
other word does (30_encoding.md R143, R144). -/
def Obligations.OpcodeMapDecodes : Prop :=
  ∀ (u : UnitId) (w : Word) (op : Op), decodeOp u w = some op ↔
    (u = .txu ∧ ((w = 0x10000000 ∧ op = .txConfig) ∨ (w = 0x11000000 ∧ op = .txSend))) ∨
    (u = .rxu ∧ ((w = 0x20000000 ∧ op = .rxConfig) ∨ (w = 0x21000000 ∧ op = .rxReceive) ∨
      (w = 0x22000000 ∧ op = .rxStats) ∨ (w = 0x23000000 ∧ op = .rxDelivered))) ∨
    (u = .chu ∧ ((w = 0x30000000 ∧ op = .chConfig) ∨ (w = 0x31000000 ∧ op = .chTransmit) ∨
      (w = 0x32000000 ∧ op = .chFlush)))

/-- A frame is illegal exactly when a reserved bit of its command word is set, its `UNIT` is not the port's unit, or
its `FUNC` has no row; and then it is answered `ILLEGAL_COMMAND` and nothing else changes, whatever the operands and
the state (30_encoding.md R144, R145, 60_exceptions.md R401). -/
def Obligations.IllegalCommandExactly : Prop :=
  (∀ (u : UnitId) (w : Word) (ops : List Word),
    decode u { cmd := w, operands := ops } = .error .illegalCommand ↔
      w.extractLsb' 0 24 ≠ 0 ∨
      (u = .txu ∧ (w.extractLsb' 28 4 ≠ 1 ∨ 2 ≤ (w.extractLsb' 24 4).toNat)) ∨
      (u = .rxu ∧ (w.extractLsb' 28 4 ≠ 2 ∨ 4 ≤ (w.extractLsb' 24 4).toNat)) ∨
      (u = .chu ∧ (w.extractLsb' 28 4 ≠ 3 ∨ 3 ≤ (w.extractLsb' 24 4).toNat))) ∧
  (∀ (s : State) (u : UnitId) (f : Frame) (rest : List Event),
    s.inbox = .frame u f :: rest → decode u f = .error .illegalCommand →
    step s = .next { s with
      inbox := rest
      outbox := s.outbox ++ [{ port := u, words := [f.cmd.extractLsb' 24 8 ++ (1 : BitVec 8) ++ (0 : BitVec 16)] }] })

/-- A step whose next event is a frame that decodes to an instruction takes the event and is `exec` of that
instruction; a step whose next event is a reset takes the event and resets that unit (30_encoding.md R140,
20_memory.md R115, 70_reset_and_hazards.md R450; the list of events is the model's, log 1). -/
def Obligations.StepRunsDecodedInstruction : Prop :=
  (∀ (s : State) (u : UnitId) (f : Frame) (i : Instr) (rest : List Event),
    s.inbox = .frame u f :: rest → decode u f = .ok i → step s = exec i { s with inbox := rest }) ∧
  (∀ (s : State) (u : UnitId) (rest : List Event),
    s.inbox = .reset u :: rest → step s = .next (resetUnit u { s with inbox := rest }))

/-- Decoding the frame of a well-formed instruction gives it back (30_encoding.md R143, R146, R150 to R155). -/
def Obligations.DecodeOfEncode : Prop :=
  ∀ i : Instr, i.wellFormed = true → decode i.op.unit (encode i) = .ok i

/-- Every frame that decodes is the frame of the instruction it decodes to, on that instruction's port, and the
instruction is well formed: no bit of a frame is dropped (30_encoding.md R143 to R155). -/
def Obligations.EncodeOfDecode : Prop :=
  ∀ (u : UnitId) (f : Frame) (i : Instr),
    decode u f = .ok i → i.op.unit = u ∧ encode i = f ∧ i.wellFormed = true

/-- Frames written out from the encoding tables decode to the instructions they stand for (30_encoding.md R150 to
R155, 95_test_vectors.md P1, P3). -/
def Obligations.WrittenFramesDecode : Prop :=
  decode .txu { cmd := 0x11000000, operands := [0, 1, 0x41000000] } = .ok (.txSend 0 [0x41]) ∧
  decode .rxu { cmd := 0x21000000, operands := [4, 0, 4, 1, 0x00000412, 0x201D0F5D, 1, 0x45000000] } =
    .ok (.rxReceive
      { sduId := 4, sn := 0, count := 4, hfn := 1, payload := [0x45],
        tag := some { b0 := 0x20, b1 := 0x1D, b2 := 0x0F, b3 := 0x5D }, corrupted := false, tampered := true,
        verified := .notApplicable, status := .tampered }) ∧
  decode .chu { cmd := 0x30000000, operands := [0, 0, 0x00010000, 0, 0, 1, 7] } =
    .ok (.chConfig { loss := 0, dup := 0, reorder := 65536, corrupt := 0, tamper := 0, maxd := 1, seed := 7 }) ∧
  decode .rxu { cmd := 0x22000000, operands := [] } = .ok .rxStats

/-- Which operand records decode, for every command but RX.RECEIVE and CH.TRANSMIT: the number of words, the reserved
bits of the `CFG` word and of the words of CH.CONFIG, and the length and the pad bytes of TX.SEND (30_encoding.md R146,
R152 to R155). -/
def Obligations.OperandRecordsExactly : Prop :=
  ∀ ops : List Word,
    ((∃ cfg, decode .txu { cmd := 0x10000000, operands := ops } = .ok (.txConfig cfg)) ↔
      ops.length = 9 ∧ ∀ w, ops.head? = some w → w.extractLsb' 15 17 = 0) ∧
    ((∃ cfg, decode .rxu { cmd := 0x20000000, operands := ops } = .ok (.rxConfig cfg)) ↔
      ops.length = 9 ∧ ∀ w, ops.head? = some w → w.extractLsb' 15 17 = 0) ∧
    ((∃ cfg, decode .chu { cmd := 0x30000000, operands := ops } = .ok (.chConfig cfg)) ↔
      ops.length = 7 ∧ (∀ k < 5, ∀ w, ops[k]? = some w → w.extractLsb' 17 15 = 0) ∧
        ∀ w, ops[5]? = some w → w.extractLsb' 16 16 = 0) ∧
    (decode .rxu { cmd := 0x22000000, operands := ops } = .ok .rxStats ↔ ops = []) ∧
    (decode .rxu { cmd := 0x23000000, operands := ops } = .ok .rxDelivered ↔ ops = []) ∧
    (decode .chu { cmd := 0x32000000, operands := ops } = .ok .chFlush ↔ ops = []) ∧
    ((∃ sduId payload, decode .txu { cmd := 0x11000000, operands := ops } = .ok (.txSend sduId payload)) ↔
      ∃ (sduId len : Word) (words : List Word), ops = sduId :: len :: words ∧ words.length = (len.toNat + 3) / 4 ∧
        ∀ last, words.getLast? = some last → last.toNat % 2 ^ (8 * ((4 - len.toNat % 4) % 4)) = 0)

/-- PDU descriptors: an accepting RXU answers RX.RECEIVE with `BAD_OPERAND`, and changes nothing, exactly when the record
is not one well-formed descriptor with `SN ≤ MAX_SN`; an accepting CHU answers CH.TRANSMIT so exactly when the record
is not `N` and `N` well-formed descriptors. Well formed says the number of words, the reserved bits, `VERIFIED`,
`STATUS`, an absent tag's word, `MAX_PAYLOAD` and the pad bytes (30_encoding.md R151). -/
def Obligations.DescriptorsExactly : Prop :=
  let descriptor : List Word → Prop := fun ws =>
    ∃ (sduId sn count hfn flags tag len : Word) (words : List Word),
      ws = [sduId, sn, count, hfn, flags, tag, len] ++ words ∧ words.length = (len.toNat + 3) / 4 ∧
      flags.extractLsb' 5 3 = 0 ∧ flags.extractLsb' 12 20 = 0 ∧ flags.extractLsb' 2 2 ≠ 3 ∧
      (flags.extractLsb' 8 4).toNat ≤ 12 ∧ (flags.getLsbD 4 = false → tag = 0) ∧
      (∀ m, Config.maxPayload = some m → len.toNat ≤ m) ∧
      ∀ last, words.getLast? = some last → last.toNat % 2 ^ (8 * ((4 - len.toNat % 4) % 4)) = 0
  (∀ (s : State) (ops : List Word) (rest : List Event), s.accepts .rxu →
    s.inbox = .frame .rxu { cmd := 0x21000000, operands := ops } :: rest →
    (step s = .next { s with
        inbox := rest
        outbox := s.outbox ++ [{ port := .rxu, words := [0x21020000] }] } ↔
      ¬ (descriptor ops ∧ ∀ sn, ops[1]? = some sn → sn.toNat ≤ 2 ^ s.rxu.lcfg.snbits.toNat - 1))) ∧
  (∀ (s : State) (ops : List Word) (rest : List Event), s.accepts .chu →
    s.inbox = .frame .chu { cmd := 0x31000000, operands := ops } :: rest →
    (step s = .next { s with
        inbox := rest
        outbox := s.outbox ++ [{ port := .chu, words := [0x31020000] }] } ↔
      ¬ ∃ (n : Word) (ds : List (List Word)), ops = n :: ds.flatten ∧ ds.length = n.toNat ∧ ∀ d ∈ ds, descriptor d))

/-! ### The prologue and the lifecycle (60_exceptions.md R400 to R412) -/

/-- A command that its unit's `LIFE` or `FAULT` turns away is answered with the code of the first check that fails and
changes nothing else, whatever the operands: a frame whose command word names it, and `exec` of the instruction
(60_exceptions.md R400, R403, R404, R412). -/
def Obligations.PrologueTurnsAway : Prop :=
  ∀ (op : Op) (s : State) (code : BitVec 8),
    (if s.lifeOf op.unit = .cfgError then some (5 : BitVec 8)
      else if op.isConfig = true ∧ s.lifeOf op.unit = .ready then some 4
      else if op.isConfig = false ∧ s.lifeOf op.unit = .unconfigured then some 3
      else if s.faultOf op.unit = true then some 6
      else none) = some code →
    (∀ (u : UnitId) (f : Frame) (rest : List Event),
      s.inbox = .frame u f :: rest → decodeOp u f.cmd = some op →
      step s = .next { s with
        inbox := rest
        outbox := s.outbox ++
          [{ port := u, words := [f.cmd.extractLsb' 24 8 ++ code ++ (0 : BitVec 16)] }] }) ∧
    (∀ i : Instr, i.op = op →
      exec i s = .next { s with
        outbox := s.outbox ++
          [{ port := op.unit, words := [op.word.extractLsb' 24 8 ++ code ++ (0 : BitVec 16)] }] })

/-- A frame whose operand record is not well formed is answered with the code of the first check that fails,
`BAD_OPERAND` where every other check passes, and changes nothing else (60_exceptions.md R400, R402). -/
def Obligations.BadFramesAnswered : Prop :=
  ∀ (s : State) (u : UnitId) (f : Frame) (op : Op) (rest : List Event),
    s.inbox = .frame u f :: rest → decode u f = .error (.badOperand op) →
    op.unit = u ∧
    step s = .next { s with
      inbox := rest
      outbox := s.outbox ++
        [{ port := u,
           words := [f.cmd.extractLsb' 24 8 ++
             (if s.lifeOf u = .cfgError then (5 : BitVec 8)
               else if op.isConfig = true ∧ s.lifeOf u = .ready then 4
               else if op.isConfig = false ∧ s.lifeOf u = .unconfigured then 3
               else if s.faultOf u = true then 6
               else 2) ++ (0 : BitVec 16)] }] }

/-- Only the reset of a unit clears its `FAULT` (10_state.md R60, R69, 60_exceptions.md R412). -/
def Obligations.OnlyResetClearsFault : Prop :=
  ∀ (s s' : State) (u : UnitId), step s = .next s' → s.faultOf u = true → s'.faultOf u = false →
    s.inbox.head? = some (.reset u)

/-- `LIFE` and the configuration registers of a unit (`LCFG`; the rates, `MAXD` and `SEED` of CHU) change only by the unit's
reset, which leaves `LIFE` at `UNCONFIGURED`, or by its configuration command while `LIFE` is `UNCONFIGURED`
(10_state.md R31, R32, R65 to R67). -/
def Obligations.LifeMovesOnlyByConfigAndReset : Prop :=
  ∀ (s s' : State) (u : UnitId), step s = .next s' →
    (s'.lifeOf u ≠ s.lifeOf u ∨ (u = .txu ∧ s'.txu.lcfg ≠ s.txu.lcfg) ∨ (u = .rxu ∧ s'.rxu.lcfg ≠ s.rxu.lcfg) ∨
      (u = .chu ∧ (s'.chu.rateLoss ≠ s.chu.rateLoss ∨ s'.chu.rateDup ≠ s.chu.rateDup ∨
        s'.chu.rateReorder ≠ s.chu.rateReorder ∨ s'.chu.rateCorrupt ≠ s.chu.rateCorrupt ∨
        s'.chu.rateTamper ≠ s.chu.rateTamper ∨ s'.chu.maxd ≠ s.chu.maxd ∨ s'.chu.seed ≠ s.chu.seed))) →
    (s.inbox.head? = some (.reset u) ∧ s'.lifeOf u = .unconfigured) ∨
    (s.lifeOf u = .unconfigured ∧
      ∃ (f : Frame) (i : Instr), s.inbox.head? = some (.frame u f) ∧ decode u f = .ok i ∧ i.op.isConfig = true)

/-! ### Configuration (41_transmitter.md R230 to R232, 42_receiver.md R260, R262, 43_channel.md R340) -/

/-- TX.CONFIG of an unconfigured TXU, for every value of `INIT_SN` and `INIT_HFN`: a record that meets the five conditions
of legality configures it with both counters at these values; one that fails any of them moves `LIFE` to `CFG_ERROR` and
changes nothing else (41_transmitter.md R230 to R232, 60_exceptions.md R405). -/
def Obligations.TxConfigResult : Prop :=
  ∀ (P : Params) (s : State) (cfg : LinkCfg), s.txu.life = .unconfigured →
    cfg.ikey.length = 16 → cfg.ckey.length = 16 →
    let done : State := { s with
      txu := { life := .ready, lcfg := cfg, sn := P.initSn, hfn := P.initHfn }
      outbox := s.outbox ++ [{ port := .txu, words := [0x10000000] }] }
    let failed : State := { s with
      txu := { s.txu with life := .cfgError }
      outbox := s.outbox ++ [{ port := .txu, words := [0x10050000] }] }
    ((cfg.ien = true → cfg.ikp = true) ∧ (cfg.cen = true → cfg.ckp = true) ∧ 1 ≤ cfg.snbits.toNat ∧
        P.initSn.toNat ≤ 2 ^ cfg.snbits.toNat - 1 ∧ P.initHfn.toNat < 2 ^ (32 - cfg.snbits.toNat) →
      txConfig P cfg s = .next done ∧ (P = Config.params → exec (.txConfig cfg) s = .next done)) ∧
    ((cfg.ien = true ∧ cfg.ikp = false) ∨ (cfg.cen = true ∧ cfg.ckp = false) ∨ cfg.snbits = 0 ∨
        2 ^ cfg.snbits.toNat - 1 < P.initSn.toNat ∨ 2 ^ (32 - cfg.snbits.toNat) ≤ P.initHfn.toNat →
      txConfig P cfg s = .next failed ∧ (P = Config.params → exec (.txConfig cfg) s = .next failed))

/-- RX.CONFIG of an unconfigured RXU whose `FAULT` is 0, for every value of `INIT_SN` and `INIT_HFN`: a record that meets
the five conditions of legality configures it with `NE_SN` and `HFN_EST` at these values and nothing delivered yet, and
leaves the stores and the counters; one that fails any of them moves `LIFE` to `CFG_ERROR` and changes nothing else
(42_receiver.md R260, R262, 41_transmitter.md R231, 60_exceptions.md R405). -/
def Obligations.RxConfigResult : Prop :=
  ∀ (P : Params) (s : State) (cfg : LinkCfg), s.rxu.life = .unconfigured → s.rxu.fault = false →
    cfg.ikey.length = 16 → cfg.ckey.length = 16 →
    let done : State := { s with
      rxu := { s.rxu with life := .ready, lcfg := cfg, neSn := P.initSn, hfnEst := P.initHfn, ldValid := false }
      outbox := s.outbox ++ [{ port := .rxu, words := [0x20000000] }] }
    let failed : State := { s with
      rxu := { s.rxu with life := .cfgError }
      outbox := s.outbox ++ [{ port := .rxu, words := [0x20050000] }] }
    ((cfg.ien = true → cfg.ikp = true) ∧ (cfg.cen = true → cfg.ckp = true) ∧ 1 ≤ cfg.snbits.toNat ∧
        P.initSn.toNat ≤ 2 ^ cfg.snbits.toNat - 1 ∧ P.initHfn.toNat < 2 ^ (32 - cfg.snbits.toNat) →
      rxConfig P cfg s = .next done ∧ (P = Config.params → exec (.rxConfig cfg) s = .next done)) ∧
    ((cfg.ien = true ∧ cfg.ikp = false) ∨ (cfg.cen = true ∧ cfg.ckp = false) ∨ cfg.snbits = 0 ∨
        2 ^ cfg.snbits.toNat - 1 < P.initSn.toNat ∨ 2 ^ (32 - cfg.snbits.toNat) ≤ P.initHfn.toNat →
      rxConfig P cfg s = .next failed ∧ (P = Config.params → exec (.rxConfig cfg) s = .next failed))

/-- CH.CONFIG of an unconfigured CHU whose `FAULT` is 0: rates of at most 65536 are taken with `MAXD` and `SEED`; a
rate above 65536 moves `LIFE` to `CFG_ERROR` and changes nothing else (43_channel.md R340, 60_exceptions.md R405). -/
def Obligations.ChConfigResult : Prop :=
  ∀ (s : State) (cfg : ChannelCfg), s.chu.life = .unconfigured → s.chu.fault = false →
    (cfg.loss.toNat ≤ 65536 ∧ cfg.dup.toNat ≤ 65536 ∧ cfg.reorder.toNat ≤ 65536 ∧ cfg.corrupt.toNat ≤ 65536 ∧
        cfg.tamper.toNat ≤ 65536 →
      exec (.chConfig cfg) s = .next { s with
        chu := { life := .ready, rateLoss := cfg.loss, rateDup := cfg.dup, rateReorder := cfg.reorder,
                 rateCorrupt := cfg.corrupt, rateTamper := cfg.tamper, maxd := cfg.maxd, seed := cfg.seed,
                 db := s.chu.db, fault := false }
        outbox := s.outbox ++ [{ port := .chu, words := [0x30000000] }] }) ∧
    (65536 < cfg.loss.toNat ∨ 65536 < cfg.dup.toNat ∨ 65536 < cfg.reorder.toNat ∨ 65536 < cfg.corrupt.toNat ∨
        65536 < cfg.tamper.toNat →
      exec (.chConfig cfg) s = .next { s with
        chu := { s.chu with life := .cfgError }
        outbox := s.outbox ++ [{ port := .chu, words := [0x30050000] }] })

/-! ### The transmitter (41_transmitter.md R240 to R246) -/

/-- TX.SEND on a configured TXU: the PDU it answers and the counter it leaves, step by step; nothing but `SN`, `HFN`
and the response changes (41_transmitter.md R240 to R244; what stands in the response's length word for a length that
32 bits cannot hold is the model's choice, log 11). -/
def Obligations.TxSendResult : Prop :=
  ∀ (s : State) (sduId : Word) (payload : List Byte), s.txu.life = .ready → s.txu.Inv Config.params →
    payload.length < 2 ^ 32 →
    (∀ m, Config.maxPayload = some m → payload.length + (if s.txu.lcfg.ien = true then 4 else 0) ≤ m) →
    ∃ (t : State) (p : Pdu),
      exec (.txSend sduId payload) s = .next t ∧
      t = { s with
        txu := { s.txu with sn := t.txu.sn, hfn := t.txu.hfn }
        outbox := s.outbox ++ [{ port := .txu, words := 0x11000000 :: pduRecord Config.params p }] } ∧
      (if s.txu.sn.toNat + 1 > 2 ^ s.txu.lcfg.snbits.toNat - 1 then
        t.txu.sn = 0 ∧ t.txu.hfn.toNat = (s.txu.hfn.toNat + 1) % 2 ^ (32 - s.txu.lcfg.snbits.toNat)
      else t.txu.sn.toNat = s.txu.sn.toNat + 1 ∧ t.txu.hfn = s.txu.hfn) ∧
      p.sduId = sduId ∧ p.sn = s.txu.sn ∧ p.hfn = s.txu.hfn ∧
      p.count.toNat = s.txu.hfn.toNat * 2 ^ s.txu.lcfg.snbits.toNat + s.txu.sn.toNat ∧
      p.tag = (if s.txu.lcfg.ien = true then
        some (maci Config.params s.txu.lcfg.ikey p.count s.txu.lcfg.bearer s.txu.lcfg.dir payload) else none) ∧
      p.payload = (
        let toCipher := payload ++ (p.tag.map tagBytes).getD []
        if s.txu.lcfg.cen = true then
          cipher Config.params true s.txu.lcfg.ckey p.count s.txu.lcfg.bearer s.txu.lcfg.dir toCipher
        else toCipher) ∧
      p.payload.length = payload.length + (if s.txu.lcfg.ien = true then 4 else 0) ∧
      p.corrupted = false ∧ p.tampered = false ∧ p.verified = .notApplicable ∧ p.status = .prepared

/-- The counts of successive TX.SENDs are consecutive modulo 2^32, and each PDU's `SN` and `HFN` are its count's low
`S` bits and the rest, from any counter the invariant admits (41_transmitter.md R245, which the spec marks "derived"
from R241; where the count starts is `TxConfigResult`). -/
def Obligations.CountSequence : Prop :=
  ∀ (s : State) (sends : List (Word × List Byte)), s.txu.life = .ready → s.txu.Inv Config.params →
    (∀ x ∈ sends, sendOperandOk Config.params s.txu x.2 = true) →
    ∃ t : State, execAll (sends.map fun x => .txSend x.1 x.2) s = .next t ∧
      t.outbox.length = s.outbox.length + sends.length ∧
      ∀ k < sends.length, ∃ words : List Word,
        t.outbox[s.outbox.length + k]? = some { port := .txu, words } ∧
        ∃ sn count hfn : Word, words[2]? = some sn ∧ words[3]? = some count ∧ words[4]? = some hfn ∧
          count.toNat = (s.txu.hfn.toNat * 2 ^ s.txu.lcfg.snbits.toNat + s.txu.sn.toNat + k) % 2 ^ 32 ∧
          sn.toNat = count.toNat % 2 ^ s.txu.lcfg.snbits.toNat ∧
          hfn.toNat = count.toNat / 2 ^ s.txu.lcfg.snbits.toNat

/-- A payload for which TX.SEND would build a PDU payload above `MAX_PAYLOAD` is a bad operand and changes nothing
(30_encoding.md R152, 60_exceptions.md R402). -/
def Obligations.SendTooLongRefused : Prop :=
  ∀ (P : Params) (s : State) (sduId : Word) (payload : List Byte) (m : Nat), P.maxPayload = some m →
    m < payload.length + (if s.txu.lcfg.ien = true then 4 else 0) → s.txu.life = .ready →
    txSend P sduId payload s =
      .next { s with outbox := s.outbox ++ [{ port := .txu, words := [0x11020000] }] } ∧
    (P = Config.params → exec (.txSend sduId payload) s =
      .next { s with outbox := s.outbox ++ [{ port := .txu, words := [0x11020000] }] })

/-! ### The cryptographic primitives (40_crypto.md) -/

/-- Ciphering twice with one key, count, bearer and direction gives the string back, and ciphering keeps the length
(40_crypto.md R202, which the spec marks "derived" from its rules R200 and R201). -/
def Obligations.CipherInvolution : Prop :=
  ∀ (P : Params) (keyPresent : Bool) (key : List Byte) (count : Word) (bearer : BitVec 5) (dir : BitVec 1)
    (x : List Byte),
    cipher P keyPresent key count bearer dir (cipher P keyPresent key count bearer dir x) = x ∧
    (cipher P keyPresent key count bearer dir x).length = x.length

/-- The tag message is the count's four bytes, most significant first, then the bearer, the direction and the data
(40_crypto.md R203, 20_memory.md R107). -/
def Obligations.TagMessageLayout : Prop :=
  ∀ (count : Word) (bearer : BitVec 5) (dir : BitVec 1) (data : List Byte),
    ∃ b0 b1 b2 b3 b4 b5 : Byte, tagMessage count bearer dir data = b0 :: b1 :: b2 :: b3 :: b4 :: b5 :: data ∧
      count.toNat = b0.toNat * 2 ^ 24 + b1.toNat * 2 ^ 16 + b2.toNat * 2 ^ 8 + b3.toNat ∧
      b4.toNat = bearer.toNat ∧ b5.toNat = dir.toNat

/-! ### The receiver (42_receiver.md) -/

/-- Counter reconstruction, in integers, with the thresholds of the rule; and its last case is reached exactly at
distance `W` from the reference (42_receiver.md R282; the last clause is one that R282 marks "derived" from R282 and
R9). -/
def Obligations.ReconstructionRule : Prop :=
  ∀ (P : Params) (r : Rxu) (sn : Word), r.WindowInv P → r.life = .ready →
    sn.toNat ≤ 2 ^ r.lcfg.snbits.toNat - 1 →
    let S := r.lcfg.snbits.toNat
    let ref : Int := if r.ldValid = true then r.ldSn.toNat else r.neSn.toNat
    let h : Int := r.hfnEst.toNat
    let W : Int := 2 ^ (S - 1)
    let T : Int := (2 ^ S - 1) - W + 1
    let n : Int := sn.toNat
    let eh : Int :=
      if |n - ref| < W then h
      else if n < ref ∧ ref - n > T then (h + 1) % 2 ^ (32 - S)
      else if n > ref ∧ n - ref > T then max (h - 1) 0
      else h
    ((reconstruct r sn).toNat : Int) = eh * 2 ^ S + n ∧
    (¬ |n - ref| < W ∧ ¬ (n < ref ∧ ref - n > T) ∧ ¬ (n > ref ∧ n - ref > T) ↔ |n - ref| = W)

/-- A PDU with the `corrupted` flag is discarded as channel corruption, its count and `verified` returned as they
came, and no register of RXU changes (42_receiver.md R281). -/
def Obligations.CorruptedIsDiscarded : Prop :=
  ∀ (s : State) (p : Pdu), s.accepts .rxu → receiveOperandOk Config.params s.rxu p = true → p.corrupted = true →
    exec (.rxReceive p) s = .next { s with
      outbox := s.outbox ++
        [{ port := .rxu, words := [0x21000000, rxInfo false p.verified .discardedChannelCorruption, p.count, 0] }] }

/-- The discards of RX.RECEIVE in their priority: the first of the six reasons that applies is answered, with `OK`,
`ACCEPT = 0`, the `VERIFIED` and the `COUNT` of the table, and nothing of RXU changes but the counter of the reason, by
one (60_exceptions.md R420, R421). -/
def Obligations.DiscardPriority : Prop :=
  ∀ (P : Params) (s : State) (p : Pdu) (reason : Status), s.accepts .rxu → receiveOperandOk P s.rxu p = true →
    let cfg := s.rxu.lcfg
    let count := reconstruct s.rxu p.sn
    let data := if cfg.cen = true then cipher P true cfg.ckey count cfg.bearer cfg.dir p.payload else p.payload
    (if p.corrupted = true then some Status.discardedChannelCorruption
      else if cfg.cen = true ∧ cfg.ckp = false then some .discardedNoKey
      else if cfg.ien = true ∧ cfg.ikp = false then some .discardedIntegrityNoKey
      else if cfg.ien = true ∧ data.length < 4 then some .discardedIntegrityTooShort
      else if cfg.ien = true ∧ data.drop (data.length - 4) ≠
          tagBytes (maci P cfg.ikey count cfg.bearer cfg.dir (data.take (data.length - 4))) then
        some .discardedIntegrityFailure
      else if count ∈ s.rxu.rc then some .discardedDuplicate
      else none) = some reason →
    let isInteg := reason = .discardedIntegrityNoKey ∨ reason = .discardedIntegrityTooShort ∨
      reason = .discardedIntegrityFailure
    let verified : Verified :=
      if isInteg then .verifiedFalse
      else if reason = .discardedDuplicate then if cfg.ien = true then .verifiedTrue else .notApplicable
      else p.verified
    let t : State := { s with
      rxu := { s.rxu with
        cntInteg := if isInteg then s.rxu.cntInteg + 1 else s.rxu.cntInteg
        cntDup := if reason = .discardedDuplicate then s.rxu.cntDup + 1 else s.rxu.cntDup }
      outbox := s.outbox ++ [{ port := .rxu, words := [0x21000000, rxInfo false verified reason,
        if p.corrupted = true then p.count else count, 0] }] }
    rxReceive P p s = .next t ∧ (P = Config.params → exec (.rxReceive p) s = .next t)

/-- With integrity enabled, a deciphered string under 4 bytes, or one whose last 4 bytes are not the tag of the rest,
is discarded with `verified` FALSE; only `CNT_INTEG` changes, by one (42_receiver.md R284, 10_state.md R57). -/
def Obligations.IntegrityFailureIsDiscarded : Prop :=
  ∀ (P : Params) (s : State) (p : Pdu) (data : List Byte) (reason : Status), s.accepts .rxu →
    s.rxu.WindowInv P → receiveOperandOk P s.rxu p = true → p.corrupted = false → s.rxu.lcfg.ien = true →
    data = (if s.rxu.lcfg.cen = true then
      cipher P true s.rxu.lcfg.ckey (reconstruct s.rxu p.sn) s.rxu.lcfg.bearer s.rxu.lcfg.dir p.payload
      else p.payload) →
    ((data.length < 4 ∧ reason = .discardedIntegrityTooShort) ∨
      (4 ≤ data.length ∧ reason = .discardedIntegrityFailure ∧
        data.drop (data.length - 4) ≠ tagBytes (maci P s.rxu.lcfg.ikey (reconstruct s.rxu p.sn) s.rxu.lcfg.bearer
          s.rxu.lcfg.dir (data.take (data.length - 4))))) →
    let t : State := { s with
      rxu := { s.rxu with cntInteg := s.rxu.cntInteg + 1 }
      outbox := s.outbox ++
        [{ port := .rxu, words := [0x21000000, rxInfo false .verifiedFalse reason, reconstruct s.rxu p.sn, 0] }] }
    rxReceive P p s = .next t ∧ (P = Config.params → exec (.rxReceive p) s = .next t)

/-- A PDU that passes steps 1 to 4 and whose reconstructed count is in the replay cache is discarded as a duplicate;
only `CNT_DUP` changes, by one (42_receiver.md R285, 10_state.md R58). -/
def Obligations.DuplicateIsDiscarded : Prop :=
  ∀ (P : Params) (s : State) (p : Pdu) (data body : List Byte) (v : Verified), s.accepts .rxu →
    receiveOperandOk P s.rxu p = true → p.corrupted = false →
    decipher P s.rxu.lcfg (reconstruct s.rxu p.sn) p.payload = some data →
    verify P s.rxu.lcfg (reconstruct s.rxu p.sn) data = .ok (body, v) →
    reconstruct s.rxu p.sn ∈ s.rxu.rc →
    let t : State := { s with
      rxu := { s.rxu with cntDup := s.rxu.cntDup + 1 }
      outbox := s.outbox ++
        [{ port := .rxu, words := [0x21000000, rxInfo false v .discardedDuplicate, reconstruct s.rxu p.sn, 0] }] }
    rxReceive P p s = .next t ∧ (P = Config.params → exec (.rxReceive p) s = .next t)

/-- A PDU that passes steps 1 to 5, in a receiver whose replay cache has room, whose slot may be written and whose delivered
list has room for what the drain delivers, is accepted: its count joins the replay cache, its slot is written, and the
drain delivers, in sequence order from `NE_SN`, the slots up to the first empty one. The response says `DELIVERED` exactly
when the PDU is the expected one. Everything else of RXU is unchanged (42_receiver.md R285 to R288). The premises on room
are the complement of the causes of `ReceiveCapacityFaults`. -/
def Obligations.AcceptedIsBufferedAndDrained : Prop :=
  ∀ (P : Params) (s : State) (p : Pdu) (data body : List Byte) (v : Verified), s.accepts .rxu →
    s.rxu.WindowInv P → receiveOperandOk P s.rxu p = true → p.corrupted = false →
    decipher P s.rxu.lcfg (reconstruct s.rxu p.sn) p.payload = some data →
    verify P s.rxu.lcfg (reconstruct s.rxu p.sn) data = .ok (body, v) →
    reconstruct s.rxu p.sn ∉ s.rxu.rc →
    let S := s.rxu.lcfg.snbits.toNat
    let at' : Nat → Nat := fun j => (s.rxu.neSn.toNat + j) % 2 ^ S
    let slots : Nat → Option Slot := fun i =>
      if i = p.sn.toNat then some { sduId := p.sduId, count := reconstruct s.rxu p.sn, body }
      else Memory.find s.rxu.rb i
    (∀ cap, P.replayCap = some cap → s.rxu.rc.length < cap) →
    (P.collision = .overwrite ∨ Memory.find s.rxu.rb p.sn.toNat = none) →
    (∀ cap, P.dlCap = some cap →
      2 ^ S ≤ cap - s.rxu.dl.length ∨ ∃ j ≤ cap - s.rxu.dl.length, slots (at' j) = none) →
    ∃ (t : State) (n : Nat),
      rxReceive P p s = .next t ∧ (P = Config.params → exec (.rxReceive p) s = .next t) ∧
      t = { s with
        rxu := { s.rxu with
          neSn := t.rxu.neSn, hfnEst := t.rxu.hfnEst, ldValid := t.rxu.ldValid, ldSn := t.rxu.ldSn, rb := t.rxu.rb,
          rc := t.rxu.rc, dl := t.rxu.dl, cntSuccess := s.rxu.cntSuccess + BitVec.ofNat 32 n }
        outbox := s.outbox ++
          [{ port := .rxu, words := [0x21000000,
              rxInfo true v (if p.sn = s.rxu.neSn then .delivered else .buffered), reconstruct s.rxu p.sn,
              BitVec.ofNat 32 n] }] } ∧
      (∀ c, c ∈ t.rxu.rc ↔ c = reconstruct s.rxu p.sn ∨ c ∈ s.rxu.rc) ∧
      n ≤ 2 ^ S ∧ t.rxu.neSn.toNat = at' n ∧ Memory.find t.rxu.rb (at' n) = none ∧
      t.rxu.dl.length = s.rxu.dl.length + n ∧ s.rxu.dl <+: t.rxu.dl ∧
      (∀ j < n, ∃ e, slots (at' j) = some e ∧
        t.rxu.dl[s.rxu.dl.length + j]? = some { sduId := e.sduId, payload := e.body, count := e.count }) ∧
      (∀ i ≤ 2 ^ S - 1, Memory.find t.rxu.rb i = if (∃ j < n, i = at' j) then none else slots i) ∧
      (n = 0 → t.rxu.ldValid = s.rxu.ldValid ∧ t.rxu.ldSn = s.rxu.ldSn) ∧
      (0 < n → t.rxu.ldValid = true ∧ t.rxu.ldSn.toNat = at' (n - 1)) ∧
      t.rxu.hfnEst.toNat =
        (if (∃ j < n, at' j = 0 ∧ (s.rxu.ldValid = true ∨ 0 < j)) then
          (s.rxu.hfnEst.toNat + 1) % 2 ^ (32 - S) else s.rxu.hfnEst.toNat)

/-- A PDU with the expected number, deciphered and verified, whose count is new, to a receiver with nothing buffered:
unless the replay cache or the delivered list is full it is delivered at once, and where one is full the command is a
capacity fault. Either way RX.RECEIVE completes with exactly this state (42_receiver.md R280, R285 to R288,
60_exceptions.md R412). -/
def Obligations.InOrderReceiveDelivers : Prop :=
  ∀ (s : State) (p : Pdu) (data body : List Byte) (v : Verified), s.accepts .rxu →
    s.rxu.WindowInv Config.params → s.rxu.rb = [] → receiveOperandOk Config.params s.rxu p = true →
    p.corrupted = false → p.sn = s.rxu.neSn →
    decipher Config.params s.rxu.lcfg (reconstruct s.rxu p.sn) p.payload = some data →
    verify Config.params s.rxu.lcfg (reconstruct s.rxu p.sn) data = .ok (body, v) →
    reconstruct s.rxu p.sn ∉ s.rxu.rc →
    exec (.rxReceive p) s = .next
      (if atCapacity Config.replayCap s.rxu.rc.length = true ∨ atCapacity Config.dlCap s.rxu.dl.length = true then
        { s with
          rxu := { s.rxu with fault := true }
          outbox := s.outbox ++ [{ port := .rxu, words := [0x21060000] }] }
      else
        { s with
          rxu := { s.rxu with
            neSn := BitVec.ofNat 32 ((p.sn.toNat + 1) % 2 ^ s.rxu.lcfg.snbits.toNat)
            hfnEst :=
              if p.sn = 0 ∧ s.rxu.ldValid = true then
                BitVec.ofNat 32 ((s.rxu.hfnEst.toNat + 1) % 2 ^ (32 - s.rxu.lcfg.snbits.toNat))
              else s.rxu.hfnEst
            ldValid := true, ldSn := p.sn, rc := CountSet.insert s.rxu.rc (reconstruct s.rxu p.sn)
            dl := s.rxu.dl ++ [{ sduId := p.sduId, payload := body, count := reconstruct s.rxu p.sn }]
            cntSuccess := s.rxu.cntSuccess + 1 }
          outbox := s.outbox ++
            [{ port := .rxu, words := [0x21000000, rxInfo true v .delivered, reconstruct s.rxu p.sn, 1] }] })

/-- An RX.RECEIVE of a PDU whose number is not the expected one delivers nothing and moves no window register: a
missing number blocks delivery (70_reset_and_hazards.md R462, 42_receiver.md R287). -/
def Obligations.GapBlocksDelivery : Prop :=
  ∀ (P : Params) (s t : State) (p : Pdu), s.rxu.WindowInv P → p.sn ≠ s.rxu.neSn → rxReceive P p s = .next t →
    t.rxu.dl = s.rxu.dl ∧ t.rxu.neSn = s.rxu.neSn ∧ t.rxu.hfnEst = s.rxu.hfnEst ∧
    t.rxu.ldValid = s.rxu.ldValid ∧ t.rxu.ldSn = s.rxu.ldSn ∧ t.rxu.cntSuccess = s.rxu.cntSuccess

/-- RX.RECEIVE reads only the `sduId`, `sn`, payload and `corrupted` of a PDU: two PDUs that agree in them do and answer
the same, but that a corrupted one's count and `verified` are answered as they came (42_receiver.md R289). The receiver
meets its invariant: without a cipher key it has to have, which no configured receiver lacks, it would answer the
`verified` that came (R283). -/
def Obligations.ReceiveReadsFourFields : Prop :=
  ∀ (s : State) (p q : Pdu), s.rxu.WindowInv Config.params → p.sduId = q.sduId → p.sn = q.sn → p.payload = q.payload → p.corrupted = q.corrupted →
    (p.corrupted = true → p.count = q.count ∧ p.verified = q.verified) → exec (.rxReceive p) s = exec (.rxReceive q) s

/-- A sequence number above the receiver's `MAX_SN` is a bad operand and changes nothing (70_reset_and_hazards.md
R461, 30_encoding.md R151). -/
def Obligations.SnAboveMaxRefused : Prop :=
  ∀ (s : State) (p : Pdu), s.accepts .rxu → 2 ^ s.rxu.lcfg.snbits.toNat - 1 < p.sn.toNat →
    exec (.rxReceive p) s =
      .next { s with outbox := s.outbox ++ [{ port := .rxu, words := [0x21020000] }] }

/-- When RX.RECEIVE of a PDU that passes steps 1 to 4 with a new count is a capacity fault: exactly where the replay cache
is full, or its slot is occupied and `RB_COLLISION = FAULT`, or the drain would append to a full delivered list, the run
of valid slots from `NE_SN`, this PDU's among them, being longer than the room left in the list. Then the command is
undone, but `FAULT` is set (60_exceptions.md R412, 42_receiver.md R280, R286, R287, 95_test_vectors.md F1, F3, F4). -/
def Obligations.ReceiveCapacityFaults : Prop :=
  ∀ (P : Params) (s : State) (p : Pdu) (data body : List Byte) (v : Verified), s.accepts .rxu →
    s.rxu.WindowInv P → receiveOperandOk P s.rxu p = true → p.corrupted = false →
    decipher P s.rxu.lcfg (reconstruct s.rxu p.sn) p.payload = some data →
    verify P s.rxu.lcfg (reconstruct s.rxu p.sn) data = .ok (body, v) →
    reconstruct s.rxu p.sn ∉ s.rxu.rc →
    let S := s.rxu.lcfg.snbits.toNat
    let valid : Nat → Prop := fun i => i = p.sn.toNat ∨ Memory.find s.rxu.rb i ≠ none
    let t : State := { s with
      rxu := { s.rxu with fault := true }
      outbox := s.outbox ++ [{ port := .rxu, words := [0x21060000] }] }
    (rxReceive P p s = .next t ↔
      (∃ cap, P.replayCap = some cap ∧ cap ≤ s.rxu.rc.length) ∨
      (P.collision = .fault ∧ Memory.find s.rxu.rb p.sn.toNat ≠ none) ∨
      (∃ cap, P.dlCap = some cap ∧ cap - s.rxu.dl.length < 2 ^ S ∧
        ∀ j ≤ cap - s.rxu.dl.length, valid ((s.rxu.neSn.toNat + j) % 2 ^ S))) ∧
    (P = Config.params → exec (.rxReceive p) s = rxReceive P p s)

/-- RX.STATS and RX.DELIVERED on a configured RXU that meets its invariant answer the snapshot of the counters and of
the list, and change nothing else (30_encoding.md R164, 42_receiver.md R300, R305, 20_memory.md R111; what stands in a
length word for a length that 32 bits cannot hold is the model's choice, log 11). -/
def Obligations.SnapshotsChangeNothing : Prop :=
  ∀ s : State, s.accepts .rxu → s.rxu.WindowInv Config.params →
    exec .rxStats s = .next { s with
      outbox := s.outbox ++
        [⟨.rxu, [0x22000000, s.rxu.cntSuccess, s.rxu.cntInteg, s.rxu.cntDup, s.rxu.cntOld,
          BitVec.ofNat 32 ((List.range (2 ^ s.rxu.lcfg.snbits.toNat)).countP
            fun i => (Memory.find s.rxu.rb i).isSome)]⟩] } ∧
    exec .rxDelivered s = .next { s with
      outbox := s.outbox ++
        [⟨.rxu, 0x23000000 :: countWord Config.params s.rxu.dl.length ::
          (s.rxu.dl.flatMap fun e =>
            e.sduId :: e.count :: countWord Config.params e.payload.length :: packBytes e.payload)⟩] }

/-- No step but a reset of RXU takes a count from the replay cache or an entry from the delivered list, and the list
grows only at its end (10_state.md R54, R55). -/
def Obligations.ReceiverStoresOnlyGrow : Prop :=
  ∀ s s' : State, step s = .next s' → s.inbox.head? ≠ some (.reset .rxu) →
    s.rxu.dl <+: s'.rxu.dl ∧ ∀ c ∈ s.rxu.rc, c ∈ s'.rxu.rc

/-- Round trip: what a transmitter sends, a receiver in step with it and with room accepts and delivers at once, with
the payload and the count of the send, whatever status the channel wrote, and the two are in step again. The width is
at least 2: with width 1 the estimate never moves (95_test_vectors.md 1.1, H16, 41_transmitter.md R240,
42_receiver.md R280, 40_crypto.md R202). -/
def Obligations.RoundTripDelivers : Prop :=
  ∀ (P : Params) (s : State) (sduId : Word) (payload : List Byte) (status : Status), s.txu.life = .ready →
    s.txu.Inv P → s.accepts .rxu → s.rxu.WindowInv P → InStep s.txu s.rxu → 2 ≤ s.txu.lcfg.snbits.toNat →
    sendOperandOk P s.txu payload = true → (txWire P s.txu payload).length < 2 ^ 32 →
    txCount s.txu ∉ s.rxu.rc → atCapacity P.replayCap s.rxu.rc.length = false →
    atCapacity P.dlCap s.rxu.dl.length = false →
    ∃ (p : Pdu) (t1 t2 : State), txSend P sduId payload s = .next t1 ∧
      t1.outbox = s.outbox ++ [{ port := .txu, words := 0x11000000 :: pduRecord P p }] ∧
      rxReceive P { p with status } t1 = .next t2 ∧
      t2.outbox = t1.outbox ++ [{ port := .rxu, words := [0x21000000,
        rxInfo true (if s.rxu.lcfg.ien = true then .verifiedTrue else .notApplicable) .delivered, txCount s.txu, 1] }] ∧
      t2.rxu.dl = s.rxu.dl ++ [{ sduId, payload, count := txCount s.txu }] ∧
      InStep t2.txu t2.rxu

/-! ### The channel (43_channel.md) -/

/-- A roll never triggers at rate 0, always at rate 65536, and between them both outcomes are admitted
(43_channel.md R331; "that rate 1 always triggers is this spec's reading"). -/
def Obligations.RollConstraint : Prop :=
  (∀ raw, rollOf 0 raw = false) ∧ (∀ raw, rollOf 65536 raw = true) ∧
  ∀ rate : BitVec 17, 0 < rate.toNat → rate.toNat < 65536 → ∀ b : Bool, ∃ raw, rollOf rate raw = b

/-- The tamper draws for a payload of `n` bytes are exactly the lists of one to three (no more than `n`) pairs with
distinct positions below `n` and masks that are not zero, and none for the empty payload (43_channel.md R333). -/
def Obligations.TamperDrawSet : Prop :=
  ∀ (n : Nat) (draws : List (Nat × Byte)),
    (∃ raw, tamperOf n raw = draws) ↔
      if n = 0 then draws = []
      else 1 ≤ draws.length ∧ draws.length ≤ min 3 n ∧ (draws.map Prod.fst).Nodup ∧
        (∀ d ∈ draws, d.1 < n ∧ d.2 ≠ 0)

/-- The delay draws are exactly 1 to `MAXD`, and the shuffles of a list exactly its permutations (43_channel.md R335,
R336). -/
def Obligations.DelayAndShuffleDrawSets : Prop :=
  (∀ (maxd d : BitVec 16), maxd ≠ 0 → ((∃ raw, delayOf maxd raw = d) ↔ 1 ≤ d.toNat ∧ d.toNat ≤ maxd.toNat)) ∧
  (∀ xs ys : List Pdu, (∃ raw, shuffleOf xs raw = ys) ↔ ys.Perm xs)

/-- A tampered PDU: the flag and the status are set, between one and three bytes of a payload that is not empty
change, none of an empty one, and no other field changes (43_channel.md R353, R333). -/
def Obligations.TamperChangesBytes : Prop :=
  ∀ (raw : Nat) (p : Pdu),
    tamperPdu raw p = { p with payload := (tamperPdu raw p).payload, tampered := true, status := .tampered } ∧
    (tamperPdu raw p).payload.length = p.payload.length ∧
    (p.payload ≠ [] →
      let changed := (List.range p.payload.length).countP fun i => (tamperPdu raw p).payload[i]? ≠ p.payload[i]?
      1 ≤ changed ∧ changed ≤ 3)

/-- A corrupted PDU: the flag and the status are set, exactly one bit of a payload that is not empty flips, and every
bit may be the one; no other field changes (43_channel.md R334, R354). -/
def Obligations.CorruptFlipsOneBit : Prop :=
  ∀ p : Pdu,
    (∀ raw, corruptPdu raw p =
      { p with payload := (corruptPdu raw p).payload, corrupted := true, status := .corrupted } ∧
      (p.payload = [] → (corruptPdu raw p).payload = [])) ∧
    (∀ q : List Byte, p.payload ≠ [] → ((∃ raw, (corruptPdu raw p).payload = q) ↔
      ∃ pos < p.payload.length, ∃ bit < 8, q.length = p.payload.length ∧
        ∀ i, q[i]? = if i = pos then (p.payload[i]?).map (· ^^^ BitVec.twoPow 8 bit) else p.payload[i]?))

/-- With all five rates 0 and an empty delay buffer, CH.TRANSMIT returns the input PDUs in some order, each unchanged
but for the status `IN_TRANSIT`, and leaves the delay buffer empty (43_channel.md R363, whose second sentence the spec
marks "derived" from R331 and R350). -/
def Obligations.NoOpChannel : Prop :=
  ∀ (P : Params) (s : State) (ps : List Pdu), s.accepts .chu → transmitOperandOk P ps = true →
    s.chu.rateLoss = 0 → s.chu.rateDup = 0 → s.chu.rateReorder = 0 → s.chu.rateCorrupt = 0 → s.chu.rateTamper = 0 →
    s.chu.db = [] → withinLimit P.dbCap ps.length = true →
    ∃ (t : State) (out : List Pdu), chTransmit P ps s = .next t ∧
      (P = Config.params → exec (.chTransmit ps) s = .next t) ∧
      out.Perm (ps.map fun p => { p with status := .inTransit }) ∧
      t = { s with
        drawIx := t.drawIx
        outbox := s.outbox ++ [{ port := .chu, words := 0x31000000 :: pduListRecord P out }] }

/-- CH.TRANSMIT of no PDU, the tick, always completes: it returns in some order the PDUs whose delay has run out and
counts the other delays down by one (43_channel.md R357, R358, 60_exceptions.md R430). -/
def Obligations.TickReleases : Prop :=
  ∀ s : State, s.accepts .chu →
    ∃ (t : State) (out : List Pdu), exec (.chTransmit []) s = .next t ∧
      out.Perm ((s.chu.db.filter fun e => e.delay = 0).map DbEntry.pdu) ∧
      t = { s with
        chu := { s.chu with
          db := (s.chu.db.filter fun e => e.delay ≠ 0).map fun e => { e with delay := e.delay - 1 } }
        drawIx := t.drawIx
        outbox := s.outbox ++ [{ port := .chu, words := 0x31000000 :: pduListRecord Config.params out }] }

/-- At loss rate 65536 CH.TRANSMIT drops every input PDU: it does what the tick does (43_channel.md R351). -/
def Obligations.TotalLossDropsAll : Prop :=
  ∀ (s : State) (ps : List Pdu), s.accepts .chu → transmitOperandOk Config.params ps = true →
    s.chu.rateLoss = 65536 →
    ∃ (t : State) (out : List Pdu), exec (.chTransmit ps) s = .next t ∧
      out.Perm ((s.chu.db.filter fun e => e.delay = 0).map DbEntry.pdu) ∧
      t = { s with
        chu := { s.chu with
          db := (s.chu.db.filter fun e => e.delay ≠ 0).map fun e => { e with delay := e.delay - 1 } }
        drawIx := t.drawIx
        outbox := s.outbox ++ [{ port := .chu, words := 0x31000000 :: pduListRecord Config.params out }] }

/-- CH.TRANSMIT at every rate, from a delay buffer within `DB_CAP`. Each input PDU is lost, at no loss rate of 0, or is
impaired as the rates allow and appended, after a clone with delay 0 where it is duplicated, with a delay of 0 or, where
it is reordered, of 1 to `MAXD`; a rate of 0 never does its part and a rate of 65536 always, and duplication and delay are
independent. If all these entries fit, the entries whose delay has run out are returned in some order, clones among them,
and the others are kept, in order, counted down by one; if they do not, the command is a capacity fault
(43_channel.md R350 to R358, 95_test_vectors.md X9, X11, X13). -/
def Obligations.DuplicationAndDelay : Prop :=
  ∀ (P : Params) (s : State) (ps : List Pdu), s.accepts .chu → transmitOperandOk P ps = true →
    withinLimit P.dbCap s.chu.db.length = true →
    ∃ (t : State) (out : List Pdu) (fates : List (List DbEntry)),
      chTransmit P ps s = .next t ∧ (P = Config.params → exec (.chTransmit ps) s = .next t) ∧
      List.Forall₂ (ChannelFate s.chu) ps fates ∧
      let db := s.chu.db ++ fates.flatten
      out.Perm ((db.filter fun e => e.delay = 0).map DbEntry.pdu) ∧
      t =
        if withinLimit P.dbCap db.length = true then
          { s with
            chu := { s.chu with
              db := (db.filter fun e => e.delay ≠ 0).map fun e => { e with delay := e.delay - 1 } }
            drawIx := t.drawIx
            outbox := s.outbox ++ [{ port := .chu, words := 0x31000000 :: pduListRecord P out }] }
        else
          { s with
            chu := { s.chu with fault := true }
            drawIx := t.drawIx
            outbox := s.outbox ++ [{ port := .chu, words := [0x31060000] }] }

/-- At every rate, a CH.TRANSMIT that does not fault lets each input PDU pass as at most one PDU and its clone, the same in
every field: unimpaired but for the status `IN_TRANSIT`, or tampered with and not corrupted in this pass, or corrupted and
not tampered with; a rate of 0 never does its part, tampering at rate 65536 always tampers, and corruption at rate 65536
corrupts what is not tampered with. What passed and what was buffered is what is returned or kept
(43_channel.md R351 to R355). -/
def Obligations.TamperExcludesCorruption : Prop :=
  ∀ (P : Params) (s t : State) (ps : List Pdu), s.accepts .chu → transmitOperandOk P ps = true →
    chTransmit P ps s = .next t → t.chu.fault = false →
    ∃ (out : List Pdu) (passed : List (List Pdu)),
      t.outbox = s.outbox ++ [{ port := .chu, words := 0x31000000 :: pduListRecord P out }] ∧
      (out ++ t.chu.db.map DbEntry.pdu).Perm (s.chu.db.map DbEntry.pdu ++ passed.flatten) ∧
      List.Forall₂ (fun p qs =>
        (s.chu.rateLoss = 0 → qs ≠ []) ∧ (s.chu.rateLoss = 65536 → qs = []) ∧
        (s.chu.rateDup = 0 → qs.length ≤ 1) ∧ (s.chu.rateDup = 65536 → qs.length ≠ 1) ∧
        ∃ q, (qs = [] ∨ qs = [q] ∨ qs = [q, q]) ∧
          ((q = { p with status := .inTransit } ∧ s.chu.rateTamper ≠ 65536 ∧ s.chu.rateCorrupt ≠ 65536) ∨
            ((∃ raw, q = tamperPdu raw { p with status := .inTransit }) ∧ q.tampered = true ∧
              q.corrupted = p.corrupted ∧ q.status = .tampered ∧ s.chu.rateTamper ≠ 0) ∨
            ((∃ raw, q = corruptPdu raw { p with status := .inTransit }) ∧ q.corrupted = true ∧
              q.tampered = p.tampered ∧ q.status = .corrupted ∧ s.chu.rateCorrupt ≠ 0 ∧
              s.chu.rateTamper ≠ 65536))) ps passed

/-- Conservation, of a CH.TRANSMIT that does not fault. Each input PDU is lost or passes, and one that passes may have one
clone, the same in every field. The clones are all returned by this command; beside them every buffered PDU, unchanged, and
every input PDU that passes is returned or kept, exactly once. What an input PDU passes as has its identity, counters, tag
and `verified`, a payload of the same length, and every flag it had (43_channel.md R362, whose first sentence the spec marks
"derived", R364). -/
def Obligations.ChannelOnlyClones : Prop :=
  ∀ (P : Params) (s t : State) (ps : List Pdu), s.accepts .chu → transmitOperandOk P ps = true →
    chTransmit P ps s = .next t → t.chu.fault = false →
    ∃ (out rest : List Pdu) (fates : List (Option (Pdu × Bool))),
      t.outbox = s.outbox ++ [{ port := .chu, words := 0x31000000 :: pduListRecord P out }] ∧
      out.Perm (rest ++ (fates.reduceOption.filter Prod.snd).map Prod.fst) ∧
      (rest ++ t.chu.db.map DbEntry.pdu).Perm (s.chu.db.map DbEntry.pdu ++ fates.reduceOption.map Prod.fst) ∧
      List.Forall₂ (fun p fate => ∀ (q : Pdu) (cloned : Bool), fate = some (q, cloned) →
        q.sduId = p.sduId ∧ q.sn = p.sn ∧ q.count = p.count ∧ q.hfn = p.hfn ∧ q.tag = p.tag ∧
        q.verified = p.verified ∧ q.payload.length = p.payload.length ∧
        (p.corrupted = true → q.corrupted = true) ∧ (p.tampered = true → q.tampered = true)) ps fates

/-- A buffered entry of delay `d` is still buffered, its delay counted down, after any `k ≤ d` further CH.TRANSMITs
that do not fault, and the next one returns it (43_channel.md R361, counting from the entry as it is buffered between
commands). -/
def Obligations.BufferedPduArrives : Prop :=
  ∀ (s t t' : State) (batches : List (List Pdu)) (last : List Pdu) (e : DbEntry), s.accepts .chu →
    e ∈ s.chu.db → (∀ ps ∈ batches, transmitOperandOk Config.params ps = true) →
    transmitOperandOk Config.params last = true →
    execAll (batches.map .chTransmit) s = .next t → t.chu.fault = false →
    exec (.chTransmit last) t = .next t' → t'.chu.fault = false →
    (batches.length ≤ e.delay.toNat →
      { e with delay := e.delay - BitVec.ofNat 16 batches.length } ∈ t.chu.db) ∧
    (batches.length = e.delay.toNat →
      ∃ out : List Pdu, e.pdu ∈ out ∧
        t'.outbox = t.outbox ++ [{ port := .chu, words := 0x31000000 :: pduListRecord Config.params out }])

/-- CH.FLUSH returns every buffered PDU, whatever its delay, unchanged and in some order, and empties the delay buffer
(43_channel.md R360). -/
def Obligations.FlushReturnsAll : Prop :=
  ∀ s : State, s.accepts .chu →
    ∃ (t : State) (out : List Pdu), exec .chFlush s = .next t ∧ out.Perm (s.chu.db.map DbEntry.pdu) ∧
      t = { s with
        chu := { s.chu with db := [] }
        drawIx := t.drawIx
        outbox := s.outbox ++ [{ port := .chu, words := 0x32000000 :: pduListRecord Config.params out }] }

/-- A CH.TRANSMIT that loses nothing and whose input PDUs, or, at duplication rate 65536, whose input PDUs and their clones,
exceed the room in the delay buffer is undone as a whole, but `CHU.FAULT` is set (60_exceptions.md R412, 20_memory.md R105;
`DuplicationAndDelay` says when it faults at the other rates). -/
def Obligations.TransmitCapacityFault : Prop :=
  ∀ (P : Params) (s : State) (ps : List Pdu) (cap : Nat), s.accepts .chu → transmitOperandOk P ps = true →
    s.chu.rateLoss = 0 → P.dbCap = some cap → s.chu.db.length ≤ cap →
    (cap < s.chu.db.length + ps.length ∨ (s.chu.rateDup = 65536 ∧ cap < s.chu.db.length + 2 * ps.length)) →
    ∃ t : State, chTransmit P ps s = .next t ∧ (P = Config.params → exec (.chTransmit ps) s = .next t) ∧
      t = { s with
        chu := { s.chu with fault := true }
        drawIx := t.drawIx
        outbox := s.outbox ++ [{ port := .chu, words := [0x31060000] }] }

/-- With every store unbounded and `RB_COLLISION = OVERWRITE` no command raises the capacity fault: every command leaves
every unit's `FAULT` as it was, and no answer carries `CAPACITY_FAULT` from a unit whose `FAULT` is 0 (60_exceptions.md R412,
in a sentence it marks "derived" from R412 and R8). -/
def Obligations.UnboundedStoresNeverFault : Prop :=
  ∀ (P : Params) (i : Instr) (s t : State), P.replayCap = none → P.dlCap = none → P.dbCap = none →
    P.collision = .overwrite → execAt P i s = .next t →
    (P = Config.params → exec i s = .next t) ∧ (∀ u, t.faultOf u = s.faultOf u) ∧
    (s.faultOf i.op.unit = false → t.outbox ≠ s.outbox ++
      [{ port := i.op.unit, words := [i.op.word.extractLsb' 24 8 ++ (6 : BitVec 8) ++ (0 : BitVec 16)] }])

/-! ### The whole machine -/

/-- A step whose next event is the reset of a unit puts every field of the unit whose reset value the spec states to
that value, whatever it held, and changes nothing in the other units (70_reset_and_hazards.md R450, 10_state.md
R90). That the reset input is an event of the inbox and sends no response is the model's choice, log 17; that it leaves the
draw index is, log 6. -/
def Obligations.ResetSetsUnit : Prop :=
  ∀ (s : State) (u : UnitId) (rest : List Event), s.inbox = .reset u :: rest →
    ∃ t : State, step s = .next t ∧ t.inbox = rest ∧ t.outbox = s.outbox ∧ t.drawIx = s.drawIx ∧
      (u ≠ .txu → t.txu = s.txu) ∧ (u ≠ .rxu → t.rxu = s.rxu) ∧ (u ≠ .chu → t.chu = s.chu) ∧
      (u = .txu → t.txu =
        { life := .unconfigured, sn := 0, hfn := 0,
          lcfg := { bearer := 0, dir := 0, ien := false, cen := false, snbits := 12, ikp := false, ckp := false,
                    ikey := t.txu.lcfg.ikey, ckey := t.txu.lcfg.ckey } }) ∧
      (u = .rxu → t.rxu =
        { life := .unconfigured, neSn := 0, hfnEst := 0, ldValid := false, ldSn := t.rxu.ldSn, rb := [], rc := [],
          dl := [], cntSuccess := 0, cntInteg := 0, cntDup := 0, cntOld := 0, fault := false,
          lcfg := { bearer := 0, dir := 0, ien := false, cen := false, snbits := 12, ikp := false, ckp := false,
                    ikey := t.rxu.lcfg.ikey, ckey := t.rxu.lcfg.ckey } }) ∧
      (u = .chu → t.chu =
        { life := .unconfigured, rateLoss := 0, rateDup := 0, rateReorder := 0, rateCorrupt := 0, rateTamper := 0,
          maxd := 0, seed := 0, db := [], fault := false })

/-- An instruction changes no unit but the one that executes it (10_state.md R30, 20_memory.md R116). -/
def Obligations.InstructionsKeepOtherUnits : Prop :=
  ∀ (i : Instr) (s t : State), exec i s = .next t →
    t.inbox = s.inbox ∧ s.outbox <+: t.outbox ∧
    (i.op.unit ≠ .txu → t.txu = s.txu) ∧ (i.op.unit ≠ .rxu → t.rxu = s.rxu) ∧
    (i.op.unit ≠ .chu → t.chu = s.chu ∧ t.drawIx = s.drawIx)

/-- What an instruction does to its unit and what it answers depend on that unit alone, and on the draws for CHU
(10_state.md R30, 20_memory.md R116). -/
def Obligations.UnitsSeeOnlyThemselves : Prop :=
  ∀ (i : Instr) (s1 s2 t1 : State),
    (i.op.unit = .txu → s1.txu = s2.txu) → (i.op.unit = .rxu → s1.rxu = s2.rxu) →
    (i.op.unit = .chu → s1.chu = s2.chu ∧ s1.drawIx = s2.drawIx) → exec i s1 = .next t1 →
    ∃ (t2 : State) (answer : Response), exec i s2 = .next t2 ∧
      t1.outbox = s1.outbox ++ [answer] ∧ t2.outbox = s2.outbox ++ [answer] ∧
      (i.op.unit = .txu → t1.txu = t2.txu) ∧ (i.op.unit = .rxu → t1.rxu = t2.rxu) ∧
      (i.op.unit = .chu → t1.chu = t2.chu)

/-- A key whose present bit is 0 is never read: TX.SEND and RX.RECEIVE on a configured unit do and answer the same
with any other bytes in its place (30_encoding.md R153, 10_state.md R33). -/
def Obligations.AbsentKeysUnread : Prop :=
  ∀ (s : State) (key : List Byte), s.txu.Inv Config.params → s.rxu.WindowInv Config.params →
    (s.txu.life = .ready → ∀ (sduId : Word) (payload : List Byte) (t : State),
      exec (.txSend sduId payload) s = .next t →
      (s.txu.lcfg.ikp = false →
        exec (.txSend sduId payload) { s with txu := { s.txu with lcfg := { s.txu.lcfg with ikey := key } } } =
          .next { t with txu := { t.txu with lcfg := { t.txu.lcfg with ikey := key } } }) ∧
      (s.txu.lcfg.ckp = false →
        exec (.txSend sduId payload) { s with txu := { s.txu with lcfg := { s.txu.lcfg with ckey := key } } } =
          .next { t with txu := { t.txu with lcfg := { t.txu.lcfg with ckey := key } } })) ∧
    (s.rxu.life = .ready → ∀ (p : Pdu) (t : State), exec (.rxReceive p) s = .next t →
      (s.rxu.lcfg.ikp = false →
        exec (.rxReceive p) { s with rxu := { s.rxu with lcfg := { s.rxu.lcfg with ikey := key } } } =
          .next { t with rxu := { t.rxu with lcfg := { t.rxu.lcfg with ikey := key } } }) ∧
      (s.rxu.lcfg.ckp = false →
        exec (.rxReceive p) { s with rxu := { s.rxu with lcfg := { s.rxu.lcfg with ckey := key } } } =
          .next { t with rxu := { t.rxu with lcfg := { t.rxu.lcfg with ckey := key } } }))

/-- After reset every unit meets its invariant (10_state.md R90). -/
def Obligations.ResetMeetsInvariant : Prop := State.reset.Inv

/-- Every step keeps TXU's invariant: `SN ≤ MAX_SN` and `HFN < HFN_MOD` in a configured unit, reset values in any
other (10_state.md R40, R41). -/
def Obligations.StepKeepsTransmitter : Prop :=
  ∀ s s' : State, s.txu.Inv Config.params → step s = .next s' → s'.txu.Inv Config.params

/-- Every step keeps RXU's registers in range, the reorder buffer and the replay cache canonical, and slot `NE_SN`
empty (10_state.md R50 to R54, 42_receiver.md R286, R287). -/
def Obligations.StepKeepsReceiverWindow : Prop :=
  ∀ s s' : State, s.rxu.WindowInv Config.params → step s = .next s' → s'.rxu.WindowInv Config.params

/-- Every step keeps RXU's accounts: no count is buffered or delivered twice, deliveries are consecutive in the
sequence number, `CNT_SUCCESS` counts them and `CNT_OLD` stays 0 (20_memory.md R118, 10_state.md R56, R59,
42_receiver.md R285, R300). -/
def Obligations.StepKeepsReceiverLedger : Prop :=
  ∀ s s' : State, s.rxu.WindowInv Config.params → s.rxu.LedgerInv Config.params → step s = .next s' →
    s'.rxu.LedgerInv Config.params

/-- Every step keeps CHU's invariant: legal rates, every buffered delay below `MAXD`, the delay buffer within its
capacity (10_state.md R65, R68, 43_channel.md R335, R357). -/
def Obligations.StepKeepsChannel : Prop :=
  ∀ s s' : State, s.chu.Inv Config.params → step s = .next s' → s'.chu.Inv Config.params

/-- From a state that meets the invariants no run stops: every frame and every reset is answered by a next state
(60_exceptions.md R406, R425 to R427, 70_reset_and_hazards.md R480). -/
def Obligations.NoRunStops : Prop := ∀ s : State, s.Inv → s.Safe
end

