-- ==== Sys2Proof/Laws/State.lean ====
section
/-! SUPPORT. What each update of the state leaves in each field: one lemma per field per update, true by `rfl` or by
cases on the unit or the reason, all of them simp lemmas. -/

namespace Sys2Proof.Machine

/-! ### The machine's own parameters -/

section Parameters

@[simp] theorem params_initSn : Config.params.initSn = Config.initSn := rfl
@[simp] theorem params_initHfn : Config.params.initHfn = Config.initHfn := rfl
@[simp] theorem params_replayCap : Config.params.replayCap = Config.replayCap := rfl
@[simp] theorem params_dlCap : Config.params.dlCap = Config.dlCap := rfl
@[simp] theorem params_dbCap : Config.params.dbCap = Config.dbCap := rfl
@[simp] theorem params_maxPayload : Config.params.maxPayload = Config.maxPayload := rfl
@[simp] theorem params_collision : Config.params.collision = Config.collision := rfl
@[simp] theorem params_ksByte : Config.params.ksByte = Config.ksByte := rfl
@[simp] theorem params_tag : Config.params.tag = Config.tag := rfl
@[simp] theorem params_draw : Config.params.draw = Config.draw := rfl
@[simp] theorem params_longCount : Config.params.longCount = Config.longCount := rfl

end Parameters

/-! ### Responses -/

section Responses

variable (port : UnitId) (words record : List Word) (op : Op) (code : Result) (cmd : Word) (s : State)

@[simp] theorem sendFrame_txu : (sendFrame port words s).txu = s.txu := rfl
@[simp] theorem sendFrame_rxu : (sendFrame port words s).rxu = s.rxu := rfl
@[simp] theorem sendFrame_chu : (sendFrame port words s).chu = s.chu := rfl
@[simp] theorem sendFrame_inbox : (sendFrame port words s).inbox = s.inbox := rfl
@[simp] theorem sendFrame_drawIx : (sendFrame port words s).drawIx = s.drawIx := rfl
@[simp] theorem sendFrame_outbox : (sendFrame port words s).outbox = s.outbox ++ [{ port := port, words := words }] := rfl
@[simp] theorem respondOk_txu : (respondOk op record s).txu = s.txu := rfl
@[simp] theorem respondOk_rxu : (respondOk op record s).rxu = s.rxu := rfl
@[simp] theorem respondOk_chu : (respondOk op record s).chu = s.chu := rfl
@[simp] theorem respondOk_inbox : (respondOk op record s).inbox = s.inbox := rfl
@[simp] theorem respondOk_drawIx : (respondOk op record s).drawIx = s.drawIx := rfl
@[simp] theorem respondOk_outbox : (respondOk op record s).outbox =
    s.outbox ++ [{ port := op.unit, words := responseWord op.word .ok :: record }] := rfl
@[simp] theorem raiseCmdError_txu : (raiseCmdError op code s).txu = s.txu := rfl
@[simp] theorem raiseCmdError_rxu : (raiseCmdError op code s).rxu = s.rxu := rfl
@[simp] theorem raiseCmdError_chu : (raiseCmdError op code s).chu = s.chu := rfl
@[simp] theorem raiseCmdError_inbox : (raiseCmdError op code s).inbox = s.inbox := rfl
@[simp] theorem raiseCmdError_drawIx : (raiseCmdError op code s).drawIx = s.drawIx := rfl
@[simp] theorem raiseCmdError_outbox : (raiseCmdError op code s).outbox =
    s.outbox ++ [{ port := op.unit, words := [responseWord op.word code] }] := rfl
@[simp] theorem raiseIllegal_txu : (raiseIllegal port cmd s).txu = s.txu := rfl
@[simp] theorem raiseIllegal_rxu : (raiseIllegal port cmd s).rxu = s.rxu := rfl
@[simp] theorem raiseIllegal_chu : (raiseIllegal port cmd s).chu = s.chu := rfl
@[simp] theorem raiseIllegal_inbox : (raiseIllegal port cmd s).inbox = s.inbox := rfl
@[simp] theorem raiseIllegal_drawIx : (raiseIllegal port cmd s).drawIx = s.drawIx := rfl
@[simp] theorem raiseIllegal_outbox : (raiseIllegal port cmd s).outbox =
    s.outbox ++ [{ port := port, words := [responseWord cmd .illegalCommand] }] := rfl
@[simp] theorem badFrame_txu : (badFrame op s).txu = s.txu := rfl
@[simp] theorem badFrame_rxu : (badFrame op s).rxu = s.rxu := rfl
@[simp] theorem badFrame_chu : (badFrame op s).chu = s.chu := rfl
@[simp] theorem badFrame_inbox : (badFrame op s).inbox = s.inbox := rfl
@[simp] theorem badFrame_drawIx : (badFrame op s).drawIx = s.drawIx := rfl

end Responses

/-! ### `FAULT`, `LIFE` and unit reset -/

section Units

variable (u : UnitId) (op : Op) (s : State)

@[simp] theorem setFault_inbox : (s.setFault u).inbox = s.inbox := by cases u <;> rfl
@[simp] theorem setFault_outbox : (s.setFault u).outbox = s.outbox := by cases u <;> rfl
@[simp] theorem setFault_drawIx : (s.setFault u).drawIx = s.drawIx := by cases u <;> rfl
@[simp] theorem setCfgError_inbox : (s.setCfgError u).inbox = s.inbox := by cases u <;> rfl
@[simp] theorem setCfgError_outbox : (s.setCfgError u).outbox = s.outbox := by cases u <;> rfl
@[simp] theorem setCfgError_drawIx : (s.setCfgError u).drawIx = s.drawIx := by cases u <;> rfl
@[simp] theorem resetUnit_inbox : (resetUnit u s).inbox = s.inbox := by cases u <;> rfl
@[simp] theorem resetUnit_outbox : (resetUnit u s).outbox = s.outbox := by cases u <;> rfl
@[simp] theorem resetUnit_drawIx : (resetUnit u s).drawIx = s.drawIx := by cases u <;> rfl
@[simp] theorem setFault_txu : (s.setFault u).txu = s.txu := by cases u <;> rfl
@[simp] theorem setFault_rxu_chu : (s.setFault .rxu).chu = s.chu := rfl
@[simp] theorem setFault_rxu_self : (s.setFault .rxu).rxu = { s.rxu with fault := true } := rfl
@[simp] theorem setFault_chu_rxu : (s.setFault .chu).rxu = s.rxu := rfl
@[simp] theorem setFault_chu_self : (s.setFault .chu).chu = { s.chu with fault := true } := rfl
@[simp] theorem setCfgError_txu_self : (s.setCfgError .txu).txu = { s.txu with life := .cfgError } := rfl
@[simp] theorem resetUnit_txu_self : (resetUnit .txu s).txu = resetTxu := rfl
@[simp] theorem setCfgError_txu_rxu : (s.setCfgError .txu).rxu = s.rxu := rfl
@[simp] theorem resetUnit_txu_rxu : (resetUnit .txu s).rxu = s.rxu := rfl
@[simp] theorem setCfgError_txu_chu : (s.setCfgError .txu).chu = s.chu := rfl
@[simp] theorem resetUnit_txu_chu : (resetUnit .txu s).chu = s.chu := rfl
@[simp] theorem setCfgError_rxu_self : (s.setCfgError .rxu).rxu = { s.rxu with life := .cfgError } := rfl
@[simp] theorem resetUnit_rxu_self : (resetUnit .rxu s).rxu = resetRxu := rfl
@[simp] theorem setCfgError_rxu_txu : (s.setCfgError .rxu).txu = s.txu := rfl
@[simp] theorem resetUnit_rxu_txu : (resetUnit .rxu s).txu = s.txu := rfl
@[simp] theorem setCfgError_rxu_chu : (s.setCfgError .rxu).chu = s.chu := rfl
@[simp] theorem resetUnit_rxu_chu : (resetUnit .rxu s).chu = s.chu := rfl
@[simp] theorem setCfgError_chu_self : (s.setCfgError .chu).chu = { s.chu with life := .cfgError } := rfl
@[simp] theorem resetUnit_chu_self : (resetUnit .chu s).chu = resetChu := rfl
@[simp] theorem setCfgError_chu_txu : (s.setCfgError .chu).txu = s.txu := rfl
@[simp] theorem resetUnit_chu_txu : (resetUnit .chu s).txu = s.txu := rfl
@[simp] theorem setCfgError_chu_rxu : (s.setCfgError .chu).rxu = s.rxu := rfl
@[simp] theorem resetUnit_chu_rxu : (resetUnit .chu s).rxu = s.rxu := rfl
@[simp] theorem raiseCapacity_inbox : (raiseCapacity op s).inbox = s.inbox := by simp [raiseCapacity]
@[simp] theorem raiseCapacity_drawIx : (raiseCapacity op s).drawIx = s.drawIx := by simp [raiseCapacity]
@[simp] theorem raiseConfigError_inbox : (raiseConfigError op s).inbox = s.inbox := by simp [raiseConfigError]
@[simp] theorem raiseConfigError_drawIx : (raiseConfigError op s).drawIx = s.drawIx := by simp [raiseConfigError]
@[simp] theorem raiseCapacity_outbox : (raiseCapacity op s).outbox =
    s.outbox ++ [{ port := op.unit, words := [responseWord op.word .capacityFault] }] := by simp [raiseCapacity]
@[simp] theorem raiseConfigError_outbox : (raiseConfigError op s).outbox =
    s.outbox ++ [{ port := op.unit, words := [responseWord op.word .configError] }] := by simp [raiseConfigError]
@[simp] theorem lifeOf_txu : s.lifeOf .txu = s.txu.life := rfl
@[simp] theorem lifeOf_rxu : s.lifeOf .rxu = s.rxu.life := rfl
@[simp] theorem lifeOf_chu : s.lifeOf .chu = s.chu.life := rfl
@[simp] theorem faultOf_txu : s.faultOf .txu = false := rfl
@[simp] theorem faultOf_rxu : s.faultOf .rxu = s.rxu.fault := rfl
@[simp] theorem faultOf_chu : s.faultOf .chu = s.chu.fault := rfl

end Units

/-! ### Registers of TXU, RXU and CHU -/

section Registers

variable (P : Params) (cfg : LinkCfg) (ch : ChannelCfg) (t : Txu) (r : Rxu) (c : Chu) (reason : Status) (e : Slot)
  (m : Memory) (d : DbEntry) (x : Transit)

@[simp] theorem advanceCounter_life : (advanceCounter t).life = t.life := by unfold advanceCounter; split <;> rfl
@[simp] theorem advanceCounter_lcfg : (advanceCounter t).lcfg = t.lcfg := by unfold advanceCounter; split <;> rfl
@[simp] theorem configuredTxu_life : (configuredTxu P cfg).life = .ready := rfl
@[simp] theorem configuredTxu_lcfg : (configuredTxu P cfg).lcfg = cfg := rfl
@[simp] theorem configuredTxu_sn : (configuredTxu P cfg).sn = P.initSn := rfl
@[simp] theorem configuredTxu_hfn : (configuredTxu P cfg).hfn = P.initHfn := rfl
@[simp] theorem configuredRxu_life : (configuredRxu P cfg r).life = .ready := rfl
@[simp] theorem configuredRxu_lcfg : (configuredRxu P cfg r).lcfg = cfg := rfl
@[simp] theorem configuredRxu_neSn : (configuredRxu P cfg r).neSn = P.initSn := rfl
@[simp] theorem configuredRxu_hfnEst : (configuredRxu P cfg r).hfnEst = P.initHfn := rfl
@[simp] theorem configuredRxu_ldValid : (configuredRxu P cfg r).ldValid = false := rfl
@[simp] theorem configuredRxu_ldSn : (configuredRxu P cfg r).ldSn = r.ldSn := rfl
@[simp] theorem configuredRxu_rb : (configuredRxu P cfg r).rb = r.rb := rfl
@[simp] theorem configuredRxu_rc : (configuredRxu P cfg r).rc = r.rc := rfl
@[simp] theorem configuredRxu_dl : (configuredRxu P cfg r).dl = r.dl := rfl
@[simp] theorem configuredRxu_cntSuccess : (configuredRxu P cfg r).cntSuccess = r.cntSuccess := rfl
@[simp] theorem configuredRxu_cntInteg : (configuredRxu P cfg r).cntInteg = r.cntInteg := rfl
@[simp] theorem configuredRxu_cntDup : (configuredRxu P cfg r).cntDup = r.cntDup := rfl
@[simp] theorem configuredRxu_cntOld : (configuredRxu P cfg r).cntOld = r.cntOld := rfl
@[simp] theorem configuredRxu_fault : (configuredRxu P cfg r).fault = r.fault := rfl
@[simp] theorem countDiscard_life : (countDiscard reason r).life = r.life := by cases reason <;> rfl
@[simp] theorem countDiscard_lcfg : (countDiscard reason r).lcfg = r.lcfg := by cases reason <;> rfl
@[simp] theorem countDiscard_neSn : (countDiscard reason r).neSn = r.neSn := by cases reason <;> rfl
@[simp] theorem countDiscard_hfnEst : (countDiscard reason r).hfnEst = r.hfnEst := by cases reason <;> rfl
@[simp] theorem countDiscard_ldValid : (countDiscard reason r).ldValid = r.ldValid := by cases reason <;> rfl
@[simp] theorem countDiscard_ldSn : (countDiscard reason r).ldSn = r.ldSn := by cases reason <;> rfl
@[simp] theorem countDiscard_rb : (countDiscard reason r).rb = r.rb := by cases reason <;> rfl
@[simp] theorem countDiscard_rc : (countDiscard reason r).rc = r.rc := by cases reason <;> rfl
@[simp] theorem countDiscard_dl : (countDiscard reason r).dl = r.dl := by cases reason <;> rfl
@[simp] theorem countDiscard_cntSuccess : (countDiscard reason r).cntSuccess = r.cntSuccess := by cases reason <;> rfl
@[simp] theorem countDiscard_cntOld : (countDiscard reason r).cntOld = r.cntOld := by cases reason <;> rfl
@[simp] theorem countDiscard_fault : (countDiscard reason r).fault = r.fault := by cases reason <;> rfl
@[simp] theorem deliverSlot_life : (deliverSlot e m r).life = r.life := rfl
@[simp] theorem deliverSlot_lcfg : (deliverSlot e m r).lcfg = r.lcfg := rfl
@[simp] theorem deliverSlot_neSn : (deliverSlot e m r).neSn = BitVec.ofNat 32 ((r.neSn.toNat + 1) % (maxSn (snWidth r.lcfg) + 1)) := rfl
@[simp] theorem deliverSlot_hfnEst : (deliverSlot e m r).hfnEst = 
    if r.neSn = 0 ∧ r.ldValid = true ∧ r.ldSn.toNat = maxSn (snWidth r.lcfg) then
      BitVec.ofNat 32 ((r.hfnEst.toNat + 1) % hfnMod (snWidth r.lcfg))
    else r.hfnEst := rfl
@[simp] theorem deliverSlot_ldValid : (deliverSlot e m r).ldValid = true := rfl
@[simp] theorem deliverSlot_ldSn : (deliverSlot e m r).ldSn = r.neSn := rfl
@[simp] theorem deliverSlot_rb : (deliverSlot e m r).rb = m := rfl
@[simp] theorem deliverSlot_rc : (deliverSlot e m r).rc = r.rc := rfl
@[simp] theorem deliverSlot_dl : (deliverSlot e m r).dl = r.dl ++ [{ sduId := e.sduId, payload := e.body, count := e.count }] := rfl
@[simp] theorem deliverSlot_cntSuccess : (deliverSlot e m r).cntSuccess = bump r.cntSuccess := rfl
@[simp] theorem deliverSlot_cntInteg : (deliverSlot e m r).cntInteg = r.cntInteg := rfl
@[simp] theorem deliverSlot_cntDup : (deliverSlot e m r).cntDup = r.cntDup := rfl
@[simp] theorem deliverSlot_cntOld : (deliverSlot e m r).cntOld = r.cntOld := rfl
@[simp] theorem deliverSlot_fault : (deliverSlot e m r).fault = r.fault := rfl
@[simp] theorem configuredChu_life : (configuredChu ch c).life = .ready := rfl
@[simp] theorem configuredChu_rateLoss : (configuredChu ch c).rateLoss = ch.loss := rfl
@[simp] theorem configuredChu_rateDup : (configuredChu ch c).rateDup = ch.dup := rfl
@[simp] theorem configuredChu_rateReorder : (configuredChu ch c).rateReorder = ch.reorder := rfl
@[simp] theorem configuredChu_rateCorrupt : (configuredChu ch c).rateCorrupt = ch.corrupt := rfl
@[simp] theorem configuredChu_rateTamper : (configuredChu ch c).rateTamper = ch.tamper := rfl
@[simp] theorem configuredChu_maxd : (configuredChu ch c).maxd = ch.maxd := rfl
@[simp] theorem configuredChu_seed : (configuredChu ch c).seed = ch.seed := rfl
@[simp] theorem configuredChu_db : (configuredChu ch c).db = c.db := rfl
@[simp] theorem configuredChu_fault : (configuredChu ch c).fault = c.fault := rfl
@[simp] theorem enqueue_db : (enqueue P d x).db = x.db ++ [d] := rfl
@[simp] theorem enqueue_ix : (enqueue P d x).ix = x.ix := rfl
@[simp] theorem enqueue_overflow : (enqueue P d x).overflow = (x.overflow || atCapacity P.dbCap x.db.length) := rfl

end Registers

/-! ### Fields of a PDU -/

section PduFields

variable (raw : Nat) (p : Pdu)

@[simp] theorem tamperPdu_sduId : (tamperPdu raw p).sduId = p.sduId := rfl
@[simp] theorem tamperPdu_sn : (tamperPdu raw p).sn = p.sn := rfl
@[simp] theorem tamperPdu_count : (tamperPdu raw p).count = p.count := rfl
@[simp] theorem tamperPdu_hfn : (tamperPdu raw p).hfn = p.hfn := rfl
@[simp] theorem tamperPdu_tag : (tamperPdu raw p).tag = p.tag := rfl
@[simp] theorem tamperPdu_corrupted : (tamperPdu raw p).corrupted = p.corrupted := rfl
@[simp] theorem tamperPdu_tampered : (tamperPdu raw p).tampered = true := rfl
@[simp] theorem tamperPdu_verified : (tamperPdu raw p).verified = p.verified := rfl
@[simp] theorem tamperPdu_status : (tamperPdu raw p).status = .tampered := rfl
@[simp] theorem corruptPdu_sduId : (corruptPdu raw p).sduId = p.sduId := rfl
@[simp] theorem corruptPdu_sn : (corruptPdu raw p).sn = p.sn := rfl
@[simp] theorem corruptPdu_count : (corruptPdu raw p).count = p.count := rfl
@[simp] theorem corruptPdu_hfn : (corruptPdu raw p).hfn = p.hfn := rfl
@[simp] theorem corruptPdu_tag : (corruptPdu raw p).tag = p.tag := rfl
@[simp] theorem corruptPdu_corrupted : (corruptPdu raw p).corrupted = true := rfl
@[simp] theorem corruptPdu_tampered : (corruptPdu raw p).tampered = p.tampered := rfl
@[simp] theorem corruptPdu_verified : (corruptPdu raw p).verified = p.verified := rfl
@[simp] theorem corruptPdu_status : (corruptPdu raw p).status = .corrupted := rfl

end PduFields

end Sys2Proof.Machine
end

