-- ==== Sys2Proof/Laws/Ops.lean ====
section
/-! SUPPORT. What the shared operations can do, said once for each: the prologue and `runCommand`, the capacity
checks, the reorder buffer and the replay cache. -/

namespace Sys2Proof.Machine

/-! ### The prologue (60_exceptions.md R400) -/

/-- Every check of the prologue passes exactly under these conditions. -/
theorem prologue_eq_none_iff (op : Op) (ok : Bool) (s : State) :
    prologue op ok s = none ↔
      s.lifeOf op.unit ≠ .cfgError ∧ (op.isConfig = true → s.lifeOf op.unit ≠ .ready) ∧
      (op.isConfig = false → s.lifeOf op.unit ≠ .unconfigured) ∧ s.faultOf op.unit = false ∧ ok = true := by
  unfold prologue
  cases op.isConfig <;> cases s.lifeOf op.unit <;> cases s.faultOf op.unit <;> cases ok <;> simp

/-- A command either is turned away by the prologue, which changes nothing but the answer, or is its body. -/
theorem runCommand_cases {op : Op} {ok : Bool} {body : State → StepResult} {s t : State}
    (h : runCommand op ok body s = .next t) :
    (∃ code, prologue op ok s = some code ∧ t = raiseCmdError op code s) ∨
      (prologue op ok s = none ∧ body s = .next t) := by
  unfold runCommand at h
  cases hp : prologue op ok s with
  | none => exact .inr ⟨rfl, by simpa [hp] using h⟩
  | some code => exact .inl ⟨code, rfl, by simpa [hp] using h.symm⟩

/-- A command that is not a configuration command, on a unit that accepts commands, with legal operands, is its
body. -/
theorem runCommand_accepts {op : Op} {ok : Bool} {s : State} (body : State → StepResult) (hop : op.isConfig = false)
    (hs : s.accepts op.unit) (hok : ok = true) : runCommand op ok body s = body s := by
  have h : prologue op ok s = none := by
    rw [prologue_eq_none_iff]
    obtain ⟨hl, hf⟩ := hs
    simp [hl, hf, hop, hok]
  simp [runCommand, h]

/-- A configuration command on an unconfigured unit without a fault, with a record of the right form, is its body. -/
theorem runCommand_unconfigured {op : Op} {ok : Bool} {s : State} (body : State → StepResult)
    (hop : op.isConfig = true) (hl : s.lifeOf op.unit = .unconfigured) (hf : s.faultOf op.unit = false)
    (hok : ok = true) : runCommand op ok body s = body s := by
  have h : prologue op ok s = none := by
    rw [prologue_eq_none_iff]
    simp [hl, hf, hop, hok]
  simp [runCommand, h]

/-- A command body runs on an accepting unit, or, for a configuration command, on an unconfigured one. -/
theorem accepts_of_prologue {op : Op} {ok : Bool} {s : State} (h : prologue op ok s = none)
    (hop : op.isConfig = false) : s.accepts op.unit ∧ ok = true := by
  rw [prologue_eq_none_iff] at h
  obtain ⟨h1, -, h3, h4, h5⟩ := h
  refine ⟨⟨?_, h4⟩, h5⟩
  cases hl : s.lifeOf op.unit with
  | ready => rfl
  | unconfigured => exact absurd hl (h3 hop)
  | cfgError => exact absurd hl h1

/-- A configuration command's body runs on an unconfigured unit without a fault. -/
theorem unconfigured_of_prologue {op : Op} {ok : Bool} {s : State} (h : prologue op ok s = none)
    (hop : op.isConfig = true) : s.lifeOf op.unit = .unconfigured ∧ s.faultOf op.unit = false ∧ ok = true := by
  rw [prologue_eq_none_iff] at h
  obtain ⟨h1, h2, -, h4, h5⟩ := h
  refine ⟨?_, h4, h5⟩
  cases hl : s.lifeOf op.unit with
  | ready => exact absurd hl (h2 hop)
  | unconfigured => rfl
  | cfgError => exact absurd hl h1

/-! ### Capacities -/

/-- A store at capacity has no room for one more, and the other way round. -/
theorem atCapacity_eq_false_iff (cap : Option Nat) (n : Nat) :
    atCapacity cap n = false ↔ withinLimit cap (n + 1) = true := by
  cases cap with
  | none => simp [atCapacity, withinLimit]
  | some c => simp [atCapacity, withinLimit]

/-- Room for more is room for fewer. -/
theorem withinLimit_mono {cap : Option Nat} {m n : Nat} (h : withinLimit cap n = true) (hmn : m ≤ n) :
    withinLimit cap m = true := by
  cases cap with
  | none => rfl
  | some c => simp [withinLimit] at h ⊢; omega

/-- Nothing exceeds a limit of any size. -/
@[simp] theorem withinLimit_zero (cap : Option Nat) : withinLimit cap 0 = true := by
  cases cap <;> simp [withinLimit]

/-- A count that 32 bits hold is its own word. -/
theorem countWord_of_lt (P : Params) {n : Nat} (h : n < 2 ^ 32) : countWord P n = BitVec.ofNat 32 n := by
  exact if_pos h

/-! ### The reorder buffer (20_memory.md R101, R102) -/

/-- A listed index is at the head or in the rest. -/
theorem Memory.find_cons (j : Nat) (f : Slot) (m : Memory) (i : Nat) :
    Memory.find ((j, f) :: m) i = if i = j then some f else Memory.find m i := rfl

/-- Reading the slot that was written gives what was written. -/
theorem Memory.find_insert_self (m : Memory) (i : Nat) (e : Slot) : Memory.find (Memory.insert m i e) i = some e := by
  induction m with
  | nil => simp [Memory.insert, Memory.find]
  | cons x m ih =>
    obtain ⟨j, f⟩ := x
    unfold Memory.insert
    split
    · simp [Memory.find]
    · split
      · simp [Memory.find]
      · simp [Memory.find, *]

/-- A write leaves every other slot alone. -/
theorem Memory.find_insert_of_ne (m : Memory) {i k : Nat} (e : Slot) (h : k ≠ i) :
    Memory.find (Memory.insert m i e) k = Memory.find m k := by
  induction m with
  | nil => simp [Memory.insert, Memory.find, h]
  | cons x m ih =>
    obtain ⟨j, f⟩ := x
    unfold Memory.insert
    split
    · simp [Memory.find, h]
    · split
      · rename_i hij
        subst hij
        simp [Memory.find, h]
      · simp [Memory.find, ih]

/-- A removal leaves every other slot alone. -/
theorem Memory.find_remove_of_ne (m : Memory) {i k : Nat} (h : k ≠ i) :
    Memory.find (Memory.remove m i) k = Memory.find m k := by
  induction m with
  | nil => rfl
  | cons x m ih =>
    obtain ⟨j, f⟩ := x
    unfold Memory.remove
    split
    · rename_i hij
      subst hij
      simp [Memory.find, h]
    · simp [Memory.find, ih]

/-- An index below every listed one is not valid. -/
theorem Memory.find_eq_none_of_forall_ne {m : Memory} {i : Nat} (h : ∀ x ∈ m, x.1 ≠ i) : Memory.find m i = none := by
  induction m with
  | nil => rfl
  | cons x m ih =>
    obtain ⟨j, f⟩ := x
    have hj : j ≠ i := h (j, f) (by simp)
    rw [Memory.find_cons, if_neg (Ne.symm hj)]
    exact ih fun y hy => h y (by simp [hy])

/-- In canonical form a slot reads valid exactly when it is listed. -/
theorem Memory.find_eq_some_iff {m : Memory} (hm : Memory.wf m) (i : Nat) (e : Slot) :
    Memory.find m i = some e ↔ (i, e) ∈ m := by
  induction m with
  | nil => simp [Memory.find]
  | cons x m ih =>
    obtain ⟨j, f⟩ := x
    obtain ⟨hx, hm⟩ := List.pairwise_cons.mp hm
    rw [Memory.find_cons]
    by_cases hij : i = j
    · subst hij
      simp only [if_true, Option.some.injEq, List.mem_cons, Prod.mk.injEq, true_and]
      constructor
      · rintro rfl; exact .inl rfl
      · rintro (h | h)
        · exact h.symm
        · exact absurd (hx _ h) (by simp)
    · simp [hij, ih hm]

/-- In canonical form a removed slot is not valid. -/
theorem Memory.find_remove_self {m : Memory} (hm : Memory.wf m) (i : Nat) :
    Memory.find (Memory.remove m i) i = none := by
  induction m with
  | nil => rfl
  | cons x m ih =>
    obtain ⟨j, f⟩ := x
    obtain ⟨hx, hm⟩ := List.pairwise_cons.mp hm
    unfold Memory.remove
    split
    · rename_i hij
      subst hij
      exact Memory.find_eq_none_of_forall_ne fun y hy => Nat.ne_of_gt (hx y hy)
    · rename_i hij
      rw [Memory.find_cons, if_neg hij]
      exact ih hm

/-- What a write lists: the new slot, and entries that were there before. -/
theorem Memory.mem_insert {m : Memory} {i : Nat} {e : Slot} {x : Nat × Slot} (h : x ∈ Memory.insert m i e) :
    x = (i, e) ∨ x ∈ m := by
  induction m with
  | nil => exact .inl (by simpa [Memory.insert] using h)
  | cons y m ih =>
    obtain ⟨j, f⟩ := y
    unfold Memory.insert at h
    split at h
    · rcases List.mem_cons.mp h with h | h
      · exact .inl h
      · exact .inr h
    · split at h
      · rcases List.mem_cons.mp h with h | h
        · exact .inl h
        · exact .inr (by simp [h])
      · rcases List.mem_cons.mp h with h | h
        · exact .inr (by simp [h])
        · rcases ih h with h | h
          · exact .inl h
          · exact .inr (by simp [h])

/-- What a removal lists was listed before. -/
theorem Memory.remove_sublist (m : Memory) (i : Nat) : List.Sublist (Memory.remove m i) m := by
  induction m with
  | nil => exact .slnil
  | cons y m ih =>
    obtain ⟨j, f⟩ := y
    unfold Memory.remove
    split
    · exact .cons _ (.refl m)
    · exact ih.cons_cons _

/-- A write keeps the canonical form. -/
theorem Memory.insert_wf {m : Memory} (hm : Memory.wf m) (i : Nat) (e : Slot) : Memory.wf (Memory.insert m i e) := by
  induction m with
  | nil => simp [Memory.insert]
  | cons y m ih =>
    obtain ⟨j, f⟩ := y
    obtain ⟨hy, hm'⟩ := List.pairwise_cons.mp hm
    unfold Memory.insert
    split
    · rename_i hij
      refine List.pairwise_cons.mpr ⟨fun z hz => ?_, hm⟩
      rcases List.mem_cons.mp hz with rfl | hz
      · exact hij
      · exact Nat.lt_trans hij (hy z hz)
    · split
      · rename_i hij
        subst hij
        exact List.pairwise_cons.mpr ⟨hy, hm'⟩
      · refine List.pairwise_cons.mpr ⟨fun z hz => ?_, ih hm'⟩
        rcases Memory.mem_insert hz with rfl | hz
        · show j < i; omega
        · exact hy z hz

/-- A removal keeps the canonical form. -/
theorem Memory.remove_wf {m : Memory} (hm : Memory.wf m) (i : Nat) : Memory.wf (Memory.remove m i) :=
  hm.sublist (Memory.remove_sublist m i)

/-- A removal of a valid slot shortens the list by one. -/
theorem Memory.length_remove {m : Memory} {i : Nat} {e : Slot} (h : Memory.find m i = some e) :
    (Memory.remove m i).length + 1 = m.length := by
  induction m with
  | nil => simp [Memory.find] at h
  | cons y m ih =>
    obtain ⟨j, f⟩ := y
    unfold Memory.remove
    split
    · rfl
    · rename_i hij
      rw [Memory.find_cons, if_neg hij] at h
      simpa using ih h

/-- A write lengthens the list by at most one. -/
theorem Memory.length_insert_le (m : Memory) (i : Nat) (e : Slot) : (Memory.insert m i e).length ≤ m.length + 1 := by
  induction m with
  | nil => simp [Memory.insert]
  | cons y m ih =>
    obtain ⟨j, f⟩ := y
    unfold Memory.insert
    split
    · simp
    · split
      · simp
      · simpa using ih

/-- In canonical form the entries of a write are the new one and the old ones at other indexes. -/
theorem Memory.mem_insert_iff {m : Memory} (hm : Memory.wf m) {i : Nat} {e : Slot} {x : Nat × Slot} :
    x ∈ Memory.insert m i e ↔ x = (i, e) ∨ (x ∈ m ∧ x.1 ≠ i) := by
  obtain ⟨k, f⟩ := x
  rw [← Memory.find_eq_some_iff (Memory.insert_wf hm i e)]
  by_cases hk : k = i
  · subst hk
    rw [Memory.find_insert_self]
    simp [eq_comm]
  · rw [Memory.find_insert_of_ne m e hk, Memory.find_eq_some_iff hm]
    simp [hk]

/-- In canonical form the entries of a removal are the old ones at other indexes. -/
theorem Memory.mem_remove_iff {m : Memory} (hm : Memory.wf m) {i : Nat} {x : Nat × Slot} :
    x ∈ Memory.remove m i ↔ x ∈ m ∧ x.1 ≠ i := by
  obtain ⟨k, f⟩ := x
  rw [← Memory.find_eq_some_iff (Memory.remove_wf hm i)]
  by_cases hk : k = i
  · subst hk
    rw [Memory.find_remove_self hm]
    simp
  · rw [Memory.find_remove_of_ne m hk, Memory.find_eq_some_iff hm]
    simp [hk]

/-- `MemRead` inside the index space reads the slot. -/
theorem memRead_of_le {S : Nat} {i : Nat} (m : Memory) (h : i ≤ maxSn S) : memRead S m i = .ok (Memory.find m i) := by
  simp [memRead, h]

/-- `MemWrite` inside the index space inserts or removes. -/
theorem memWrite_of_le {S : Nat} {i : Nat} (m : Memory) (v : Option Slot) (h : i ≤ maxSn S) :
    memWrite S m i v = .ok (match v with | some e => Memory.insert m i e | none => Memory.remove m i) := by
  cases v <;> simp [memWrite, h]

/-- Every `MemWrite` that succeeds keeps the canonical form. -/
theorem memWrite_wf {S : Nat} {m m' : Memory} {i : Nat} {v : Option Slot} (hm : Memory.wf m)
    (h : memWrite S m i v = .ok m') : Memory.wf m' := by
  unfold memWrite at h
  split at h
  · split at h
    · cases h; exact Memory.insert_wf hm _ _
    · cases h; exact Memory.remove_wf hm _
  · cases h

/-- The reset contents are in canonical form. -/
theorem reset_memory_wf : Memory.wf State.reset.rxu.rb := List.Pairwise.nil

/-! ### The replay cache (20_memory.md R103) -/

/-- The members after an insert. -/
@[simp] theorem CountSet.mem_insert {rc : CountSet} {c d : Word} : d ∈ CountSet.insert rc c ↔ d = c ∨ d ∈ rc := by
  induction rc with
  | nil => simp [CountSet.insert]
  | cons x rc ih =>
    unfold CountSet.insert
    split
    · simp
    · split
      · rename_i hx; subst hx; simp
      · simp [ih, or_left_comm]

/-- An insert keeps the canonical form. -/
theorem CountSet.insert_wf {rc : CountSet} (h : CountSet.wf rc) (c : Word) : CountSet.wf (CountSet.insert rc c) := by
  induction rc with
  | nil => simp [CountSet.insert]
  | cons x rc ih =>
    obtain ⟨hx, hrc⟩ := List.pairwise_cons.mp h
    unfold CountSet.insert
    split
    · rename_i hcx
      refine List.pairwise_cons.mpr ⟨fun y hy => ?_, h⟩
      rcases List.mem_cons.mp hy with rfl | hy
      · exact hcx
      · exact BitVec.lt_trans hcx (hx y hy)
    · split
      · exact h
      · refine List.pairwise_cons.mpr ⟨fun y hy => ?_, ih hrc⟩
        rcases CountSet.mem_insert.mp hy with hyc | hy
        · rename_i h1 h2
          have h3 : c.toNat ≠ x.toNat := fun h => h2 (BitVec.eq_of_toNat_eq h)
          have h4 : ¬ c.toNat < x.toNat := h1
          rw [hyc]
          show x.toNat < c.toNat
          omega
        · exact hx y hy

/-- The size after the insert of a new member. -/
theorem CountSet.length_insert {rc : CountSet} {c : Word} (h : c ∉ rc) :
    (CountSet.insert rc c).length = rc.length + 1 := by
  induction rc with
  | nil => rfl
  | cons x rc ih =>
    simp only [List.mem_cons, not_or] at h
    unfold CountSet.insert
    split
    · rfl
    · rw [if_neg h.1]
      simp [ih h.2]

/-! ### Fetch -/

/-- With no event left there is nothing to fetch. -/
@[simp] theorem fetch_nil {s : State} (h : s.inbox = []) : fetch s = none := by simp [fetch, h]

/-- The next event is the first of the list. -/
theorem fetch_cons {s : State} {e : Event} {rest : List Event} (h : s.inbox = e :: rest) :
    fetch s = some (e, { s with inbox := rest }) := by simp [fetch, h]

end Sys2Proof.Machine
end

