-- ==== Sys2Proof/Laws/Receiver.lean ====
section
/-! SUPPORT. What the receiver's operations can do, said once for each: count arithmetic, the drain loop, the steps of
RX.RECEIVE. -/

namespace Sys2Proof.Machine

/-! ### Counts (00_scope.md R9, 41_transmitter.md R241) -/

/-- `MAX_SN + 1` is the number of sequence numbers. -/
@[simp] theorem maxSn_add_one (S : Nat) : maxSn S + 1 = 2 ^ S := by
  have : 0 < 2 ^ S := Nat.two_pow_pos S
  unfold maxSn
  omega

/-- A number is at most `MAX_SN` exactly when it is below the number of sequence numbers. -/
theorem le_maxSn_iff (S n : Nat) : n ≤ maxSn S ↔ n < 2 ^ S := by
  rw [← maxSn_add_one]
  omega

/-- A width is at most 31. -/
theorem snWidth_lt (cfg : LinkCfg) : snWidth cfg < 32 := cfg.snbits.isLt

/-- The sequence numbers fit a 32-bit register. -/
theorem two_pow_snWidth_le (cfg : LinkCfg) : 2 ^ snWidth cfg ≤ 2 ^ 31 :=
  Nat.pow_le_pow_right (by decide) (Nat.le_of_lt_succ (snWidth_lt cfg))

/-- The hyper-frame numbers times the sequence numbers are the 32-bit counts. -/
theorem hfnMod_mul (cfg : LinkCfg) : hfnMod (snWidth cfg) * 2 ^ snWidth cfg = 2 ^ 32 := by
  rw [hfnMod, ← Nat.pow_add]
  congr 1
  have := snWidth_lt cfg
  omega

/-- The hyper-frame numbers fit a 32-bit register. -/
theorem hfnMod_le (S : Nat) : hfnMod S ≤ 2 ^ 32 := Nat.pow_le_pow_right (by decide) (Nat.sub_le 32 S)

/-- A hyper-frame number is never reduced modulo 0. -/
theorem hfnMod_pos (S : Nat) : 0 < hfnMod S := Nat.two_pow_pos _

/-- For a sequence number and a hyper-frame number in range the count is `hfn · 2^S + sn`. -/
theorem mkCount_toNat {cfg : LinkCfg} {hfn sn : Word} (hh : hfn.toNat < hfnMod (snWidth cfg))
    (hs : sn.toNat ≤ maxSn (snWidth cfg)) :
    (mkCount (snWidth cfg) hfn sn).toNat = hfn.toNat * 2 ^ snWidth cfg + sn.toNat := by
  rw [le_maxSn_iff] at hs
  have hlt : hfn.toNat * 2 ^ snWidth cfg < 2 ^ 32 := by
    rw [← hfnMod_mul cfg]
    exact Nat.mul_lt_mul_of_pos_right hh (Nat.two_pow_pos _)
  rw [mkCount, BitVec.toNat_or, BitVec.toNat_shiftLeft, Nat.shiftLeft_eq, Nat.mod_eq_of_lt hlt,
    Nat.mul_comm, ← Nat.two_pow_add_eq_or_of_lt hs]

/-- Such a count ends in its sequence number. -/
theorem mkCount_mod {cfg : LinkCfg} {hfn sn : Word} (hh : hfn.toNat < hfnMod (snWidth cfg))
    (hs : sn.toNat ≤ maxSn (snWidth cfg)) :
    (mkCount (snWidth cfg) hfn sn).toNat % 2 ^ snWidth cfg = sn.toNat := by
  rw [mkCount_toNat hh hs, Nat.mul_comm, Nat.mul_add_mod, Nat.mod_eq_of_lt ((le_maxSn_iff _ _).mp hs)]

/-- The estimate of counter reconstruction is a hyper-frame number, if the receiver's own is. -/
theorem estimateHfn_lt {S ref h sn : Nat} (hh : h < hfnMod S) : estimateHfn S ref h sn < hfnMod S := by
  unfold estimateHfn
  split
  · exact hh
  · split
    · exact Nat.mod_lt _ (hfnMod_pos S)
    · split <;> omega

/-- A reconstructed count is the estimate times `2^S` plus the sequence number (42_receiver.md R282). -/
theorem reconstruct_toNat {r : Rxu} {sn : Word} (hh : r.hfnEst.toNat < hfnMod (snWidth r.lcfg))
    (hs : sn.toNat ≤ maxSn (snWidth r.lcfg)) :
    (reconstruct r sn).toNat =
      estimateHfn (snWidth r.lcfg) (reference r) r.hfnEst.toNat sn.toNat * 2 ^ snWidth r.lcfg + sn.toNat := by
  have he := estimateHfn_lt (ref := reference r) (sn := sn.toNat) hh
  have h32 := lt_of_lt_of_le he (hfnMod_le (snWidth r.lcfg))
  have hb : (BitVec.ofNat 32 (estimateHfn (snWidth r.lcfg) (reference r) r.hfnEst.toNat sn.toNat)).toNat =
      estimateHfn (snWidth r.lcfg) (reference r) r.hfnEst.toNat sn.toNat := by
    rw [BitVec.toNat_ofNat, Nat.mod_eq_of_lt h32]
  rw [reconstruct, mkCount_toNat (by rw [hb]; exact he) hs, hb]

/-- A reconstructed count ends in the sequence number. -/
theorem reconstruct_mod {r : Rxu} {sn : Word} (hh : r.hfnEst.toNat < hfnMod (snWidth r.lcfg))
    (hs : sn.toNat ≤ maxSn (snWidth r.lcfg)) : (reconstruct r sn).toNat % 2 ^ snWidth r.lcfg = sn.toNat := by
  rw [reconstruct_toNat hh hs, Nat.mul_comm, Nat.mul_add_mod, Nat.mod_eq_of_lt ((le_maxSn_iff _ _).mp hs)]

/-! ### The drain (42_receiver.md R287) -/

/-- The number expected after a delivery. -/
theorem deliverSlot_neSn_toNat (e : Slot) (m : Memory) (r : Rxu) :
    (deliverSlot e m r).neSn.toNat = (r.neSn.toNat + 1) % 2 ^ snWidth r.lcfg := by
  have h := two_pow_snWidth_le r.lcfg
  have h' := Nat.mod_lt (r.neSn.toNat + 1) (Nat.two_pow_pos (snWidth r.lcfg))
  rw [deliverSlot_neSn, maxSn_add_one, BitVec.toNat_ofNat, Nat.mod_eq_of_lt (by omega)]

/-- The estimate after a delivery. -/
theorem deliverSlot_hfnEst_toNat (e : Slot) (m : Memory) (r : Rxu) :
    (deliverSlot e m r).hfnEst.toNat =
      if r.neSn = 0 ∧ r.ldValid = true ∧ r.ldSn.toNat = maxSn (snWidth r.lcfg) then
        (r.hfnEst.toNat + 1) % hfnMod (snWidth r.lcfg)
      else r.hfnEst.toNat := by
  have h := hfnMod_le (snWidth r.lcfg)
  have h' := Nat.mod_lt (r.hfnEst.toNat + 1) (hfnMod_pos (snWidth r.lcfg))
  rw [deliverSlot_hfnEst]
  split
  · rw [BitVec.toNat_ofNat, Nat.mod_eq_of_lt (by omega)]
  · rfl

/-- The expected number stays in the index space. -/
theorem deliverSlot_neSn_le (e : Slot) (m : Memory) (r : Rxu) :
    (deliverSlot e m r).neSn.toNat ≤ maxSn (snWidth r.lcfg) := by
  rw [deliverSlot_neSn_toNat, le_maxSn_iff]
  exact Nat.mod_lt _ (Nat.two_pow_pos _)

/-- One round of the drain: it stops at an empty slot, faults at an index that is none, meets a full list, or delivers
the slot and goes on. -/
theorem drain_succ (P : Params) (own : Word) (fuel : Nat) (d : Drain) :
    drain P own (fuel + 1) d =
      if d.rxu.neSn.toNat ≤ maxSn (snWidth d.rxu.lcfg) then
        match Memory.find d.rxu.rb d.rxu.neSn.toNat with
        | none => .ok d
        | some e =>
          if atCapacity P.dlCap d.rxu.dl.length then .error .capacity
          else drain P own fuel (drainOne own e (Memory.remove d.rxu.rb d.rxu.neSn.toNat) d)
      else .error (.fault (.slotOutOfRange d.rxu.neSn.toNat)) := by
  conv_lhs => unfold drain
  by_cases h : d.rxu.neSn.toNat ≤ maxSn (snWidth d.rxu.lcfg)
  · rw [if_pos h, memRead_of_le _ h]
    cases hf : Memory.find d.rxu.rb d.rxu.neSn.toNat with
    | none => rfl
    | some e => simp only [memWrite_of_le _ _ h]
  · simp [memRead, h]

/-- What holds before a drain and is kept by each delivery holds after it. -/
theorem drain_induction {P : Params} {own : Word} {M : Drain → Prop}
    (keep : ∀ d e, M d → d.rxu.neSn.toNat ≤ maxSn (snWidth d.rxu.lcfg) →
      Memory.find d.rxu.rb d.rxu.neSn.toNat = some e → atCapacity P.dlCap d.rxu.dl.length = false →
      M (drainOne own e (Memory.remove d.rxu.rb d.rxu.neSn.toNat) d)) :
    ∀ (fuel : Nat) (d d' : Drain), drain P own fuel d = .ok d' → M d → M d' := by
  intro fuel
  induction fuel with
  | zero =>
    intro d d' h hM
    cases h
    exact hM
  | succ fuel ih =>
    intro d d' h hM
    rw [drain_succ] at h
    split at h
    · rename_i hle
      split at h
      · cases h
        exact hM
      · rename_i e he
        split at h
        · cases h
        · rename_i hc
          exact ih _ _ h (keep d e hM hle he (by simpa using hc))
    · cases h

/-- A drain that is given more rounds than there are valid slots ends at an empty slot. -/
theorem drain_ends {P : Params} {own : Word} :
    ∀ (fuel : Nat) (d d' : Drain), drain P own fuel d = .ok d' → d.rxu.rb.length < fuel →
      Memory.find d'.rxu.rb d'.rxu.neSn.toNat = none := by
  intro fuel
  induction fuel with
  | zero => intro d d' _ h; omega
  | succ fuel ih =>
    intro d d' h hl
    rw [drain_succ] at h
    split at h
    · split at h
      · rename_i hn
        cases h
        exact hn
      · rename_i e he
        split at h
        · cases h
        · refine ih _ _ h ?_
          have := Memory.length_remove he
          simp only [drainOne, deliverSlot_rb]
          omega
    · cases h

/-- A drain that starts inside the index space reads no slot outside it. -/
theorem drain_no_fault {P : Params} {own : Word} :
    ∀ (fuel : Nat) (d : Drain), d.rxu.neSn.toNat ≤ maxSn (snWidth d.rxu.lcfg) →
      ∀ f, drain P own fuel d ≠ .error (.fault f) := by
  intro fuel
  induction fuel with
  | zero => intro d _ f h; cases h
  | succ fuel ih =>
    intro d hle f h
    rw [drain_succ, if_pos hle] at h
    split at h
    · cases h
    · split at h
      · cases h
      · exact ih _ (deliverSlot_neSn_le _ _ _) f h

/-- A drain that meets the full delivered list does so at a valid slot, and what each delivery keeps holds there. -/
theorem drain_capacity {P : Params} {own : Word} {M : Drain → Prop}
    (keep : ∀ d e, M d → Memory.find d.rxu.rb d.rxu.neSn.toNat = some e →
      M (drainOne own e (Memory.remove d.rxu.rb d.rxu.neSn.toNat) d)) :
    ∀ (fuel : Nat) (d : Drain), drain P own fuel d = .error .capacity → M d →
      ∃ d' e, M d' ∧ Memory.find d'.rxu.rb d'.rxu.neSn.toNat = some e ∧
        atCapacity P.dlCap d'.rxu.dl.length = true := by
  intro fuel
  induction fuel with
  | zero => intro d h; cases h
  | succ fuel ih =>
    intro d h hM
    rw [drain_succ] at h
    split at h
    · split at h
      · cases h
      · rename_i e he
        split at h
        · rename_i hc
          exact ⟨d, e, hM, he, hc⟩
        · exact ih _ h (keep d e hM he)
    · cases h

/-- A drain that delivered something ends with the delivered list within its capacity. -/
theorem drain_within {P : Params} {own : Word} {fuel : Nat} {r : Rxu} {d : Drain}
    (h : drain P own fuel { rxu := r, ndrain := 0, own := false } = .ok d) :
    d.ndrain = 0 ∨ withinLimit P.dlCap d.rxu.dl.length = true := by
  refine drain_induction (M := fun d => d.ndrain = 0 ∨ withinLimit P.dlCap d.rxu.dl.length = true)
    (fun d e _ _ _ hc => .inr ?_) fuel _ _ h (.inl rfl)
  simpa [drainOne] using (atCapacity_eq_false_iff _ _).mp hc

/-- What a drain has done to a receiver `r` when it has delivered `ndrain` slots, the slots `NE_SN`, `NE_SN + 1`, …
modulo the number of sequence numbers (42_receiver.md R287). -/
structure Drained (own : Word) (r : Rxu) (d : Drain) : Prop where
  shape : d.rxu = { r with
    neSn := d.rxu.neSn, hfnEst := d.rxu.hfnEst, ldValid := d.rxu.ldValid, ldSn := d.rxu.ldSn, rb := d.rxu.rb
    dl := d.rxu.dl, cntSuccess := r.cntSuccess + BitVec.ofNat 32 d.ndrain }
  wf : Memory.wf d.rxu.rb
  bound : d.ndrain ≤ 2 ^ snWidth r.lcfg
  next : d.rxu.neSn.toNat = (r.neSn.toNat + d.ndrain) % 2 ^ snWidth r.lcfg
  length : d.rxu.dl.length = r.dl.length + d.ndrain
  grown : r.dl <+: d.rxu.dl
  delivered : ∀ j < d.ndrain, ∃ e, Memory.find r.rb ((r.neSn.toNat + j) % 2 ^ snWidth r.lcfg) = some e ∧
    d.rxu.dl[r.dl.length + j]? = some { sduId := e.sduId, payload := e.body, count := e.count }
  slots : ∀ i, Memory.find d.rxu.rb i =
    if (∃ j < d.ndrain, i = (r.neSn.toNat + j) % 2 ^ snWidth r.lcfg) then none else Memory.find r.rb i
  none : d.ndrain = 0 → d.rxu.ldValid = r.ldValid ∧ d.rxu.ldSn = r.ldSn
  some : 0 < d.ndrain →
    d.rxu.ldValid = true ∧ d.rxu.ldSn.toNat = (r.neSn.toNat + (d.ndrain - 1)) % 2 ^ snWidth r.lcfg
  estimate : d.rxu.hfnEst.toNat =
    if (∃ j < d.ndrain, (r.neSn.toNat + j) % 2 ^ snWidth r.lcfg = 0 ∧ (r.ldValid = true ∨ 0 < j)) then
      (r.hfnEst.toNat + 1) % hfnMod (snWidth r.lcfg)
    else r.hfnEst.toNat
  own : d.own = decide (∃ j < d.ndrain, (r.neSn.toNat + j) % 2 ^ snWidth r.lcfg = own.toNat)

/-- Two offsets below the modulus that reach the same number are one. -/
theorem offset_inj {a i j m : Nat} (hi : i < m) (hj : j < m) (h : (a + i) % m = (a + j) % m) : i = j := by
  have h' := Nat.ModEq.add_left_cancel' a (show (a + i) ≡ (a + j) [MOD m] from h)
  rwa [Nat.ModEq, Nat.mod_eq_of_lt hi, Nat.mod_eq_of_lt hj] at h'

/-- Before its first delivery a drain has done nothing. -/
theorem Drained.start {own : Word} {r : Rxu} (hne : r.neSn.toNat < 2 ^ snWidth r.lcfg) (hwf : Memory.wf r.rb) :
    Drained own r { rxu := r, ndrain := 0, own := false } := by
  refine ⟨by simp, hwf, by simp, ?_, by simp, List.prefix_rfl, by simp, by simp, by simp, by simp, by simp, by simp⟩
  rw [Nat.add_zero, Nat.mod_eq_of_lt hne]

/-- One more delivery, said of a drain so far: the expected number is in range, and the successor of the last
delivered. -/
theorem Drained.deliver {own : Word} {r : Rxu} {d : Drain} {e : Slot} (h : Drained own r d)
    (hne : r.neSn.toNat < 2 ^ snWidth r.lcfg)
    (hld : r.ldValid = true →
      r.neSn.toNat = (r.ldSn.toNat + 1) % 2 ^ snWidth r.lcfg ∧ r.ldSn.toNat ≤ maxSn (snWidth r.lcfg))
    (he : Memory.find d.rxu.rb d.rxu.neSn.toNat = Option.some e) :
    Drained own r (drainOne own e (Memory.remove d.rxu.rb d.rxu.neSn.toNat) d) := by
  have hS : snWidth d.rxu.lcfg = snWidth r.lcfg := by rw [h.shape]
  have hm := maxSn_add_one (snWidth r.lcfg)
  have hpos : 0 < 2 ^ snWidth r.lcfg := Nat.two_pow_pos _
  have hnd : (drainOne own e (Memory.remove d.rxu.rb d.rxu.neSn.toNat) d).ndrain = d.ndrain + 1 := rfl
  have hnew : ¬ ∃ j < d.ndrain, d.rxu.neSn.toNat = (r.neSn.toNat + j) % 2 ^ snWidth r.lcfg := by
    intro hex
    have := h.slots d.rxu.neSn.toNat
    rw [if_pos hex, he] at this
    cases this
  have hslot : Memory.find r.rb ((r.neSn.toNat + d.ndrain) % 2 ^ snWidth r.lcfg) = Option.some e := by
    have := h.slots d.rxu.neSn.toNat
    rw [if_neg hnew, he, h.next] at this
    exact this.symm
  have hlt : d.ndrain < 2 ^ snWidth r.lcfg := by
    by_contra hge
    have hfull : d.ndrain = 2 ^ snWidth r.lcfg := by
      have := h.bound
      omega
    exact hnew ⟨0, by omega, by rw [h.next, hfull]; simp⟩
  have hzero : d.rxu.neSn = 0 ↔ (r.neSn.toNat + d.ndrain) % 2 ^ snWidth r.lcfg = 0 := by
    rw [← h.next]
    exact ⟨fun hz => by rw [hz]; rfl, fun hz => BitVec.eq_of_toNat_eq hz⟩
  have hwrap : (d.rxu.neSn = 0 ∧ d.rxu.ldValid = true ∧ d.rxu.ldSn.toNat = maxSn (snWidth r.lcfg)) ↔
      ((r.neSn.toNat + d.ndrain) % 2 ^ snWidth r.lcfg = 0 ∧ (r.ldValid = true ∨ 0 < d.ndrain)) := by
    rw [hzero]
    rcases Nat.eq_zero_or_pos d.ndrain with h0 | h0
    · obtain ⟨hv, hs⟩ := h.none h0
      rw [hv, hs, h0]
      constructor
      · rintro ⟨a, b, -⟩
        exact ⟨a, .inl b⟩
      · rintro ⟨a, b | b⟩
        · refine ⟨a, b, ?_⟩
          obtain ⟨hx, hy⟩ := hld b
          rw [Nat.add_zero, Nat.mod_eq_of_lt hne] at a
          rw [a] at hx
          by_contra hc
          rw [Nat.mod_eq_of_lt (by omega)] at hx
          omega
        · omega
    · obtain ⟨hv, hs⟩ := h.some h0
      rw [hv, hs]
      refine and_congr_right fun a => ⟨fun _ => .inr h0, fun _ => ⟨rfl, ?_⟩⟩
      obtain ⟨c, hc⟩ := Nat.dvd_of_mod_eq_zero a
      have hc0 : c ≠ 0 := by
        rintro rfl
        omega
      obtain ⟨c, rfl⟩ := Nat.exists_eq_succ_of_ne_zero hc0
      rw [Nat.mul_succ] at hc
      have hlast : r.neSn.toNat + (d.ndrain - 1) = 2 ^ snWidth r.lcfg * c + maxSn (snWidth r.lcfg) := by omega
      rw [hlast, Nat.mul_add_mod, Nat.mod_eq_of_lt (by omega)]
  refine ⟨?_, Memory.remove_wf h.wf _, by rw [hnd]; exact hlt, ?_, ?_, ?_, ?_, ?_, ?_, ?_, ?_, ?_⟩
  · have hcnt : BitVec.ofNat 32 d.ndrain + 1 = BitVec.ofNat 32 (d.ndrain + 1) := by
      apply BitVec.eq_of_toNat_eq
      simp
    simp only [drainOne]
    rw [h.shape]
    simp only [deliverSlot, bump, BitVec.add_assoc, hcnt]
  · rw [hnd]
    simp only [drainOne]
    rw [deliverSlot_neSn_toNat, hS, h.next, Nat.mod_add_mod, Nat.add_assoc]
  · rw [hnd]
    simp only [drainOne, deliverSlot_dl, List.length_append, h.length, List.length_singleton]
    omega
  · simp only [drainOne, deliverSlot_dl]
    exact h.grown.trans (List.prefix_append _ _)
  · intro j hj
    rw [hnd] at hj
    simp only [drainOne, deliverSlot_dl]
    rcases Nat.lt_succ_iff_lt_or_eq.mp hj with hj | rfl
    · obtain ⟨e', h1, h2⟩ := h.delivered j hj
      exact ⟨e', h1, by rw [List.getElem?_append_left (by rw [h.length]; omega)]; exact h2⟩
    · exact ⟨e, hslot, by rw [List.getElem?_append_right (by rw [h.length]), h.length]; simp⟩
  · intro i
    rw [hnd]
    simp only [drainOne, deliverSlot_rb]
    by_cases hi : i = d.rxu.neSn.toNat
    · rw [hi, Memory.find_remove_self h.wf, if_pos ⟨d.ndrain, by omega, h.next⟩]
    · rw [Memory.find_remove_of_ne _ hi, h.slots]
      congr 1
      refine propext ⟨fun ⟨j, hj, h'⟩ => ⟨j, by omega, h'⟩, fun ⟨j, hj, h'⟩ => ?_⟩
      rcases Nat.lt_succ_iff_lt_or_eq.mp hj with hj | rfl
      · exact ⟨j, hj, h'⟩
      · exact absurd (h'.trans h.next.symm) hi
  · rw [hnd]
    omega
  · rw [hnd]
    intro _
    simp only [drainOne, deliverSlot_ldValid, deliverSlot_ldSn, h.next, Nat.add_sub_cancel, and_self]
  · rw [hnd]
    simp only [drainOne]
    rw [deliverSlot_hfnEst_toNat, hS, h.estimate]
    by_cases hex : ∃ j < d.ndrain, (r.neSn.toNat + j) % 2 ^ snWidth r.lcfg = 0 ∧ (r.ldValid = true ∨ 0 < j)
    · rw [if_pos hex]
      obtain ⟨j, hj, hj0, hj1⟩ := hex
      rw [if_neg, if_pos ⟨j, by omega, hj0, hj1⟩]
      rw [hwrap]
      rintro ⟨a, -⟩
      have := offset_inj (by omega) hlt (hj0.trans a.symm)
      omega
    · rw [if_neg hex]
      by_cases hc : (r.neSn.toNat + d.ndrain) % 2 ^ snWidth r.lcfg = 0 ∧ (r.ldValid = true ∨ 0 < d.ndrain)
      · rw [if_pos (hwrap.mpr hc), if_pos ⟨d.ndrain, by omega, hc⟩]
      · rw [if_neg (fun x => hc (hwrap.mp x)), if_neg]
        rintro ⟨j, hj, hj'⟩
        rcases Nat.lt_succ_iff_lt_or_eq.mp hj with hj | rfl
        · exact hex ⟨j, hj, hj'⟩
        · exact hc hj'
  · rw [hnd]
    simp only [drainOne, h.own]
    rw [Bool.eq_iff_iff]
    simp only [Bool.or_eq_true, decide_eq_true_eq]
    constructor
    · rintro (⟨j, hj, h'⟩ | h')
      · exact ⟨j, by omega, h'⟩
      · exact ⟨d.ndrain, by omega, by rw [← h.next, h']⟩
    · rintro ⟨j, hj, h'⟩
      rcases Nat.lt_succ_iff_lt_or_eq.mp hj with hj | rfl
      · exact .inl ⟨j, hj, h'⟩
      · exact .inr (BitVec.eq_of_toNat_eq (h.next.trans h'))

/-- What the drain loop does to a receiver whose expected number is in range and the successor of the last
delivered (42_receiver.md R287). -/
theorem drain_spec {P : Params} {own : Word} {r : Rxu} {fuel : Nat} {d : Drain}
    (hne : r.neSn.toNat < 2 ^ snWidth r.lcfg) (hwf : Memory.wf r.rb)
    (hld : r.ldValid = true →
      r.neSn.toNat = (r.ldSn.toNat + 1) % 2 ^ snWidth r.lcfg ∧ r.ldSn.toNat ≤ maxSn (snWidth r.lcfg))
    (h : drain P own fuel { rxu := r, ndrain := 0, own := false } = .ok d) : Drained own r d := by
  exact drain_induction (M := Drained own r) (fun d e hd _ he _ => hd.deliver hne hld he) fuel _ _ h (.start hne hwf)

/-- The drain meets the full delivered list exactly when the run of valid slots from `NE_SN` is longer than the room
left in the list; else it completes (42_receiver.md R287, 60_exceptions.md R412). -/
theorem drain_capacity_iff {P : Params} {own : Word} {r : Rxu} {fuel : Nat}
    (hne : r.neSn.toNat < 2 ^ snWidth r.lcfg) (hwf : Memory.wf r.rb)
    (hld : r.ldValid = true →
      r.neSn.toNat = (r.ldSn.toNat + 1) % 2 ^ snWidth r.lcfg ∧ r.ldSn.toNat ≤ maxSn (snWidth r.lcfg))
    (hfuel : r.rb.length < fuel) :
    (drain P own fuel { rxu := r, ndrain := 0, own := false } = .error .capacity ↔
      ∃ cap, P.dlCap = some cap ∧ cap - r.dl.length < 2 ^ snWidth r.lcfg ∧
        ∀ j ≤ cap - r.dl.length, Memory.find r.rb ((r.neSn.toNat + j) % 2 ^ snWidth r.lcfg) ≠ none) ∧
    (drain P own fuel { rxu := r, ndrain := 0, own := false } ≠ .error .capacity →
      ∃ d, drain P own fuel { rxu := r, ndrain := 0, own := false } = .ok d) := by
  have hok : drain P own fuel { rxu := r, ndrain := 0, own := false } ≠ .error .capacity →
      ∃ d, drain P own fuel { rxu := r, ndrain := 0, own := false } = .ok d := by
    intro hn
    cases hd : drain P own fuel { rxu := r, ndrain := 0, own := false } with
    | ok d => exact ⟨d, rfl⟩
    | error why =>
      cases why with
      | capacity => exact absurd hd hn
      | fault f => exact absurd hd (drain_no_fault fuel _ ((le_maxSn_iff _ _).mpr hne) f)
  refine ⟨⟨fun h => ?_, ?_⟩, hok⟩
  · obtain ⟨d, e, hd, he, hc⟩ :=
      drain_capacity (M := Drained own r) (fun d e hd he => hd.deliver hne hld he) fuel _ h
        (.start hne hwf)
    have hnew : ¬ ∃ j < d.ndrain, d.rxu.neSn.toNat = (r.neSn.toNat + j) % 2 ^ snWidth r.lcfg := fun hex => by
      have := hd.slots d.rxu.neSn.toNat
      rw [if_pos hex, he] at this
      cases this
    have hlt : d.ndrain < 2 ^ snWidth r.lcfg := by
      by_contra hge
      have hfull : d.ndrain = 2 ^ snWidth r.lcfg := Nat.le_antisymm hd.bound (not_lt.mp hge)
      exact hnew ⟨0, by rw [hfull]; exact Nat.two_pow_pos _, by rw [hd.next, hfull]; simp⟩
    cases hcap : P.dlCap with
    | none => simp [atCapacity, hcap] at hc
    | some cap =>
      simp only [atCapacity, hcap, hd.length, decide_eq_true_eq] at hc
      refine ⟨cap, rfl, by omega, fun j hj => ?_⟩
      rcases Nat.lt_or_ge j d.ndrain with hjn | hjn
      · obtain ⟨e', h', -⟩ := hd.delivered j hjn
        simp [h']
      · obtain rfl : j = d.ndrain := by omega
        have := hd.slots d.rxu.neSn.toNat
        rw [if_neg hnew, he, hd.next] at this
        simp [← this]
  · rintro ⟨cap, hcap, hlt, hall⟩
    by_contra hn
    obtain ⟨d, hd⟩ := hok hn
    have hD := drain_spec hne hwf hld hd
    have hend := drain_ends fuel _ _ hd hfuel
    rcases Nat.lt_or_ge (cap - r.dl.length) d.ndrain with hj | hj
    · rcases drain_within hd with h0 | hw
      · omega
      · simp only [withinLimit, hcap, hD.length, decide_eq_true_eq] at hw
        omega
    · rw [hD.slots, if_neg, hD.next] at hend
      · exact hall _ hj hend
      · rintro ⟨j, hjn, hj'⟩
        rw [hD.next] at hj'
        have := offset_inj (by omega) (by omega) hj'
        omega

/-! ### Steps 6 and 7 (42_receiver.md R286, R287) -/

/-- For a sequence number in the index space, steps 6 and 7 meet an occupied slot that they may not replace, or write
the slot and drain. -/
theorem bufferAndDrain_eq {P : Params} {p : Pdu} {body : List Byte} {r : Rxu}
    (h : p.sn.toNat ≤ maxSn (snWidth r.lcfg)) :
    bufferAndDrain P p body r =
      if (Memory.find r.rb p.sn.toNat).isSome ∧ P.collision = .fault then .error .capacity
      else
        drain P p.sn ((Memory.insert r.rb p.sn.toNat { sduId := p.sduId, count := p.count, body }).length + 1)
          { rxu := { r with rb := Memory.insert r.rb p.sn.toNat { sduId := p.sduId, count := p.count, body } }
            ndrain := 0, own := false } := by
  simp only [bufferAndDrain, memRead_of_le _ h, memWrite_of_le _ _ h]

/-! ### RX.RECEIVE (42_receiver.md R280) -/

/-- How RX.RECEIVE of a PDU can end: in one of the discards of the fixed step order, in a full replay cache, or in
what steps 6 and 7 do. -/
theorem receive_cases (P : Params) (r : Rxu) (p : Pdu) :
    (p.corrupted = true ∧ receive P r p = discard .discardedChannelCorruption r p) ∨
    (p.corrupted = false ∧
      ((decipher P r.lcfg (reconstruct r p.sn) p.payload = none ∧
        receive P r p = discard .discardedNoKey r { p with count := reconstruct r p.sn }) ∨
      ∃ data, decipher P r.lcfg (reconstruct r p.sn) p.payload = some data ∧
        ((∃ reason, verify P r.lcfg (reconstruct r p.sn) data = .error reason ∧
          receive P r p =
            discard reason r { p with count := reconstruct r p.sn, verified := .verifiedFalse }) ∨
        ∃ body v, verify P r.lcfg (reconstruct r p.sn) data = .ok (body, v) ∧
          receive P r p = acceptPdu P r { p with count := reconstruct r p.sn, verified := v } body))) := by
  cases hc : p.corrupted with
  | true => exact .inl ⟨rfl, by simp [receive, hc]⟩
  | false =>
    refine .inr ⟨rfl, ?_⟩
    cases hd : decipher P r.lcfg (reconstruct r p.sn) p.payload with
    | none => exact .inl ⟨rfl, by simp [receive, hc, hd]⟩
    | some data =>
      refine .inr ⟨data, rfl, ?_⟩
      cases hv : verify P r.lcfg (reconstruct r p.sn) data with
      | error reason => exact .inl ⟨reason, rfl, by simp [receive, hc, hd, hv]⟩
      | ok x =>
        obtain ⟨body, v⟩ := x
        exact .inr ⟨body, v, rfl, by simp [receive, hc, hd, hv]⟩

/-- The reasons that step 4 can give. -/
theorem verify_error {P : Params} {cfg : LinkCfg} {count : Word} {data : List Byte} {reason : Status}
    (h : verify P cfg count data = .error reason) :
    cfg.ien = true ∧ (reason = .discardedIntegrityNoKey ∨ reason = .discardedIntegrityTooShort ∨
      reason = .discardedIntegrityFailure) := by
  unfold verify at h
  split at h
  · rename_i hi
    refine ⟨hi, ?_⟩
    split at h
    · cases h; simp
    · split at h
      · cases h; simp
      · simp only at h
        split at h
        · cases h; simp
        · cases h
  · cases h

/-- How an uncorrupted PDU whose count is settled ends. -/
theorem acceptPdu_cases (P : Params) (r : Rxu) (p : Pdu) (body : List Byte) :
    (p.count ∈ r.rc ∧ acceptPdu P r p body = discard .discardedDuplicate r p) ∨
    (p.count ∉ r.rc ∧ atCapacity P.replayCap r.rc.length = true ∧ acceptPdu P r p body = .stop .capacity) ∨
    (p.count ∉ r.rc ∧ atCapacity P.replayCap r.rc.length = false ∧
      ((∃ why, bufferAndDrain P p body { r with rc := CountSet.insert r.rc p.count } = .error why ∧
        acceptPdu P r p body = .stop why) ∨
      ∃ d, bufferAndDrain P p body { r with rc := CountSet.insert r.rc p.count } = .ok d ∧
        acceptPdu P r p body =
          .accept d.rxu { p with status := if d.own then .delivered else .buffered } d.ndrain)) := by
  by_cases hc : p.count ∈ r.rc
  · exact .inl ⟨hc, by simp [acceptPdu, hc]⟩
  · cases hcap : atCapacity P.replayCap r.rc.length with
    | true => exact .inr (.inl ⟨hc, rfl, by simp [acceptPdu, hc, hcap]⟩)
    | false =>
      refine .inr (.inr ⟨hc, rfl, ?_⟩)
      cases hb : bufferAndDrain P p body { r with rc := CountSet.insert r.rc p.count } with
      | error why => exact .inl ⟨why, rfl, by simp [acceptPdu, hc, hcap, hb]⟩
      | ok d => exact .inr ⟨d, rfl, by simp [acceptPdu, hc, hcap, hb]⟩

/-- How RX.RECEIVE can answer a next state: turned away, discarded, accepted, or a capacity fault. -/
theorem rxReceive_cases {P : Params} {p : Pdu} {s t : State} (h : rxReceive P p s = .next t) :
    (∃ code, t = raiseCmdError .rxReceive code s) ∨
    (s.accepts .rxu ∧ receiveOperandOk P s.rxu p = true ∧
      ((∃ r q, receive P s.rxu p = .discard r q ∧
          t = respondOk .rxReceive (receiveRecord P false q 0) { s with rxu := r }) ∨
        (∃ r q n, receive P s.rxu p = .accept r q n ∧
          t = respondOk .rxReceive (receiveRecord P true q n) { s with rxu := r }) ∨
        (receive P s.rxu p = .stop .capacity ∧ t = raiseCapacity .rxReceive s))) := by
  rcases runCommand_cases h with ⟨code, -, rfl⟩ | ⟨hp, hb⟩
  · exact .inl ⟨code, rfl⟩
  · obtain ⟨ha, hok⟩ := accepts_of_prologue hp rfl
    refine .inr ⟨ha, hok, ?_⟩
    split at hb
    · rename_i r q heq
      cases hb
      exact .inl ⟨r, q, heq, rfl⟩
    · rename_i r q n heq
      cases hb
      exact .inr (.inl ⟨r, q, n, heq, rfl⟩)
    · rename_i heq
      cases hb
      exact .inr (.inr ⟨heq, rfl⟩)
    · cases hb

end Sys2Proof.Machine
end

