-- ==== Sys2Proof/Laws/Transmitter.lean ====
section
/-! SUPPORT. What the transmitter's operations can do: the count a send assigns, the counter's advance, the length of
what it builds, and how TX.SEND can end; the length laws of the cryptographic primitives. -/

namespace Sys2Proof.Machine

/-! ### Lengths (40_crypto.md R200, R201, R203) -/

@[simp] theorem keystream_length (P : Params) (key : List Byte) (count : Word) (bearer : BitVec 5) (dir : BitVec 1)
    (n : Nat) : (keystream P key count bearer dir n).length = n := by simp [keystream]

@[simp] theorem cipher_length (P : Params) (keyPresent : Bool) (key : List Byte) (count : Word) (bearer : BitVec 5)
    (dir : BitVec 1) (x : List Byte) : (cipher P keyPresent key count bearer dir x).length = x.length := by
  cases keyPresent <;> simp [cipher, xorBytes]

@[simp] theorem tagBytes_length (t : Tag) : (tagBytes t).length = 4 := rfl

/-- The payload TX.SEND builds is the operand's, and four bytes more with integrity (41_transmitter.md R243). -/
theorem txWire_length (P : Params) (t : Txu) (payload : List Byte) :
    (txWire P t payload).length = payload.length + if t.lcfg.ien then 4 else 0 := by
  cases hc : t.lcfg.cen <;> cases hi : t.lcfg.ien <;> simp [txWire, txPlain, txTag, optionalTagBytes, hc, hi]

/-! ### The counter (41_transmitter.md R241, R245) -/

/-- The count TX.SEND assigns, in numbers. -/
theorem txCount_toNat {P : Params} {t : Txu} (h : t.Inv P) (hr : t.life = .ready) :
    (txCount t).toNat = t.hfn.toNat * 2 ^ snWidth t.lcfg + t.sn.toNat :=
  mkCount_toNat (h.hfnBound hr) (h.snBound hr)

/-- The counter after a send, in numbers: the next sequence number, or 0 and the next hyper-frame number. -/
theorem advanceCounter_toNat {P : Params} {t : Txu} (h : t.Inv P) (hr : t.life = .ready) :
    (advanceCounter t).sn.toNat = (if t.sn.toNat = maxSn (snWidth t.lcfg) then 0 else t.sn.toNat + 1) ∧
    (advanceCounter t).hfn.toNat =
      if t.sn.toNat = maxSn (snWidth t.lcfg) then (t.hfn.toNat + 1) % hfnMod (snWidth t.lcfg) else t.hfn.toNat := by
  have hb := h.snBound hr
  have hle := two_pow_snWidth_le t.lcfg
  have hlt := (le_maxSn_iff _ _).mp hb
  by_cases he : t.sn.toNat = maxSn (snWidth t.lcfg)
  · have hm := Nat.mod_lt (t.hfn.toNat + 1) (hfnMod_pos (snWidth t.lcfg))
    have hm' := hfnMod_le (snWidth t.lcfg)
    have hs : t.sn.toNat + 1 > maxSn (snWidth t.lcfg) := by omega
    rw [advanceCounter, if_pos hs, if_pos he, if_pos he]
    exact ⟨rfl, by rw [BitVec.toNat_ofNat, Nat.mod_eq_of_lt (by omega)]⟩
  · have hs : ¬ t.sn.toNat + 1 > maxSn (snWidth t.lcfg) := by omega
    rw [advanceCounter, if_neg hs, if_neg he, if_neg he]
    refine ⟨?_, rfl⟩
    rw [BitVec.toNat_add, Nat.mod_eq_of_lt (by simp; omega)]
    rfl

/-- A send keeps the transmitter's invariant. -/
theorem advanceCounter_inv {P : Params} {t : Txu} (h : t.Inv P) (hr : t.life = .ready) : (advanceCounter t).Inv P := by
  obtain ⟨hs, hh⟩ := advanceCounter_toNat h hr
  have hb := h.snBound hr
  have hb' := h.hfnBound hr
  have hp := hfnMod_pos (snWidth t.lcfg)
  refine ⟨fun hn => absurd (by simpa using hr) hn, fun _ => by simpa using h.legal hr, fun _ => ?_, fun _ => ?_⟩
  · rw [hs, advanceCounter_lcfg]
    split <;> omega
  · rw [hh, advanceCounter_lcfg]
    split
    · exact Nat.mod_lt _ hp
    · exact hb'

/-! ### TX.SEND (41_transmitter.md R240) -/

/-- On a configured transmitter with legal operands TX.SEND builds its PDU, answers it, and advances the counter. -/
theorem txSend_ready {P : Params} {sduId : Word} {payload : List Byte} {s : State} (hr : s.txu.life = .ready)
    (hok : sendOperandOk P s.txu payload = true) :
    txSend P sduId payload s =
      .next (respondOk .txSend (pduRecord P (txPdu P s.txu sduId payload)) { s with txu := advanceCounter s.txu }) :=
  runCommand_accepts _ rfl ⟨hr, rfl⟩ hok

/-- How TX.SEND can answer a next state: turned away, or the PDU and the advanced counter. -/
theorem txSend_cases {P : Params} {sduId : Word} {payload : List Byte} {s t : State}
    (h : txSend P sduId payload s = .next t) :
    (∃ code, t = raiseCmdError .txSend code s) ∨
    (s.txu.life = .ready ∧ sendOperandOk P s.txu payload = true ∧
      t = respondOk .txSend (pduRecord P (txPdu P s.txu sduId payload)) { s with txu := advanceCounter s.txu }) := by
  rcases runCommand_cases h with ⟨code, -, rfl⟩ | ⟨hp, hb⟩
  · exact .inl ⟨code, rfl⟩
  · obtain ⟨ha, hok⟩ := accepts_of_prologue hp rfl
    cases hb
    exact .inr ⟨ha.1, hok, rfl⟩

/-! ### Configuration (41_transmitter.md R230, 42_receiver.md R260, 43_channel.md R340) -/

/-- How TX.CONFIG can answer a next state: turned away, a configured unit, or a configuration error. -/
theorem txConfig_cases {P : Params} {cfg : LinkCfg} {s t : State} (h : txConfig P cfg s = .next t) :
    (∃ code, t = raiseCmdError .txConfig code s) ∨
    (s.txu.life = .unconfigured ∧
      ((legalLink P cfg ∧ t = respondOk .txConfig [] { s with txu := configuredTxu P cfg }) ∨
        (cfgLegal P cfg = false ∧ t = raiseConfigError .txConfig s))) := by
  rcases runCommand_cases h with ⟨code, -, rfl⟩ | ⟨hp, hb⟩
  · exact .inl ⟨code, rfl⟩
  · obtain ⟨hl, -, hok⟩ := unconfigured_of_prologue hp rfl
    refine .inr ⟨hl, ?_⟩
    split at hb
    · rename_i hc
      cases hb
      exact .inl ⟨⟨hc, hok⟩, rfl⟩
    · rename_i hc
      cases hb
      exact .inr ⟨by simpa using hc, rfl⟩

/-- How RX.CONFIG can answer a next state: turned away, a configured unit, or a configuration error. -/
theorem rxConfig_cases {P : Params} {cfg : LinkCfg} {s t : State} (h : rxConfig P cfg s = .next t) :
    (∃ code, t = raiseCmdError .rxConfig code s) ∨
    (s.rxu.life = .unconfigured ∧ s.rxu.fault = false ∧
      ((legalLink P cfg ∧ t = respondOk .rxConfig [] { s with rxu := configuredRxu P cfg s.rxu }) ∨
        (cfgLegal P cfg = false ∧ t = raiseConfigError .rxConfig s))) := by
  rcases runCommand_cases h with ⟨code, -, rfl⟩ | ⟨hp, hb⟩
  · exact .inl ⟨code, rfl⟩
  · obtain ⟨hl, hf, hok⟩ := unconfigured_of_prologue hp rfl
    refine .inr ⟨hl, hf, ?_⟩
    split at hb
    · rename_i hc
      cases hb
      exact .inl ⟨⟨hc, hok⟩, rfl⟩
    · rename_i hc
      cases hb
      exact .inr ⟨by simpa using hc, rfl⟩

/-- How CH.CONFIG can answer a next state: turned away, a configured unit, or a configuration error. -/
theorem execChConfig_cases {cfg : ChannelCfg} {s t : State} (h : execChConfig cfg s = .next t) :
    (∃ code, t = raiseCmdError .chConfig code s) ∨
    (s.chu.life = .unconfigured ∧ s.chu.fault = false ∧
      ((ratesLegal cfg = true ∧ t = respondOk .chConfig [] { s with chu := configuredChu cfg s.chu }) ∨
        (ratesLegal cfg = false ∧ t = raiseConfigError .chConfig s))) := by
  rcases runCommand_cases h with ⟨code, -, rfl⟩ | ⟨hp, hb⟩
  · exact .inl ⟨code, rfl⟩
  · obtain ⟨hl, hf, -⟩ := unconfigured_of_prologue hp rfl
    refine .inr ⟨hl, hf, ?_⟩
    split at hb
    · rename_i hc
      cases hb
      exact .inl ⟨hc, rfl⟩
    · rename_i hc
      cases hb
      exact .inr ⟨by simpa using hc, rfl⟩

end Sys2Proof.Machine
end

