-- ==== Sys2Proof/Laws/Channel.lean ====
section
/-! SUPPORT. What the channel's operations can do: the draws, the impairments of one PDU, the appends to the delay
buffer, and how CH.TRANSMIT and CH.FLUSH can end. -/

namespace Sys2Proof.Machine

/-! ### Draws (43_channel.md R331 to R336) -/

@[simp] theorem rollOf_zero (raw : Nat) : rollOf 0#17 raw = false := rfl

@[simp] theorem rollOf_full (raw : Nat) : rollOf 65536#17 raw = true := rfl

/-- What a raw value reads is a rearrangement of the list. -/
theorem permuteOf_perm {α : Type} (m raw : Nat) (xs : List α) (h : xs.length = m) : (permuteOf m raw xs).Perm xs := by
  induction m generalizing raw xs with
  | zero =>
    obtain rfl := List.length_eq_zero_iff.mp h
    exact .nil
  | succ m ih =>
    have hlt : raw % xs.length < xs.length := Nat.mod_lt _ (by omega)
    rw [permuteOf, List.getElem?_eq_getElem hlt]
    refine .trans (.cons _ (ih _ _ ?_)) (List.getElem_cons_eraseIdx_perm hlt)
    rw [List.length_eraseIdx_of_lt hlt]
    omega

/-- The shuffle of a list is a rearrangement of it (43_channel.md R336). -/
theorem shuffleOf_perm {α : Type} (xs : List α) (raw : Nat) : (shuffleOf xs raw).Perm xs :=
  permuteOf_perm _ _ _ rfl

/-- The pairs read for a tamper draw: as many as asked for, at distinct positions of the list, none with the mask 0
(43_channel.md R333). -/
theorem tamperPairs_spec (k raw : Nat) (positions : List Nat) (hk : k ≤ positions.length) (hd : positions.Nodup) :
    (tamperPairs k raw positions).length = k ∧ ((tamperPairs k raw positions).map Prod.fst).Nodup ∧
      ∀ d ∈ tamperPairs k raw positions, d.1 ∈ positions ∧ d.2 ≠ 0 := by
  induction k generalizing raw positions with
  | zero => simp [tamperPairs]
  | succ k ih =>
    have hlt : raw % positions.length < positions.length := Nat.mod_lt _ (by omega)
    have hp := List.getElem_cons_eraseIdx_perm hlt
    have hd' := hp.nodup_iff.mpr hd
    rw [List.nodup_cons] at hd'
    have hl : k ≤ (positions.eraseIdx (raw % positions.length)).length := by
      rw [List.length_eraseIdx_of_lt hlt]
      omega
    obtain ⟨h1, h2, h3⟩ := ih (raw / positions.length / 255) _ hl hd'.2
    rw [tamperPairs, List.getElem?_eq_getElem hlt]
    refine ⟨by simp [h1], ?_, ?_⟩
    · rw [List.map_cons, List.nodup_cons]
      refine ⟨fun hm => ?_, h2⟩
      obtain ⟨d, hdm, hde⟩ := List.mem_map.mp hm
      have hmem := (h3 d hdm).1
      rw [hde] at hmem
      exact hd'.1 hmem
    · intro d hdm
      rcases List.mem_cons.mp hdm with rfl | hdm
      · refine ⟨List.getElem_mem hlt, fun h0 => ?_⟩
        have h0' := congrArg BitVec.toNat h0
        have := Nat.mod_lt (raw / positions.length) (by decide : 0 < 255)
        simp only [BitVec.toNat_ofNat, BitVec.ofNat_eq_ofNat, Nat.reducePow, Nat.zero_mod] at h0'
        omega
      · exact ⟨List.mem_of_mem_eraseIdx (h3 d hdm).1, (h3 d hdm).2⟩

/-- A delay draw is at least 1 and at most `MAXD` (43_channel.md R335). -/
theorem delayOf_range {maxd : BitVec 16} (h : maxd ≠ 0) (raw : Nat) :
    1 ≤ (delayOf maxd raw).toNat ∧ (delayOf maxd raw).toNat ≤ maxd.toNat := by
  have h0 : 0 < maxd.toNat := Nat.pos_of_ne_zero fun h0 => h (BitVec.eq_of_toNat_eq h0)
  have hm := Nat.mod_lt raw h0
  have hlt := maxd.isLt
  rw [delayOf, BitVec.toNat_ofNat, Nat.mod_eq_of_lt (by omega)]
  omega

/-! ### The impairments of one PDU (43_channel.md R352 to R354) -/

@[simp] theorem xorAt_length (bytes : List Byte) (pos : Nat) (mask : Byte) :
    (xorAt bytes pos mask).length = bytes.length := by simp [xorAt]

@[simp] theorem tamperPdu_length (raw : Nat) (p : Pdu) : (tamperPdu raw p).payload.length = p.payload.length := by
  have h : ∀ (ds : List (Nat × Byte)) (bytes : List Byte),
      (ds.foldl (fun bytes d => xorAt bytes d.1 d.2) bytes).length = bytes.length := by
    intro ds
    induction ds with
    | nil => intro bytes; rfl
    | cons d ds ih => intro bytes; rw [List.foldl_cons, ih, xorAt_length]
  exact h _ _

@[simp] theorem corruptPdu_length (raw : Nat) (p : Pdu) : (corruptPdu raw p).payload.length = p.payload.length := by
  simp only [corruptPdu]
  split <;> simp

/-- A roll that triggers is not at rate 0. -/
theorem ne_zero_of_rollOf {rate : BitVec 17} {raw : Nat} (h : rollOf rate raw = true) : rate ≠ 0 := by
  rintro rfl
  cases h

/-- A roll that does not trigger is not at rate 65536. -/
theorem ne_full_of_rollOf {rate : BitVec 17} {raw : Nat} (h : rollOf rate raw = false) : rate ≠ 65536 := by
  rintro rfl
  cases h

/-- Steps 2 and 3 do to a PDU what the rules allow at the rates. -/
theorem impair_impaired (P : Params) (c : Chu) (ix : Nat) (p : Pdu) : Impaired c p (impair P c ix p).1 := by
  simp only [impair, tamperStep]
  cases ht : rollOf c.rateTamper (P.draw ix) with
  | true => exact .inr (.inl ⟨ne_zero_of_rollOf ht, P.draw (ix + 1), by simp [corruptStep]⟩)
  | false =>
    cases hc : rollOf c.rateCorrupt (P.draw (ix + 1)) with
    | true =>
      exact .inr (.inr ⟨ne_full_of_rollOf ht, ne_zero_of_rollOf hc, P.draw (ix + 1 + 1), by simp [hc, corruptStep]⟩)
    | false => exact .inl ⟨ne_full_of_rollOf ht, ne_full_of_rollOf hc, by simp [hc, corruptStep]⟩

/-- Steps 2 and 3 keep what identifies a PDU, the length of its payload, and every flag it had. -/
theorem Impaired.keeps {c : Chu} {p q : Pdu} (h : Impaired c p q) :
    q.sduId = p.sduId ∧ q.sn = p.sn ∧ q.count = p.count ∧ q.hfn = p.hfn ∧ q.tag = p.tag ∧ q.verified = p.verified ∧
      q.payload.length = p.payload.length ∧ (p.corrupted = true → q.corrupted = true) ∧
      (p.tampered = true → q.tampered = true) := by
  rcases h with ⟨-, -, rfl⟩ | ⟨-, raw, rfl⟩ | ⟨-, -, raw, rfl⟩
  · simp
  · refine ⟨rfl, rfl, rfl, rfl, rfl, rfl, tamperPdu_length raw _, id, fun _ => rfl⟩
  · refine ⟨rfl, rfl, rfl, rfl, rfl, rfl, corruptPdu_length raw _, fun _ => rfl, id⟩

/-! ### CH.TRANSMIT (43_channel.md R350) -/

/-- The delay of a PDU is what the rules allow at the rate and `MAXD` (43_channel.md R356). -/
theorem delayStep_spec (P : Params) (rate : BitVec 17) (maxd : BitVec 16) (ix : Nat) :
    (rate = 0 ∨ maxd = 0 → (delayStep P rate maxd ix).1 = 0) ∧
      (rate = 65536 → maxd ≠ 0 → (delayStep P rate maxd ix).1 ≠ 0) ∧
      (delayStep P rate maxd ix).1.toNat ≤ maxd.toNat := by
  unfold delayStep
  split
  · rename_i h
    obtain ⟨h1, h2⟩ := delayOf_range h.2 (P.draw (ix + 1))
    refine ⟨fun h' => absurd h' (not_or.mpr ⟨ne_zero_of_rollOf h.1, h.2⟩), fun _ _ h0 => ?_, h2⟩
    rw [show delayOf maxd (P.draw (ix + 1)) = 0 from h0] at h1
    exact absurd h1 (by decide)
  · rename_i h
    refine ⟨fun _ => rfl, ?_, by simp⟩
    rintro rfl hm
    exact absurd ⟨rfl, hm⟩ h

/-- What one input PDU can do to the delay buffer: nothing, where it is lost; or it is impaired and appended, after a
clone where it is duplicated. An append beyond `DB_CAP` is noted. -/
theorem transmitOne_cases (P : Params) (c : Chu) (t : Transit) (p : Pdu) :
    (c.rateLoss ≠ 0 ∧ transmitOne P c t p = { t with ix := t.ix + 1 }) ∨
    (c.rateLoss ≠ 65536 ∧ ∃ (q : Pdu) (entries : List DbEntry) (ix : Nat), Impaired c p q ∧ EnqueuedAs c q entries ∧
      transmitOne P c t p =
        { db := t.db ++ entries
          overflow := t.overflow || !withinLimit P.dbCap (t.db.length + entries.length)
          ix }) := by
  cases hl : rollOf c.rateLoss (P.draw t.ix) with
  | true => exact .inl ⟨ne_zero_of_rollOf hl, by simp [transmitOne, hl]⟩
  | false =>
    have hcap : ∀ n, atCapacity P.dbCap n = !withinLimit P.dbCap (n + 1) := by
      intro n
      have := atCapacity_eq_false_iff P.dbCap n
      cases ha : atCapacity P.dbCap n <;> cases hw : withinLimit P.dbCap (n + 1) <;> simp_all
    have hmono : withinLimit P.dbCap (t.db.length + 1) = false → withinLimit P.dbCap (t.db.length + 2) = false := by
      intro h
      by_contra hne
      have := withinLimit_mono (by simpa using hne) (Nat.le_succ (t.db.length + 1))
      simp [h] at this
    obtain ⟨h1, h2, h3⟩ := delayStep_spec P c.rateReorder c.maxd ((impair P c (t.ix + 1) p).2 + 1)
    refine .inr ⟨ne_full_of_rollOf hl, (impair P c (t.ix + 1) p).1, _,
      (delayStep P c.rateReorder c.maxd ((impair P c (t.ix + 1) p).2 + 1)).2, impair_impaired _ _ _ _,
      ⟨rollOf c.rateDup (P.draw (impair P c (t.ix + 1) p).2), _, rfl, ?_, ?_, h1, h2, h3⟩, ?_⟩
    · intro h
      rw [h]
      rfl
    · intro h
      rw [h]
      rfl
    · simp only [transmitOne, hl, Bool.false_eq_true, if_false, enqueueStep, dupStep]
      cases hd : rollOf c.rateDup (P.draw (impair P c (t.ix + 1) p).2) with
      | true =>
        simp only [if_true, enqueue, hcap, List.append_assoc, List.length_append, List.length_singleton, Bool.or_assoc]
        congr 2
        cases h1 : withinLimit P.dbCap (t.db.length + 1)
        · simp [hmono h1]
        · simp
      | false => simp [enqueue, hcap]

/-- A fold of transmitted PDUs keeps what each of them keeps. -/
theorem transmitAll_induction {P : Params} {c : Chu} {M : Transit → Prop} (ps : List Pdu)
    (keep : ∀ t, ∀ p ∈ ps, M t → M (transmitOne P c t p)) (t : Transit) (h : M t) : M (ps.foldl (transmitOne P c) t) := by
  induction ps generalizing t with
  | nil => exact h
  | cons p ps ih =>
    exact ih (fun t q hq => keep t q (List.mem_cons_of_mem _ hq)) _ (keep t p List.mem_cons_self h)

/-- A transmit notes an append beyond `DB_CAP` exactly when the delay buffer ends above it, if it began within it. -/
theorem transmitAll_overflow {P : Params} {c : Chu} {ix : Nat} {ps : List Pdu}
    (h : withinLimit P.dbCap c.db.length = true) :
    (transmitAll P c ix ps).overflow = !withinLimit P.dbCap (transmitAll P c ix ps).db.length := by
  refine transmitAll_induction (M := fun t => t.overflow = !withinLimit P.dbCap t.db.length) ps ?_ _ (by simp [h])
  intro t p _ ht
  rcases transmitOne_cases P c t p with ⟨-, he⟩ | ⟨-, q, entries, ix', -, -, he⟩
  · simp [he, ht]
  · have hmono : withinLimit P.dbCap t.db.length = false →
        withinLimit P.dbCap (t.db.length + entries.length) = false := by
      intro h0
      by_contra hne
      have := withinLimit_mono (by simpa using hne) (Nat.le_add_right t.db.length entries.length)
      simp [h0] at this
    rw [he]
    cases hw : withinLimit P.dbCap t.db.length <;> simp [ht, hw, hmono]

/-- A transmit appends to the delay buffer, for each input PDU in order, entries that are a fate of it. -/
theorem transmitAll_fates (P : Params) (c : Chu) (ix : Nat) (ps : List Pdu) :
    ∃ fates : List (List DbEntry), List.Forall₂ (ChannelFate c) ps fates ∧
      (transmitAll P c ix ps).db = c.db ++ fates.flatten := by
  have h : ∀ (ps : List Pdu) (t : Transit), ∃ fates : List (List DbEntry), List.Forall₂ (ChannelFate c) ps fates ∧
      (ps.foldl (transmitOne P c) t).db = t.db ++ fates.flatten := by
    intro ps
    induction ps with
    | nil => exact fun t => ⟨[], .nil, by simp⟩
    | cons p ps ih =>
      intro t
      obtain ⟨fates, hf, hdb⟩ := ih (transmitOne P c t p)
      rcases transmitOne_cases P c t p with ⟨hl, he⟩ | ⟨hl, q, entries, ix', hq, hen, he⟩
      · exact ⟨[] :: fates, .cons (.inl ⟨hl, rfl⟩) hf, by rw [List.foldl_cons, hdb, he]; rfl⟩
      · refine ⟨entries :: fates, .cons (.inr ⟨hl, q, hq, hen⟩) hf, ?_⟩
        rw [List.foldl_cons, hdb, he, List.flatten_cons, List.append_assoc]
  exact h ps _

/-- Every entry released or kept stood in the delay buffer; a kept delay is one less (43_channel.md R357). -/
theorem released_append_kept (db : List DbEntry) :
    (released db ++ (keptDelayed db).map DbEntry.pdu).Perm (db.map DbEntry.pdu) := by
  have h := (List.filter_append_perm (fun e : DbEntry => decide (e.delay = 0)) db).map DbEntry.pdu
  simpa [released, keptDelayed, List.map_append, List.map_map, Function.comp_def, decide_not] using h

/-- How CH.TRANSMIT can answer a next state: turned away, a capacity fault, or the release. -/
theorem chTransmit_cases {P : Params} {ps : List Pdu} {s t : State} (h : chTransmit P ps s = .next t) :
    (∃ code, t = raiseCmdError .chTransmit code s) ∨
    (s.accepts .chu ∧ transmitOperandOk P ps = true ∧
      (((transmitAll P s.chu s.drawIx ps).overflow = true ∧
          t = raiseCapacity .chTransmit { s with drawIx := (transmitAll P s.chu s.drawIx ps).ix }) ∨
        ((transmitAll P s.chu s.drawIx ps).overflow = false ∧
          t = respondOk .chTransmit
            (pduListRecord P (shuffleOf (released (transmitAll P s.chu s.drawIx ps).db)
              (P.draw (transmitAll P s.chu s.drawIx ps).ix)))
            { s with
              chu := { s.chu with db := keptDelayed (transmitAll P s.chu s.drawIx ps).db }
              drawIx := (transmitAll P s.chu s.drawIx ps).ix + 1 }))) := by
  rcases runCommand_cases h with ⟨code, -, rfl⟩ | ⟨hp, hb⟩
  · exact .inl ⟨code, rfl⟩
  · obtain ⟨ha, hok⟩ := accepts_of_prologue hp rfl
    refine .inr ⟨ha, hok, ?_⟩
    simp only at hb
    split at hb
    · rename_i ho
      cases hb
      exact .inl ⟨ho, rfl⟩
    · rename_i ho
      cases hb
      exact .inr ⟨by simpa using ho, rfl⟩

/-- An accepted CH.TRANSMIT is its body. -/
theorem chTransmit_accepts {P : Params} {ps : List Pdu} {s : State} (ha : s.accepts .chu)
    (hok : transmitOperandOk P ps = true) :
    chTransmit P ps s =
      if (transmitAll P s.chu s.drawIx ps).overflow then
        .next (raiseCapacity .chTransmit { s with drawIx := (transmitAll P s.chu s.drawIx ps).ix })
      else
        .next (respondOk .chTransmit
          (pduListRecord P (shuffleOf (released (transmitAll P s.chu s.drawIx ps).db)
            (P.draw (transmitAll P s.chu s.drawIx ps).ix)))
          { s with
            chu := { s.chu with db := keptDelayed (transmitAll P s.chu s.drawIx ps).db }
            drawIx := (transmitAll P s.chu s.drawIx ps).ix + 1 }) :=
  runCommand_accepts _ rfl ha hok

/-! ### CH.FLUSH (43_channel.md R360) -/

/-- How CH.FLUSH can answer a next state: turned away, or the whole delay buffer. -/
theorem chFlush_cases {P : Params} {s t : State} (h : chFlush P s = .next t) :
    (∃ code, t = raiseCmdError .chFlush code s) ∨
    (s.accepts .chu ∧
      t = respondOk .chFlush (pduListRecord P (shuffleOf (s.chu.db.map DbEntry.pdu) (P.draw s.drawIx)))
        { s with chu := { s.chu with db := [] }, drawIx := s.drawIx + 1 }) := by
  rcases runCommand_cases h with ⟨code, -, rfl⟩ | ⟨hp, hb⟩
  · exact .inl ⟨code, rfl⟩
  · obtain ⟨ha, -⟩ := accepts_of_prologue hp rfl
    cases hb
    exact .inr ⟨ha, rfl⟩

end Sys2Proof.Machine
end

