-- ==== Sys2Proof/Laws/Encoding.lean ====
section
/-! SUPPORT. The encoding tables bit by bit: words and bytes, the byte strings of a record, the fields of the `CFG`
word and of the flags word. What a decoder reads from each written field, and that it reads nothing else. -/

namespace Sys2Proof

/-! ### Words and bytes (20_memory.md R108) -/

/-- The four bytes of a word of four bytes. -/
@[simp] theorem wordByte_byteWord (a b c d : Byte) :
    wordByte (byteWord a b c d) 0 = a ∧ wordByte (byteWord a b c d) 1 = b ∧ wordByte (byteWord a b c d) 2 = c ∧
      wordByte (byteWord a b c d) 3 = d := by
  refine ⟨?_, ?_, ?_, ?_⟩ <;>
  · apply BitVec.eq_of_getLsbD_eq
    intro i hi
    simp only [wordByte, byteWord, BitVec.getLsbD_append, BitVec.getLsbD_extractLsb']
    interval_cases i <;> simp

@[simp] theorem wordByte_zero (a b c d : Byte) : wordByte (byteWord a b c d) 0 = a := (wordByte_byteWord a b c d).1
@[simp] theorem wordByte_one (a b c d : Byte) : wordByte (byteWord a b c d) 1 = b := (wordByte_byteWord a b c d).2.1
@[simp] theorem wordByte_two (a b c d : Byte) : wordByte (byteWord a b c d) 2 = c := (wordByte_byteWord a b c d).2.2.1
@[simp] theorem wordByte_three (a b c d : Byte) : wordByte (byteWord a b c d) 3 = d :=
  (wordByte_byteWord a b c d).2.2.2

/-- A word is the word of its four bytes. -/
theorem byteWord_wordByte (w : Word) : byteWord (wordByte w 0) (wordByte w 1) (wordByte w 2) (wordByte w 3) = w := by
  apply BitVec.eq_of_getLsbD_eq
  intro i hi
  simp only [byteWord, wordByte, BitVec.getLsbD_append, BitVec.getLsbD_extractLsb']
  interval_cases i <;> simp

/-- A field of bits that is 0 has every bit 0. -/
theorem getLsbD_of_field_eq_zero {w : Word} {lo len : Nat} (h : w.extractLsb' lo len = 0) (i : Nat) (hi : i < len) :
    w.getLsbD (lo + i) = false := by
  have := congrArg (fun v => v.getLsbD i) h
  simpa [hi] using this

/-- A field of bits all of which are 0 is 0. -/
theorem field_eq_zero {w : Word} {lo len : Nat} (h : ∀ i < len, w.getLsbD (lo + i) = false) :
    w.extractLsb' lo len = 0 := by
  apply BitVec.eq_of_getLsbD_eq
  intro i hi
  simp [hi, h i hi]

/-- The pad of a word of one byte is 0, and a word whose pad is 0 is the word of its first byte. -/
theorem pad_one (w : Word) : w.extractLsb' 0 24 = 0 ↔ w = byteWord (wordByte w 0) 0 0 0 := by
  constructor
  · intro h
    have h' := getLsbD_of_field_eq_zero h
    apply BitVec.eq_of_getLsbD_eq
    intro i hi
    simp only [byteWord, wordByte, BitVec.getLsbD_append, BitVec.getLsbD_extractLsb']
    by_cases hlt : i < 24
    · have := h' i hlt
      simp only [Nat.zero_add] at this
      rw [this]
      interval_cases i <;> simp
    · interval_cases i <;> simp_all
  · intro h
    rw [h]
    apply field_eq_zero
    intro i hi
    simp only [byteWord, BitVec.getLsbD_append]
    interval_cases i <;> simp

/-- The same for two bytes. -/
theorem pad_two (w : Word) : w.extractLsb' 0 16 = 0 ↔ w = byteWord (wordByte w 0) (wordByte w 1) 0 0 := by
  constructor
  · intro h
    have h' := getLsbD_of_field_eq_zero h
    apply BitVec.eq_of_getLsbD_eq
    intro i hi
    simp only [byteWord, wordByte, BitVec.getLsbD_append, BitVec.getLsbD_extractLsb']
    by_cases hlt : i < 16
    · have := h' i hlt
      simp only [Nat.zero_add] at this
      rw [this]
      interval_cases i <;> simp
    · interval_cases i <;> simp_all
  · intro h
    rw [h]
    apply field_eq_zero
    intro i hi
    simp only [byteWord, BitVec.getLsbD_append]
    interval_cases i <;> simp

/-- The same for three bytes. -/
theorem pad_three (w : Word) :
    w.extractLsb' 0 8 = 0 ↔ w = byteWord (wordByte w 0) (wordByte w 1) (wordByte w 2) 0 := by
  constructor
  · intro h
    have h' := getLsbD_of_field_eq_zero h
    apply BitVec.eq_of_getLsbD_eq
    intro i hi
    simp only [byteWord, wordByte, BitVec.getLsbD_append, BitVec.getLsbD_extractLsb']
    by_cases hlt : i < 8
    · have := h' i hlt
      simp only [Nat.zero_add] at this
      rw [this]
      interval_cases i <;> simp
    · interval_cases i <;> simp_all
  · intro h
    rw [h]
    apply field_eq_zero
    intro i hi
    simp only [byteWord, BitVec.getLsbD_append]
    interval_cases i <;> simp

@[simp] theorem pad_byteWord_one (a : Byte) : (byteWord a 0#8 0#8 0#8).extractLsb' 0 24 = 0#24 :=
  (pad_one _).mpr (by simp)

@[simp] theorem pad_byteWord_two (a b : Byte) : (byteWord a b 0#8 0#8).extractLsb' 0 16 = 0#16 :=
  (pad_two _).mpr (by simp)

@[simp] theorem pad_byteWord_three (a b c : Byte) : (byteWord a b c 0#8).extractLsb' 0 8 = 0#8 :=
  (pad_three _).mpr (by simp)

/-! ### Byte strings (30_encoding.md R146) -/

/-- A string of `n` bytes packs into `words(n)` words. -/
theorem packBytes_length (bytes : List Byte) : (packBytes bytes).length = wordsFor bytes.length := by
  induction bytes using packBytes.induct with
  | case1 | case2 | case3 | case4 => simp [packBytes, wordsFor]
  | case5 a b c d bytes ih => simp [packBytes, ih, wordsFor]; omega

/-- What `takeBytes` reads from a packed string is the string, and it stops where the string ends. -/
theorem takeBytes_packBytes (bytes : List Byte) (rest : List Word) :
    takeBytes bytes.length (packBytes bytes ++ rest) = some (bytes, rest) := by
  induction bytes using packBytes.induct with
  | case1 => cases rest <;> rfl
  | case2 a => simp [packBytes, takeBytes]
  | case3 a b => simp [packBytes, takeBytes]
  | case4 a b c => simp [packBytes, takeBytes]
  | case5 a b c d bytes ih => simp [packBytes, takeBytes, ih]

/-- Whatever `takeBytes` reads is a string of the length asked for, and the words it read are that string packed. -/
theorem takeBytes_eq_some {n : Nat} {words rest : List Word} {bytes : List Byte}
    (h : takeBytes n words = some (bytes, rest)) : bytes.length = n ∧ words = packBytes bytes ++ rest := by
  induction words generalizing n bytes rest with
  | nil =>
    match n with
    | 0 =>
      simp only [takeBytes, Option.some.injEq, Prod.mk.injEq] at h
      obtain ⟨rfl, rfl⟩ := h
      exact ⟨rfl, rfl⟩
    | n + 1 => simp [takeBytes] at h
  | cons w ws ih =>
    match n with
    | 0 =>
      simp only [takeBytes, Option.some.injEq, Prod.mk.injEq] at h
      obtain ⟨rfl, rfl⟩ := h
      exact ⟨rfl, rfl⟩
    | 1 =>
      simp only [takeBytes] at h
      split at h
      · rename_i hp
        simp only [Option.some.injEq, Prod.mk.injEq] at h
        obtain ⟨rfl, rfl⟩ := h
        exact ⟨rfl, congrArg (· :: _) ((pad_one w).mp hp)⟩
      · cases h
    | 2 =>
      simp only [takeBytes] at h
      split at h
      · rename_i hp
        simp only [Option.some.injEq, Prod.mk.injEq] at h
        obtain ⟨rfl, rfl⟩ := h
        exact ⟨rfl, congrArg (· :: _) ((pad_two w).mp hp)⟩
      · cases h
    | 3 =>
      simp only [takeBytes] at h
      split at h
      · rename_i hp
        simp only [Option.some.injEq, Prod.mk.injEq] at h
        obtain ⟨rfl, rfl⟩ := h
        exact ⟨rfl, congrArg (· :: _) ((pad_three w).mp hp)⟩
      · cases h
    | n + 4 =>
      simp only [takeBytes] at h
      split at h
      · rename_i bytes' rest' heq
        simp only [Option.some.injEq, Prod.mk.injEq] at h
        obtain ⟨rfl, rfl⟩ := h
        obtain ⟨hl, hw⟩ := ih heq
        refine ⟨by simp [hl], ?_⟩
        simp only [packBytes, byteWord_wordByte, List.cons_append, hw]
      · cases h

/-! ### Codes and tags (10_state.md R76, R77, 30_encoding.md R150) -/

@[simp] theorem Status.ofCode_code (s : Status) : Status.ofCode s.code = some s := by cases s <;> rfl
@[simp] theorem Verified.ofCode_code (v : Verified) : Verified.ofCode v.code = some v := by cases v <;> rfl

/-- A code that is a status is that status's code. -/
theorem Status.code_of_ofCode {c : BitVec 4} {s : Status} (h : Status.ofCode c = some s) : s.code = c := by
  revert h; revert c; cases s <;> decide

/-- A code that is a `verified` value is that value's code. -/
theorem Verified.code_of_ofCode {c : BitVec 2} {v : Verified} (h : Verified.ofCode c = some v) : v.code = c := by
  revert h; revert c; cases v <;> decide

@[simp] theorem Tag.ofWord_word (t : Tag) : Tag.ofWord t.word = t := by simp [Tag.ofWord, Tag.word]
@[simp] theorem Tag.word_ofWord (w : Word) : (Tag.ofWord w).word = w := byteWord_wordByte w

@[simp] theorem decodeTag_encodeTag (t : Option Tag) : decodeTag t.isSome (encodeTag t) = some t := by
  cases t <;> simp [decodeTag, encodeTag]

/-- A tag field that decodes is written back as it was. -/
theorem decodeTag_eq_some {present : Bool} {w : Word} {t : Option Tag} (h : decodeTag present w = some t) :
    t.isSome = present ∧ encodeTag t = w := by
  unfold decodeTag at h
  cases present
  · simp only [Bool.false_eq_true, if_false] at h
    split at h
    · rename_i hw
      cases h
      exact ⟨rfl, hw.symm⟩
    · cases h
  · simp only [if_true, Option.some.injEq] at h
    subst h
    exact ⟨rfl, Tag.word_ofWord w⟩

/-! ### The flags word of a descriptor (30_encoding.md R150) -/

/-- Every field of the flags word reads as it was written, and the reserved bits read 0. -/
theorem encodeFlags_fields (p : Pdu) :
    (encodeFlags p).extractLsb' 5 3 = 0 ∧ (encodeFlags p).extractLsb' 12 20 = 0 ∧
    (encodeFlags p).extractLsb' 2 2 = p.verified.code ∧ (encodeFlags p).extractLsb' 8 4 = p.status.code ∧
    (encodeFlags p).getLsbD 4 = p.tag.isSome ∧ (encodeFlags p).getLsbD 0 = p.corrupted ∧
    (encodeFlags p).getLsbD 1 = p.tampered := by
  have bits : ∀ i, (encodeFlags p).getLsbD i =
      (if i < 1 then (BitVec.ofBool p.corrupted).getLsbD i
      else if i - 1 < 1 then (BitVec.ofBool p.tampered).getLsbD (i - 1)
      else if i - 1 - 1 < 2 then p.verified.code.getLsbD (i - 1 - 1)
      else if i - 1 - 1 - 2 < 1 then (BitVec.ofBool p.tag.isSome).getLsbD (i - 1 - 1 - 2)
      else if i - 1 - 1 - 2 - 1 < 3 then (0 : BitVec 3).getLsbD (i - 1 - 1 - 2 - 1)
      else if i - 1 - 1 - 2 - 1 - 3 < 4 then p.status.code.getLsbD (i - 1 - 1 - 2 - 1 - 3)
      else (0 : BitVec 20).getLsbD (i - 1 - 1 - 2 - 1 - 3 - 4)) := by
    intro i
    simp only [encodeFlags, BitVec.getLsbD_append]
  refine ⟨?_, ?_, ?_, ?_, ?_, ?_, ?_⟩
  · apply field_eq_zero
    intro i hi
    rw [bits]
    interval_cases i <;> simp
  · apply field_eq_zero
    intro i hi
    rw [bits]
    interval_cases i <;> simp
  · apply BitVec.eq_of_getLsbD_eq
    intro i hi
    rw [BitVec.getLsbD_extractLsb', bits]
    interval_cases i <;> simp
  · apply BitVec.eq_of_getLsbD_eq
    intro i hi
    rw [BitVec.getLsbD_extractLsb', bits]
    interval_cases i <;> simp
  · rw [bits]; simp
  · rw [bits]; simp
  · rw [bits]; simp

/-- A flags word with its reserved bits 0 is the one written from its fields. -/
theorem encodeFlags_eq {w : Word} (p : Pdu) (h1 : w.extractLsb' 5 3 = 0) (h2 : w.extractLsb' 12 20 = 0)
    (h3 : p.verified.code = w.extractLsb' 2 2) (h4 : p.status.code = w.extractLsb' 8 4)
    (h5 : p.tag.isSome = w.getLsbD 4) (h6 : p.corrupted = w.getLsbD 0) (h7 : p.tampered = w.getLsbD 1) :
    encodeFlags p = w := by
  have z1 := getLsbD_of_field_eq_zero h1
  have z2 := getLsbD_of_field_eq_zero h2
  apply BitVec.eq_of_getLsbD_eq
  intro i hi
  simp only [encodeFlags, h3, h4, h5, h6, h7, BitVec.getLsbD_append, BitVec.getLsbD_extractLsb']
  by_cases hA : 5 ≤ i ∧ i < 8
  · have := z1 (i - 5) (by omega)
    rw [show 5 + (i - 5) = i by omega] at this
    rw [this]
    obtain ⟨a, b⟩ := hA
    interval_cases i <;> simp
  · by_cases hB : 12 ≤ i
    · have := z2 (i - 12) (by omega)
      rw [show 12 + (i - 12) = i by omega] at this
      rw [this]
      interval_cases i <;> simp
    · have hi' : i < 12 := by omega
      interval_cases i <;> simp_all

/-! ### The `CFG` word (30_encoding.md R153) and the words of CH.CONFIG (R154) -/

/-- Every field of the `CFG` word reads as it was written, and the reserved bits read 0. -/
theorem encodeCfgWord_fields (cfg : LinkCfg) :
    (encodeCfgWord cfg).extractLsb' 15 17 = 0 ∧ (encodeCfgWord cfg).extractLsb' 0 5 = cfg.bearer ∧
    (encodeCfgWord cfg).extractLsb' 5 1 = cfg.dir ∧ (encodeCfgWord cfg).getLsbD 6 = cfg.ien ∧
    (encodeCfgWord cfg).getLsbD 7 = cfg.cen ∧ (encodeCfgWord cfg).extractLsb' 8 5 = cfg.snbits ∧
    (encodeCfgWord cfg).getLsbD 13 = cfg.ikp ∧ (encodeCfgWord cfg).getLsbD 14 = cfg.ckp := by
  have bits : ∀ i, (encodeCfgWord cfg).getLsbD i =
      (if i < 5 then cfg.bearer.getLsbD i
      else if i - 5 < 1 then cfg.dir.getLsbD (i - 5)
      else if i - 5 - 1 < 1 then (BitVec.ofBool cfg.ien).getLsbD (i - 5 - 1)
      else if i - 5 - 1 - 1 < 1 then (BitVec.ofBool cfg.cen).getLsbD (i - 5 - 1 - 1)
      else if i - 5 - 1 - 1 - 1 < 5 then cfg.snbits.getLsbD (i - 5 - 1 - 1 - 1)
      else if i - 5 - 1 - 1 - 1 - 5 < 1 then (BitVec.ofBool cfg.ikp).getLsbD (i - 5 - 1 - 1 - 1 - 5)
      else if i - 5 - 1 - 1 - 1 - 5 - 1 < 1 then (BitVec.ofBool cfg.ckp).getLsbD (i - 5 - 1 - 1 - 1 - 5 - 1)
      else (0 : BitVec 17).getLsbD (i - 5 - 1 - 1 - 1 - 5 - 1 - 1)) := by
    intro i
    simp only [encodeCfgWord, BitVec.getLsbD_append]
  refine ⟨?_, ?_, ?_, ?_, ?_, ?_, ?_, ?_⟩
  · apply field_eq_zero
    intro i hi
    rw [bits]
    interval_cases i <;> simp
  · apply BitVec.eq_of_getLsbD_eq
    intro i hi
    rw [BitVec.getLsbD_extractLsb', bits]
    interval_cases i <;> simp
  · apply BitVec.eq_of_getLsbD_eq
    intro i hi
    rw [BitVec.getLsbD_extractLsb', bits]
    interval_cases i; simp
  · rw [bits]; simp
  · rw [bits]; simp
  · apply BitVec.eq_of_getLsbD_eq
    intro i hi
    rw [BitVec.getLsbD_extractLsb', bits]
    interval_cases i <;> simp
  · rw [bits]; simp
  · rw [bits]; simp

/-- A `CFG` word with its reserved bits 0 is the one written from its fields. -/
theorem encodeCfgWord_eq {w : Word} (cfg : LinkCfg) (h0 : w.extractLsb' 15 17 = 0)
    (h1 : cfg.bearer = w.extractLsb' 0 5) (h2 : cfg.dir = w.extractLsb' 5 1) (h3 : cfg.ien = w.getLsbD 6)
    (h4 : cfg.cen = w.getLsbD 7) (h5 : cfg.snbits = w.extractLsb' 8 5) (h6 : cfg.ikp = w.getLsbD 13)
    (h7 : cfg.ckp = w.getLsbD 14) : encodeCfgWord cfg = w := by
  have z := getLsbD_of_field_eq_zero h0
  apply BitVec.eq_of_getLsbD_eq
  intro i hi
  simp only [encodeCfgWord, h1, h2, h3, h4, h5, h6, h7, BitVec.getLsbD_append, BitVec.getLsbD_extractLsb']
  by_cases hA : 15 ≤ i
  · have := z (i - 15) (by omega)
    rw [show 15 + (i - 15) = i by omega] at this
    rw [this]
    interval_cases i <;> simp
  · have hi' : i < 15 := by omega
    interval_cases i <;> simp

/-- A rate word reads as it was written. -/
@[simp] theorem decodeRate_encode (v : BitVec 17) : decodeRate ((0 : BitVec 15) ++ v) = some v := by
  have h1 : ((0 : BitVec 15) ++ v : Word).extractLsb' 17 15 = 0 := by
    apply field_eq_zero
    intro i hi
    simp only [BitVec.getLsbD_append]
    interval_cases i <;> simp
  have h2 : ((0 : BitVec 15) ++ v : Word).extractLsb' 0 17 = v := by
    apply BitVec.eq_of_getLsbD_eq
    intro i hi
    simp only [BitVec.getLsbD_append, BitVec.getLsbD_extractLsb']
    interval_cases i <;> simp
  unfold decodeRate
  rw [if_pos h1, h2]

/-- A rate word that decodes is written back as it was. -/
theorem decodeRate_eq_some {w : Word} {v : BitVec 17} (h : decodeRate w = some v) : ((0 : BitVec 15) ++ v : Word) = w := by
  unfold decodeRate at h
  split at h
  · rename_i hz
    have z := getLsbD_of_field_eq_zero hz
    cases h
    apply BitVec.eq_of_getLsbD_eq
    intro i hi
    simp only [BitVec.getLsbD_append, BitVec.getLsbD_extractLsb']
    by_cases hA : 17 ≤ i
    · have := z (i - 17) (by omega)
      rw [show 17 + (i - 17) = i by omega] at this
      rw [this]
      interval_cases i <;> simp
    · have hi' : i < 17 := by omega
      interval_cases i <;> simp
  · cases h

/-- The `MAXD` word reads as it was written. -/
theorem maxdWord_fields (v : BitVec 16) :
    ((0 : BitVec 16) ++ v : Word).extractLsb' 16 16 = 0 ∧ ((0 : BitVec 16) ++ v : Word).extractLsb' 0 16 = v := by
  constructor
  · apply field_eq_zero
    intro i hi
    simp only [BitVec.getLsbD_append]
    interval_cases i <;> simp
  · apply BitVec.eq_of_getLsbD_eq
    intro i hi
    simp only [BitVec.getLsbD_append, BitVec.getLsbD_extractLsb']
    interval_cases i <;> simp

/-- A `MAXD` word with its reserved bits 0 is written back as it was. -/
theorem maxdWord_eq {w : Word} (h : w.extractLsb' 16 16 = 0) : ((0 : BitVec 16) ++ w.extractLsb' 0 16 : Word) = w := by
  have z := getLsbD_of_field_eq_zero h
  apply BitVec.eq_of_getLsbD_eq
  intro i hi
  simp only [BitVec.getLsbD_append, BitVec.getLsbD_extractLsb']
  by_cases hA : 16 ≤ i
  · have := z (i - 16) (by omega)
    rw [show 16 + (i - 16) = i by omega] at this
    rw [this]
    interval_cases i <;> simp
  · have hi' : i < 16 := by omega
    interval_cases i <;> simp

end Sys2Proof
end

