-- ==== Sys2Proof/Laws/Step.lean ====
section
/-! SUPPORT. What a step can do, said once; and the command words, for the frames it decodes. -/

namespace Sys2Proof

/-! ### Command words (30_encoding.md R141 to R145) -/

/-- The word of an operation decodes to it on its unit's port. -/
@[simp] theorem decodeOp_word (op : Op) : decodeOp op.unit op.word = some op := by cases op <;> decide

/-- A command word that decodes is the word of the operation it decodes to, on that operation's port. -/
theorem decodeOp_eq_some {u : UnitId} {w : Word} {op : Op} (h : decodeOp u w = some op) : op.unit = u ∧ w = op.word := by
  unfold decodeOp at h
  split at h
  · cases h
  · rename_i hr
    split at h
    · cases h
    · rename_i hu
      rw [not_not] at hr hu
      have key : ∀ a b : BitVec 4, Op.ofFields a b = some op → a = op.unit.code ∧ b = op.func := by
        cases op <;> decide
      obtain ⟨ha, hb⟩ := key _ _ h
      have hcode : op.unit.code = u.code := ha.symm.trans hu
      have hunit : op.unit = u := by
        revert hcode
        cases op.unit <;> cases u <;> decide
      refine ⟨hunit, ?_⟩
      rw [Op.word, ← ha, ← hb, ← hr]
      apply BitVec.eq_of_getLsbD_eq
      intro i hi
      simp only [BitVec.getLsbD_append, BitVec.getLsbD_extractLsb']
      interval_cases i <;> simp

/-- Decoding of a frame: the command word first, then the operand record of the operation it names. -/
theorem decode_eq_ok {u : UnitId} {f : Frame} {i : Instr} (h : decode u f = .ok i) :
    ∃ op, decodeOp u f.cmd = some op ∧ decodeRecord op f.operands = some i := by
  unfold decode at h
  split at h
  · cases h
  · rename_i op hop
    split at h
    · cases h
    · rename_i j hj
      cases h
      exact ⟨op, hop, hj⟩

/-- A record decodes only to an instruction of its operation. -/
theorem decodeRecord_op {op : Op} {words : List Word} {i : Instr} (h : decodeRecord op words = some i) : i.op = op := by
  have hE : ∀ j, decodeEmpty j words = some i → i = j := by
    intro j hj
    cases words with
    | nil => exact (Option.some.inj hj).symm
    | cons w ws => cases hj
  cases op <;> simp only [decodeRecord, Option.map_eq_some_iff] at h
  case rxStats => rw [hE _ h]; rfl
  case rxDelivered => rw [hE _ h]; rfl
  case chFlush => rw [hE _ h]; rfl
  all_goals
    obtain ⟨x, -, rfl⟩ := h
    rfl

namespace Machine

/-! ### The step (00_scope.md R7, 60_exceptions.md R400 to R402, 70_reset_and_hazards.md R450) -/

/-- The machine is `execAt` at its own parameters. -/
theorem execAt_params (i : Instr) (s : State) : execAt Config.params i s = exec i s := by cases i <;> rfl

/-- Every instruction is its operation's prologue and a body. -/
theorem exec_eq_runCommand (i : Instr) (s : State) :
    ∃ (ok : Bool) (body : State → StepResult), exec i s = runCommand i.op ok body s := by
  cases i <;>
    simp only [exec, execTxConfig, execTxSend, execRxConfig, execRxReceive, execRxStats, execRxDelivered, execChConfig,
      execChTransmit, execChFlush, txConfig, txSend, rxConfig, rxReceive, rxStats, rxDelivered, chTransmit, chFlush] <;>
    exact ⟨_, _, rfl⟩

/-- A step that answers a next state: nothing is left to do, a unit is reset, a frame that is no instruction is
answered, or an instruction is executed. -/
theorem step_cases {s t : State} (h : step s = .next t) :
    (s.inbox = [] ∧ t = s) ∨
    (∃ u rest, s.inbox = .reset u :: rest ∧ t = resetUnit u { s with inbox := rest }) ∨
    (∃ u f rest, s.inbox = .frame u f :: rest ∧
      ((decode u f = .error .illegalCommand ∧ t = raiseIllegal u f.cmd { s with inbox := rest }) ∨
        (∃ op, decode u f = .error (.badOperand op) ∧ t = badFrame op { s with inbox := rest }) ∨
        ∃ i, decode u f = .ok i ∧ i.op.unit = u ∧ exec i { s with inbox := rest } = .next t)) := by
  cases hb : s.inbox with
  | nil =>
    rw [step, fetch_nil hb] at h
    cases h
    exact .inl ⟨rfl, rfl⟩
  | cons e rest =>
    rw [step, fetch_cons hb] at h
    cases e with
    | reset u =>
      cases h
      exact .inr (.inl ⟨u, rest, rfl, rfl⟩)
    | frame u f =>
      refine .inr (.inr ⟨u, f, rest, rfl, ?_⟩)
      simp only [runFrame] at h
      split at h
      · rename_i i hd
        obtain ⟨op, ho, hr⟩ := decode_eq_ok hd
        refine .inr (.inr ⟨i, hd, ?_, h⟩)
        rw [decodeRecord_op hr, (decodeOp_eq_some ho).1]
      · rename_i hd
        cases h
        exact .inl ⟨hd, rfl⟩
      · rename_i op hd
        cases h
        exact .inr (.inl ⟨op, hd, rfl⟩)

end Machine

end Sys2Proof
end

