-- ==== Sys2Proof/Laws/PerInstr.lean ====
section
/-! SUPPORT. The family `OpcodeWord`: the command word in the frame of every instruction decodes, on the port of the
instruction's unit, to the instruction's operation (30_encoding.md R143, R144). -/

namespace Sys2Proof.Laws.OpcodeWord

/-- The command word of the instruction's frame names its operation on its unit's port. -/
def Statement (i : Instr) : Prop := decodeOp i.op.unit (encode i).cmd = some i.op

theorem txConfig (cfg : LinkCfg) : Statement (.txConfig cfg) := decodeOp_word .txConfig
theorem txSend (sduId : Word) (payload : List Byte) : Statement (.txSend sduId payload) := decodeOp_word .txSend
theorem rxConfig (cfg : LinkCfg) : Statement (.rxConfig cfg) := decodeOp_word .rxConfig
theorem rxReceive (pdu : Pdu) : Statement (.rxReceive pdu) := decodeOp_word .rxReceive
theorem rxStats : Statement .rxStats := decodeOp_word .rxStats
theorem rxDelivered : Statement .rxDelivered := decodeOp_word .rxDelivered
theorem chConfig (cfg : ChannelCfg) : Statement (.chConfig cfg) := decodeOp_word .chConfig
theorem chTransmit (pdus : List Pdu) : Statement (.chTransmit pdus) := decodeOp_word .chTransmit
theorem chFlush : Statement .chFlush := decodeOp_word .chFlush

end Sys2Proof.Laws.OpcodeWord
end

