-- ==== Sys2Proof/Tests/Slice0.lean ====
section
/-! SUPPORT. Tests, each with the spec's own expected result (95_test_vectors.md by its vector's name, or the rule it is
worked out from), and for every obligation with hypotheses a witness that meets them. -/

namespace Sys2Proof.Tests

open Sys2Proof.Machine

/-! ### The test instantiation of the open parameters (95_test_vectors.md 0) -/

/-- The toy keystream and tag; every draw 0, capacities unbounded. -/
def toy : Params :=
  { initSn := 0, initHfn := 0, replayCap := none, dlCap := none, dbCap := none, maxPayload := none
    collision := .overwrite
    ksByte := fun key c b d _ i => BitVec.ofNat 8 ((key.headD 0).toNat + c.toNat % 256 + 8 * b.toNat + 64 * d.toNat + i)
    tag := fun key msg =>
      { b0 := key.headD 0, b1 := BitVec.ofNat 8 (msg.map BitVec.toNat).sum, b2 := BitVec.ofNat 8 msg.length
        b3 := msg.foldl (· ^^^ ·) 0 }
    draw := fun _ => 0
    longCount := fun _ => 0 }

/-- The toy parameters with draw `n` as given, 0 beyond the list. -/
def toyDraws (draws : List Nat) : Params := { toy with draw := fun n => draws.getD n 0 }

def zeroKey : List Byte := List.replicate 16 0
def keyKI : List Byte := 0x20 :: List.replicate 15 0
def keyKC : List Byte := 0x10 :: List.replicate 15 0

/-- A configuration without integrity and ciphering: `CFG12` at 12, `CFG2` at 2. -/
def plainCfg (snbits : BitVec 5) : LinkCfg :=
  { bearer := 0, dir := 0, ien := false, cen := false, snbits, ikp := false, ckp := false, ikey := zeroKey
    ckey := zeroKey }

/-- `CFG12IC` at bearer 3, `CFG12IC0` at bearer 0, with `KI` and `KC`. -/
def keyedCfg (bearer : BitVec 5) : LinkCfg :=
  { bearer, dir := 0, ien := true, cen := true, snbits := 12, ikp := true, ckp := true, ikey := keyKI
    ckey := keyKC }

/-- `CFG12I0` with `KI`. -/
def integrityCfg : LinkCfg := { keyedCfg 0 with cen := false, ckp := false, ckey := zeroKey }

/-- A configured transmitter in a block just reset. -/
def txAt (cfg : LinkCfg) (sn hfn : Word) : State :=
  { State.reset with txu := { life := .ready, lcfg := cfg, sn, hfn } }

/-- A configured receiver in a block just reset. -/
def rxAt (cfg : LinkCfg) (neSn hfnEst : Word) : State :=
  { State.reset with rxu := { resetRxu with life := .ready, lcfg := cfg, neSn, hfnEst } }

/-- A receiver that has delivered the number before `neSn`. -/
def rxAfter (cfg : LinkCfg) (ldSn neSn hfnEst : Word) : State :=
  { State.reset with rxu := { resetRxu with life := .ready, lcfg := cfg, neSn, hfnEst, ldValid := true, ldSn } }

/-- A configured channel in a block just reset: the rates and `MAXD`, and the delay buffer. -/
def chAt (loss dup reorder corrupt tamper : BitVec 17) (maxd : BitVec 16) (db : List DbEntry) : State :=
  { State.reset with
    chu := { resetChu with
      life := .ready, rateLoss := loss, rateDup := dup, rateReorder := reorder, rateCorrupt := corrupt
      rateTamper := tamper, maxd, db } }

/-- A PDU as TX.SEND of a transmitter without integrity builds it. -/
def pdu (sn : Word) (payload : List Byte) : Pdu :=
  { sduId := sn, sn, count := sn, hfn := 0, payload, tag := none, corrupted := false, tampered := false
    verified := .notApplicable, status := .prepared }

/-- What a step answers: `false` where it stops. -/
def answers (r : StepResult) (check : State → Bool) : Bool :=
  match r with
  | .next t => check t
  | .fault _ => false
  | .refused _ => false

/-- The last response frame. -/
def lastWords (s : State) : List Word := (s.outbox.getLast?.map Response.words).getD []

/-- The words a step answers to a frame on a port, from the state. -/
def reply (s : State) (u : UnitId) (cmd : Word) (operands : List Word) : List Word :=
  match step { s with inbox := [.frame u { cmd, operands }] } with
  | .next t => lastWords t
  | .fault _ => []
  | .refused _ => []

/-! ### WellFormed: a term that each check refuses -/

theorem test_short_ikey_is_ill_formed : Instr.wellFormed (.txConfig { plainCfg 12 with ikey := [0x20] }) = false := by
  decide

theorem test_long_ckey_is_ill_formed : Instr.wellFormed (.rxConfig { plainCfg 12 with ckey := 0 :: zeroKey }) = false :=
  by decide

/-- A string that a 32-bit `LEN` cannot count is refused. -/
theorem long_bytes_refused (n : Nat) (h : 2 ^ 32 ≤ n) : bytesOk (List.replicate n 0) = false := by
  rw [bytesOk, List.length_replicate]
  exact decide_eq_false (not_lt.mpr h)

theorem test_long_send_is_ill_formed : Instr.wellFormed (.txSend 0 (List.replicate (2 ^ 32) 0)) = false :=
  long_bytes_refused (2 ^ 32) le_rfl

theorem test_long_pdu_is_ill_formed : Instr.wellFormed (.rxReceive (pdu 0 (List.replicate (2 ^ 32) 0))) = false := by
  rw [Instr.wellFormed, Pdu.fits, pdu, long_bytes_refused (2 ^ 32) le_rfl]

theorem test_one_long_pdu_is_ill_formed :
    Instr.wellFormed (.chTransmit [pdu 0 (List.replicate (2 ^ 32) 0), pdu 1 []]) = false := by
  rw [Instr.wellFormed, List.all_cons, Pdu.fits, pdu, long_bytes_refused (2 ^ 32) le_rfl, Bool.false_and,
    Bool.and_false]

/-- More PDUs than a 32-bit `N` can count are refused. -/
theorem many_pdus_refused (n : Nat) (h : 2 ^ 32 ≤ n) :
    Instr.wellFormed (.chTransmit (List.replicate n (pdu 0 []))) = false := by
  rw [Instr.wellFormed, List.length_replicate, decide_eq_false (not_lt.mpr h), Bool.false_and]

theorem test_too_many_pdus_are_ill_formed :
    Instr.wellFormed (.chTransmit (List.replicate (2 ^ 32) (pdu 0 []))) = false := many_pdus_refused (2 ^ 32) le_rfl

/-! ### Decoding: for every constructor a frame written out from its tables (30_encoding.md R143, R150 to R155) -/

/-- P3. -/
theorem test_decode_txConfig :
    decode .txu { cmd := 0x10000000, operands := [0x00006CC3, 0x20000000, 0, 0, 0, 0x10000000, 0, 0, 0] } =
      .ok (.txConfig (keyedCfg 3)) := by decide

/-- P3: `"Payload 0"`. -/
theorem test_decode_txSend :
    decode .txu { cmd := 0x11000000, operands := [0, 9, 0x5061796C, 0x6F616420, 0x30000000] } =
      .ok (.txSend 0 [0x50, 0x61, 0x79, 0x6C, 0x6F, 0x61, 0x64, 0x20, 0x30]) := by decide

/-- T4's word, with `DIR`, at RXU. -/
theorem test_decode_rxConfig :
    decode .rxu { cmd := 0x20000000, operands := [0x00002C20, 0x20000000, 0, 0, 0, 0, 0, 0, 0x00000001] } =
      .ok (.rxConfig { plainCfg 12 with dir := 1, ikp := true, ikey := keyKI, ckey := List.replicate 15 0 ++ [1] }) := by
  decide

/-- R150: status 7, `VERIFIED = FALSE`, both flags, no tag, two payload bytes. -/
theorem test_decode_rxReceive :
    decode .rxu { cmd := 0x21000000, operands := [1, 2, 3, 4, 0x0000070B, 0, 2, 0xAABB0000] } =
      .ok (.rxReceive { sduId := 1, sn := 2, count := 3, hfn := 4, payload := [0xAA, 0xBB], tag := none
                        corrupted := true, tampered := true, verified := .verifiedFalse
                        status := .discardedChannelCorruption }) := by decide

theorem test_decode_rxStats : decode .rxu { cmd := 0x22000000, operands := [] } = .ok .rxStats := by decide

theorem test_decode_rxDelivered : decode .rxu { cmd := 0x23000000, operands := [] } = .ok .rxDelivered := by decide

/-- R154: every field another value. -/
theorem test_decode_chConfig :
    decode .chu { cmd := 0x30000000, operands := [1, 2, 3, 4, 0x00010000, 0x0000FFFF, 0xDEADBEEF] } =
      .ok (.chConfig { loss := 1, dup := 2, reorder := 3, corrupt := 4, tamper := 65536, maxd := 65535
                       seed := 0xDEADBEEF }) := by decide

/-- R155: two descriptors back to back. -/
theorem test_decode_chTransmit :
    decode .chu { cmd := 0x31000000
                  operands := [2, 0, 0, 0, 0, 0, 0, 1, 0x41000000, 1, 1, 1, 0, 0x00000010, 0x01020304, 0] } =
      .ok (.chTransmit [pdu 0 [0x41], { pdu 1 [] with tag := some { b0 := 1, b1 := 2, b2 := 3, b3 := 4 } }]) := by
  decide

theorem test_decode_chFlush : decode .chu { cmd := 0x32000000, operands := [] } = .ok .chFlush := by decide

/-- E1 to E4, and the example of R401: a `FUNC` without a row, a reserved bit, another unit's port, `UNIT` 0. -/
theorem test_illegal_words :
    decodeOp .rxu 0x24000000 = none ∧ decodeOp .txu 0x11000001 = none ∧ decodeOp .txu 0x21000000 = none ∧
      decodeOp .chu 0 = none ∧ decodeOp .rxu 0x32000000 = none := by decide

/-- E17, E18, E19 and a nonzero pad byte. -/
theorem test_bad_descriptors :
    decodePdu [0, 0, 0, 0, 0x00000D00, 0, 0] = none ∧ decodePdu [0, 0, 0, 0, 0, 0, 5, 0] = none ∧
      decodePdu [0, 0, 0, 0, 0x0000000C, 0, 0] = none ∧ decodePdu [0, 0, 0, 0, 0, 0, 1, 0x41000001] = none := by decide

/-! ### The prologue: replies of P5 and of E1 to E20 -/

/-- P5, first line; E8's and E13's codes. -/
theorem test_lifecycle_replies :
    reply State.reset .txu 0x11000000 [0, 1, 0x41000000] = [0x11030000] ∧
      reply { State.reset with txu := { resetTxu with life := .cfgError } } .txu 0x11000000 [0, 0] = [0x11050000] ∧
      reply (txAt (plainCfg 12) 0 0) .txu 0x10000000 [0xC00, 0, 0, 0, 0, 0, 0, 0, 0] = [0x10040000] := by decide

/-- E12, E11, E15, E20: bad operands; E1: an illegal word. -/
theorem test_bad_operand_replies :
    reply State.reset .txu 0x10000000 [0xC00, 0, 0, 0, 0, 0, 0, 0] = [0x10020000] ∧
      reply State.reset .txu 0x10000000 [0x8C00, 0, 0, 0, 0, 0, 0, 0, 0] = [0x10020000] ∧
      reply State.reset .chu 0x30000000 [0x20000, 0, 0, 0, 0, 0, 0] = [0x30020000] ∧
      reply (rxAt (plainCfg 12) 0 0) .rxu 0x22000000 [0] = [0x22020000] ∧
      reply State.reset .rxu 0x24000000 [5] = [0x24010000] := by decide

/-! ### TX.CONFIG and RX.CONFIG -/

/-- T1 and T5, through the port. -/
theorem test_txConfig_ready :
    reply State.reset .txu 0x10000000 [0x00006CC3, 0x20000000, 0, 0, 0, 0x10000000, 0, 0, 0] = [0x10000000] ∧
      reply State.reset .txu 0x10000000 [0x00001F00, 0, 0, 0, 0, 0, 0, 0, 0] = [0x10000000] := by decide

/-- E7, E10, T3: each condition of `cfg_legal` that a record can fail. -/
theorem test_txConfig_error :
    reply State.reset .txu 0x10000000 [0x00000C40, 0, 0, 0, 0, 0, 0, 0, 0] = [0x10050000] ∧
      reply State.reset .txu 0x10000000 [0, 0, 0, 0, 0, 0, 0, 0, 0] = [0x10050000] ∧
      reply State.reset .txu 0x10000000 [0x00000C80, 0, 0, 0, 0, 0, 0, 0, 0] = [0x10050000] := by decide

/-- V10's configuration: `INIT_SN = 3`, which starts the receiver at 3. -/
theorem test_rxConfig_initial_counters :
    answers (rxConfig { toy with initSn := 3 } (plainCfg 2) State.reset) (fun t =>
      decide (t.rxu.neSn = 3 ∧ t.rxu.hfnEst = 0 ∧ t.rxu.ldValid = false ∧ t.rxu.life = .ready)) = true := by decide

/-- R231 (d) and (e): initial counters that do not fit the width. -/
theorem test_rxConfig_initial_counters_must_fit :
    answers (rxConfig { toy with initSn := 4 } (plainCfg 2) State.reset) (fun t => decide (t.rxu.life = .cfgError)) ∧
      answers (rxConfig { toy with initHfn := 2 } (plainCfg 31) State.reset)
        (fun t => decide (t.rxu.life = .cfgError)) := by decide

/-! ### TX.SEND -/

/-- P3: the response to TX.SEND 0, `"Payload 0"`. -/
theorem test_txSend_keyed :
    answers (txSend toy 0 [0x50, 0x61, 0x79, 0x6C, 0x6F, 0x61, 0x64, 0x20, 0x30] (txAt (keyedCfg 3) 0 0)) (fun t =>
      decide (lastWords t = [0x11000000, 0, 0, 0, 0, 0x00000010, 0x201D0F5D, 0x0000000D, 0x78485347, 0x434C4A0F,
        0x00112F3C, 0x69000000])) = true := by decide

/-- T6 and T8: the wraps of `SN` and of `HFN`. -/
theorem test_txSend_wraps :
    answers (txSend toy 7 [] (txAt (plainCfg 2) 3 5)) (fun t =>
      decide (lastWords t = [0x11000000, 7, 3, 23, 5, 0, 0, 0] ∧ t.txu.sn = 0 ∧ t.txu.hfn = 6)) ∧
    answers (txSend toy 7 [] (txAt (plainCfg 12) 4095 1048575)) (fun t =>
      decide ((lastWords t)[3]? = some 0xFFFFFFFF ∧ t.txu.sn = 0 ∧ t.txu.hfn = 0)) := by decide

/-! ### RX.RECEIVE -/

/-- K4, K6, K8: the cipher, the tag message, the tag. -/
theorem test_primitives :
    cipher toy true keyKC 5 2 1 [0x41, 0x42] = [0x24, 0x24] ∧
      tagMessage 0x102 3 1 [0xAA] = [0, 0, 1, 2, 3, 1, 0xAA] ∧
      tagBytes (maci toy keyKI 0x102 3 1 [0xAA]) = [0x20, 0xB1, 0x07, 0xAB] := by decide

/-- H3, H4, H5, H12, H14, H15: the cases of counter reconstruction and their boundaries. -/
theorem test_reconstruct :
    reconstruct (rxAt (plainCfg 12) 0 0).rxu 2048 = 2048 ∧ reconstruct (rxAt (plainCfg 12) 0 0).rxu 2049 = 2049 ∧
      reconstruct (rxAt (plainCfg 12) 0 3).rxu 4095 = 12287 ∧
      reconstruct (rxAfter (plainCfg 12) 4095 0 1048575).rxu 0 = 0 ∧
      reconstruct (rxAfter (plainCfg 2) 0 1 1).rxu 3 = 3 ∧ reconstruct (rxAfter (plainCfg 2) 0 1 1).rxu 2 = 6 := by
  decide

/-- V11: slots 3 and 0 delivered across the wrap. -/
theorem test_rxReceive_drains_across_wrap :
    answers (rxReceive toy (pdu 3 [0x44])
      { rxAfter (plainCfg 2) 2 3 0 with
        rxu := { (rxAfter (plainCfg 2) 2 3 0).rxu with rb := [(0, { sduId := 0, count := 4, body := [0x45] })] } })
      (fun t => decide (lastWords t = [0x21000000, 0x00000601, 3, 2] ∧ t.rxu.neSn = 1 ∧ t.rxu.ldSn = 0 ∧
        t.rxu.hfnEst = 1 ∧ t.rxu.rb = [] ∧ t.rxu.dl.map DlEntry.payload = [[0x44], [0x45]])) = true := by decide

/-- V3, V4, V5 at `CFG12I0`: too short, verified and delivered, not the tag. -/
theorem test_rxReceive_integrity :
    answers (rxReceive toy (pdu 0 [1, 2, 3]) (rxAt integrityCfg 0 0))
      (fun t => decide (lastWords t = [0x21000000, 0x00000A08, 0, 0] ∧ t.rxu.cntInteg = 1)) ∧
    answers (rxReceive toy (pdu 0 [0x20, 0, 6, 0]) (rxAt integrityCfg 0 0))
      (fun t => decide (lastWords t = [0x21000000, 0x00000605, 0, 1] ∧ t.rxu.cntInteg = 0)) ∧
    answers (rxReceive toy (pdu 0 [0x20, 0, 6, 1]) (rxAt integrityCfg 0 0))
      (fun t => decide (lastWords t = [0x21000000, 0x00000B08, 0, 0] ∧ t.rxu.cntInteg = 1)) := by decide

/-- F3: a full delivered list undoes the whole command. -/
theorem test_rxReceive_capacity :
    answers (rxReceive { toy with dlCap := some 1 } (pdu 0 [])
      { rxAt (plainCfg 12) 0 0 with
        rxu := { (rxAt (plainCfg 12) 0 0).rxu with rb := [(1, { sduId := 1, count := 1, body := [] })], rc := [1] } })
      (fun t => decide (lastWords t = [0x21060000] ∧ t.rxu.rb = [(1, { sduId := 1, count := 1, body := [] })] ∧
        t.rxu.rc = [1] ∧ t.rxu.dl = [] ∧ t.rxu.neSn = 0 ∧ t.rxu.fault = true)) = true := by decide

/-! ### RX.STATS and RX.DELIVERED -/

/-- A receiver with one slot buffered, one entry delivered and the other counters at 2, 3 and 0. -/
def busyRx : State :=
  { rxAfter (plainCfg 12) 0 1 0 with
    rxu := { (rxAfter (plainCfg 12) 0 1 0).rxu with
      rb := [(5, { sduId := 5, count := 5, body := [0x46] })], rc := [0, 5]
      dl := [{ sduId := 9, payload := [0x41, 0x42, 0x43, 0x44, 0x45], count := 0 }]
      cntSuccess := 1, cntInteg := 2, cntDup := 3 } }

/-- R164. -/
theorem test_rxStats : reply busyRx .rxu 0x22000000 [] = [0x22000000, 1, 2, 3, 0, 1] := by decide

/-- R165. -/
theorem test_rxDelivered : reply busyRx .rxu 0x23000000 [] = [0x23000000, 1, 9, 0, 5, 0x41424344, 0x45000000] := by
  decide

/-! ### The channel -/

/-- E14 and P3's CH.CONFIG. -/
theorem test_chConfig :
    reply State.reset .chu 0x30000000 [0x10001, 0, 0, 0, 0, 0, 0] = [0x30050000] ∧
      reply State.reset .chu 0x30000000 [0, 0, 0x10000, 0, 0, 1, 7] = [0x30000000] := by decide

/-- X4: two bytes tampered with, no corruption. The draws: loss, tamper, its pairs (`k = 2`; position 0, mask FF;
position 1, mask 0F), duplication, reordering, shuffle. -/
theorem test_chTransmit_tampers :
    answers (chTransmit (toyDraws [0, 0, 1 + 3 * (0 + 3 * (0xFE + 255 * (0 + 2 * 0x0E))), 0, 0, 0]) [pdu 0 [0, 0, 0]]
      (chAt 0 0 0 65536 65536 0 []))
      (fun t => decide (lastWords t = [0x31000000, 1, 0, 0, 0, 0, 0x00000402, 0, 3, 0xFF0F0000] ∧ t.chu.db = [] ∧
        t.drawIx = 6)) = true := by decide

/-- X13: the clone at once, the original kept. X17: the capacity fault. -/
theorem test_chTransmit_duplicates_and_delays :
    answers (chTransmit toy [pdu 0 []] (chAt 0 65536 65536 0 0 1 []))
      (fun t => decide (lastWords t = [0x31000000, 1, 0, 0, 0, 0, 0x00000100, 0, 0] ∧
        t.chu.db = [{ pdu := { pdu 0 [] with status := .inTransit }, delay := 0 }])) ∧
    answers (chTransmit { toy with dbCap := some 1 } [pdu 0 []] (chAt 0 0 65536 0 0 2 [{ pdu := pdu 1 [], delay := 1 }]))
      (fun t => decide (lastWords t = [0x31060000] ∧ t.chu.db = [{ pdu := pdu 1 [], delay := 1 }] ∧
        t.chu.fault = true)) := by decide

/-- X15, in the order of the shuffle draw 1: the second first. -/
theorem test_chFlush :
    answers (chFlush (toyDraws [1]) (chAt 0 0 0 0 0 0 [{ pdu := pdu 1 [], delay := 1 }, { pdu := pdu 2 [], delay := 3 }]))
      (fun t => decide (lastWords t = [0x32000000, 2, 2, 2, 2, 0, 0, 0, 0, 1, 1, 1, 0, 0, 0, 0] ∧ t.chu.db = [])) = true :=
  by decide

/-! ### Fetching, as the host asks it -/

/-- The last row of the opcode table as the first instruction after reset: R403's answer. -/
theorem test_withFetchWord :
    decodeTableWord 32 0x32000000 = some .chFlush ∧
      answers (step (State.reset.withFetchWord 32 0x32000000)) (fun t => decide (lastWords t = [0x32030000])) ∧
      answers (step (State.reset.withFetchWord 32 0x10000000)) (fun t => decide (lastWords t = [0x10050000])) := by
  decide

/-! ### Witnesses: encoding -/

theorem witness_IllegalCommandExactly :
    decode .txu { cmd := 0x12000000, operands := [] } = .error .illegalCommand ∧
      decode .rxu { cmd := 0x24000000, operands := [] } = .error .illegalCommand ∧
      decode .chu { cmd := 0x33000000, operands := [] } = .error .illegalCommand ∧
      decode .chu { cmd := 0x32800000, operands := [] } = .error .illegalCommand ∧
      decode .txu { cmd := 0x20000000, operands := [] } = .error .illegalCommand := by decide

theorem witness_StepRunsDecodedInstruction :
    decode .rxu { cmd := 0x22000000, operands := [] } = .ok .rxStats ∧
      ({ busyRx with inbox := [.frame .rxu { cmd := 0x22000000, operands := [] }] } : State).inbox =
        .frame .rxu { cmd := 0x22000000, operands := [] } :: [] := ⟨by decide, rfl⟩

theorem witness_DecodeOfEncode :
    Instr.wellFormed (.txConfig (keyedCfg 31)) = true ∧ Instr.wellFormed (.chTransmit [pdu 0 [1, 2, 3, 4, 5]]) = true ∧
      Instr.wellFormed (.txSend 0xFFFFFFFF []) = true ∧ Instr.wellFormed (.rxReceive (pdu 0 [])) = true := by decide

theorem witness_EncodeOfDecode :
    decode .txu { cmd := 0x11000000, operands := [0, 4, 0x01020304] } = .ok (.txSend 0 [1, 2, 3, 4]) := by decide

/-- A receiver and a channel that accept, with a frame of a well-formed record and with one that is not: a word less,
and a second descriptor with `VERIFIED = 3` (E19). -/
theorem witness_DescriptorsExactly :
    busyRx.accepts .rxu ∧ (chAt 0 0 0 0 0 0 []).accepts .chu ∧
      decode .rxu { cmd := 0x21000000, operands := [0, 0, 0, 0, 0, 0, 1, 0x41000000] } = .ok (.rxReceive (pdu 0 [0x41])) ∧
      decode .rxu { cmd := 0x21000000, operands := [0, 0, 0, 0, 0, 0, 1] } = .error (.badOperand .rxReceive) ∧
      decode .chu { cmd := 0x31000000, operands := [0] } = .ok (.chTransmit []) ∧
      decode .chu { cmd := 0x31000000, operands := [2, 0, 0, 0, 0, 0, 0, 0, 0, 0, 0, 0, 0x0000000C, 0, 0] } =
        .error (.badOperand .chTransmit) :=
  ⟨⟨rfl, rfl⟩, ⟨rfl, rfl⟩, by decide, by decide, by decide, by decide⟩

/-! ### Witnesses: the prologue and configuration -/

/-- Each code: `CONFIG_ERROR`, `ALREADY_CONFIGURED`, `NOT_CONFIGURED`, `CAPACITY_FAULT`. -/
theorem witness_PrologueTurnsAway :
    ({ State.reset with txu := { resetTxu with life := .cfgError } } : State).lifeOf Op.txSend.unit = .cfgError ∧
      (txAt (plainCfg 12) 0 0).lifeOf Op.txConfig.unit = .ready ∧ State.reset.lifeOf Op.rxStats.unit = .unconfigured ∧
      ({ State.reset with chu := { resetChu with life := .ready, fault := true } } : State).faultOf Op.chFlush.unit =
        true ∧
      decodeOp .rxu 0x22000000 = some .rxStats ∧ Instr.rxStats.op = .rxStats := by decide

theorem witness_BadFramesAnswered :
    decode .rxu { cmd := 0x22000000, operands := [0] } = .error (.badOperand .rxStats) := by decide

/-- A faulted receiver that is reset. -/
theorem witness_OnlyResetClearsFault :
    let s : State := { State.reset with rxu := { resetRxu with life := .ready, fault := true }, inbox := [.reset .rxu] }
    step s = .next State.reset ∧ s.faultOf .rxu = true ∧ State.reset.faultOf .rxu = false := ⟨rfl, rfl, rfl⟩

/-- A configuration, which moves `LIFE` and the rates, and a reset after it. -/
theorem witness_LifeMovesOnlyByConfigAndReset :
    answers (step { State.reset with inbox := [.frame .chu { cmd := 0x30000000, operands := List.replicate 7 1 }] })
        (fun t => decide (t.lifeOf .chu ≠ State.reset.lifeOf .chu ∧ t.chu.rateLoss ≠ State.reset.chu.rateLoss)) = true ∧
      answers (step { chAt 0 0 0 0 0 0 [] with inbox := [.reset .chu] })
        (fun t => decide (t.lifeOf .chu ≠ (chAt 0 0 0 0 0 0 []).lifeOf .chu)) = true ∧
      answers (step { txAt (keyedCfg 3) 0 0 with inbox := [.reset .txu] })
        (fun t => decide (t.txu.lcfg ≠ (txAt (keyedCfg 3) 0 0).txu.lcfg)) = true := by decide

/-- The narrowest and the widest legal record and each illegal one; and initial counters at the last value a width admits
and one beyond (conditions (d) and (e) of R231). -/
theorem witness_TxConfigResult :
    State.reset.txu.life = .unconfigured ∧
      (∀ cfg ∈ [plainCfg 1, plainCfg 31, keyedCfg 0], cfg.ikey.length = 16 ∧ cfg.ckey.length = 16 ∧
        (cfg.ien = true → cfg.ikp = true) ∧ (cfg.cen = true → cfg.ckp = true) ∧ 1 ≤ cfg.snbits.toNat ∧
        toy.initSn.toNat ≤ 2 ^ cfg.snbits.toNat - 1 ∧ toy.initHfn.toNat < 2 ^ (32 - cfg.snbits.toNat)) ∧
      (∀ cfg ∈ [plainCfg 0, { plainCfg 12 with ien := true }, { plainCfg 12 with cen := true }],
        cfg.ikey.length = 16 ∧ cfg.ckey.length = 16 ∧
        ((cfg.ien = true ∧ cfg.ikp = false) ∨ (cfg.cen = true ∧ cfg.ckp = false) ∨ cfg.snbits = 0)) ∧
      (let P : Params := { toy with initSn := 3, initHfn := 0x3FFFFFFF }
      P.initSn.toNat ≤ 2 ^ (plainCfg 2).snbits.toNat - 1 ∧ P.initHfn.toNat < 2 ^ (32 - (plainCfg 2).snbits.toNat) ∧
        2 ^ (plainCfg 1).snbits.toNat - 1 < P.initSn.toNat ∧
        2 ^ (32 - (plainCfg 3).snbits.toNat) ≤ P.initHfn.toNat) := by decide

/-- The records of `witness_TxConfigResult`, at RXU. -/
theorem witness_RxConfigResult : State.reset.rxu.life = .unconfigured ∧ State.reset.rxu.fault = false := by decide

/-- Rates at 65536 and at 65537. -/
theorem witness_ChConfigResult :
    State.reset.chu.life = .unconfigured ∧ State.reset.chu.fault = false ∧ (65536 : BitVec 17).toNat ≤ 65536 ∧
      65536 < (65537 : BitVec 17).toNat := by decide

/-! ### Witnesses: the transmitter -/

theorem plainCfg_legal_params : legalLink Config.params (plainCfg 12) := ⟨by decide, by decide⟩

/-- A configured transmitter without keys meets its invariant under the machine's own parameters. -/
theorem txAt_inv_params (sn hfn : Word) (hs : sn.toNat ≤ 4095) (hh : hfn.toNat < 1048576) :
    (txAt (plainCfg 12) sn hfn).txu.Inv Config.params :=
  ⟨fun h => absurd rfl h, fun _ => plainCfg_legal_params, fun _ => hs, fun _ => hh⟩

/-- Both sides of the wrap. -/
theorem witness_TxSendResult :
    (txAt (plainCfg 12) 4094 0).txu.Inv Config.params ∧ (txAt (plainCfg 12) 4095 1048575).txu.Inv Config.params ∧
      (txAt (plainCfg 12) 4095 1048575).txu.life = .ready ∧ ([] : List Byte).length < 2 ^ 32 ∧
      (∀ m, Config.maxPayload = some m →
        ([] : List Byte).length + (if (txAt (plainCfg 12) 4095 1048575).txu.lcfg.ien = true then 4 else 0) ≤ m) :=
  ⟨txAt_inv_params _ _ (by decide) (by decide), txAt_inv_params _ _ (by decide) (by decide), rfl, by decide,
    fun m _ => Nat.zero_le m⟩

/-- Three sends across the wrap of the count itself. -/
theorem witness_CountSequence :
    (txAt (plainCfg 12) 4095 1048575).txu.life = .ready ∧ (txAt (plainCfg 12) 4095 1048575).txu.Inv Config.params ∧
      ∀ x ∈ [((1 : Word), ([] : List Byte)), (2, []), (3, [])],
        sendOperandOk Config.params (txAt (plainCfg 12) 4095 1048575).txu x.2 = true := by
  refine ⟨rfl, txAt_inv_params _ _ (by decide) (by decide), ?_⟩
  simp [sendOperandOk, txAt, plainCfg, bytesOk]

/-- T13. -/
theorem witness_SendTooLongRefused :
    ({ toy with maxPayload := some 4 } : Params).maxPayload = some 4 ∧
      4 < [0x41].length + (if (txAt (keyedCfg 0) 0 0).txu.lcfg.ien = true then 4 else 0) ∧
      (txAt (keyedCfg 0) 0 0).txu.life = .ready := by decide

/-! ### Witnesses: the receiver -/

/-- A configured receiver that has received nothing. -/
theorem rxAt_window {P : Params} {cfg : LinkCfg} (ne hfn : Word) (hc : cfgLegal P cfg = true)
    (hk : cfg.keysOk = true) (hn : ne.toNat ≤ maxSn (snWidth cfg)) (hh : hfn.toNat < hfnMod (snWidth cfg)) :
    (rxAt cfg ne hfn).rxu.WindowInv P where
  idle h := absurd rfl h
  legal _ := ⟨hc, hk⟩
  neBound _ := hn
  hfnBound _ := hh
  ldBound _ h := by cases h
  successor _ h := by cases h
  rbForm := .nil
  rbRange := by simp [rxAt, resetRxu]
  headEmpty := rfl
  rcForm := .nil

/-- A configured receiver that has delivered the number before the expected one, and holds nothing. -/
theorem rxAfter_window {P : Params} {cfg : LinkCfg} (ld ne hfn : Word) (hc : cfgLegal P cfg = true)
    (hk : cfg.keysOk = true) (hl : ld.toNat ≤ maxSn (snWidth cfg)) (hn : ne.toNat ≤ maxSn (snWidth cfg))
    (hs : ne.toNat = (ld.toNat + 1) % 2 ^ snWidth cfg) (hh : hfn.toNat < hfnMod (snWidth cfg)) :
    (rxAfter cfg ld ne hfn).rxu.WindowInv P where
  idle h := absurd rfl h
  legal _ := ⟨hc, hk⟩
  neBound _ := hn
  hfnBound _ := hh
  ldBound _ _ := hl
  successor _ _ := hs
  rbForm := .nil
  rbRange := by simp [rxAfter, resetRxu]
  headEmpty := rfl
  rcForm := .nil

/-- `busyRx` meets the receiver's window invariant. -/
theorem busyRx_window (P : Params) (hc : cfgLegal P (plainCfg 12) = true) : busyRx.rxu.WindowInv P where
  idle h := absurd rfl h
  legal _ := ⟨hc, by decide⟩
  neBound _ := by decide
  hfnBound _ := by decide
  ldBound _ _ := by decide
  successor _ _ := by decide
  rbForm := by decide
  rbRange := by decide
  headEmpty := by decide
  rcForm := by decide

/-- Numbers in each case of the rule: H2, H3, H5, H6, and the estimate at its last value, H12. -/
theorem witness_ReconstructionRule :
    (rxAt (plainCfg 12) 0 3).rxu.WindowInv toy ∧ (rxAfter (plainCfg 12) 4095 0 1048575).rxu.WindowInv toy ∧
      (rxAt (plainCfg 12) 0 3).rxu.life = .ready ∧ (rxAfter (plainCfg 12) 4095 0 1048575).rxu.life = .ready ∧
      ∀ sn ∈ [(0 : Word), 2047, 2048, 2049, 4095], sn.toNat ≤ 2 ^ (plainCfg 12).snbits.toNat - 1 :=
  ⟨rxAt_window _ _ (by decide) (by decide) (by decide) (by decide),
    rxAfter_window _ _ _ (by decide) (by decide) (by decide) (by decide) (by decide) (by decide), rfl, rfl,
    by simp [plainCfg]⟩

/-- V2, with an empty payload, under the machine's own parameters. -/
theorem witness_CorruptedIsDiscarded :
    (rxAt (plainCfg 12) 0 0).accepts .rxu ∧
      receiveOperandOk Config.params (rxAt (plainCfg 12) 0 0).rxu { pdu 0 [] with corrupted := true } = true ∧
      ({ pdu 0 [] with corrupted := true } : Pdu).corrupted = true := by
  refine ⟨⟨rfl, rfl⟩, ?_, rfl⟩
  simp [receiveOperandOk, pduWithin, Pdu.fits, bytesOk, pdu]

/-- A corrupted PDU whose count is in the replay cache, and a PDU whose tag fails though its count is: one reason each
(R421). -/
theorem witness_DiscardPriority :
    (busyRx.accepts .rxu ∧ receiveOperandOk toy busyRx.rxu { pdu 0 [7] with corrupted := true } = true ∧
      reconstruct busyRx.rxu 0 ∈ busyRx.rxu.rc) ∧
      (let s : State := { rxAt integrityCfg 0 0 with rxu := { (rxAt integrityCfg 0 0).rxu with rc := [0] } }
      s.accepts .rxu ∧ receiveOperandOk toy s.rxu (pdu 0 [0x20, 0, 6, 1]) = true ∧ reconstruct s.rxu 0 ∈ s.rxu.rc ∧
        ([0x20, 0, 6, 1] : List Byte).drop 0 ≠ tagBytes (maci toy integrityCfg.ikey (reconstruct s.rxu 0)
          integrityCfg.bearer integrityCfg.dir [])) :=
  ⟨⟨⟨rfl, rfl⟩, by decide⟩, ⟨rfl, rfl⟩, by decide⟩

/-- V3 and V5: three bytes, and four that are not the tag. -/
theorem witness_IntegrityFailureIsDiscarded :
    (rxAt integrityCfg 0 0).accepts .rxu ∧ (rxAt integrityCfg 0 0).rxu.WindowInv toy ∧
      (∀ p ∈ [pdu 0 [1, 2, 3], pdu 0 [0x20, 0, 6, 1]],
        receiveOperandOk toy (rxAt integrityCfg 0 0).rxu p = true ∧ p.corrupted = false) ∧
      integrityCfg.ien = true ∧ integrityCfg.cen = false ∧ [1, 2, 3].length < 4 ∧
      ([0x20, 0, 6, 1] : List Byte).drop 0 ≠ tagBytes (maci toy integrityCfg.ikey
        (reconstruct (rxAt integrityCfg 0 0).rxu 0) integrityCfg.bearer integrityCfg.dir []) :=
  ⟨⟨rfl, rfl⟩, rxAt_window _ _ (by decide) (by decide) (by decide) (by decide), by decide, rfl, rfl, by decide,
    by decide⟩

/-- V7: the count of the delivered PDU again. -/
theorem witness_DuplicateIsDiscarded :
    busyRx.accepts .rxu ∧ receiveOperandOk toy busyRx.rxu (pdu 0 [7]) = true ∧ (pdu 0 [7]).corrupted = false ∧
      decipher toy busyRx.rxu.lcfg (reconstruct busyRx.rxu 0) [7] = some [7] ∧
      verify toy busyRx.rxu.lcfg (reconstruct busyRx.rxu 0) [7] = .ok ([7], .notApplicable) ∧
      reconstruct busyRx.rxu 0 ∈ busyRx.rxu.rc := ⟨⟨rfl, rfl⟩, by decide⟩

/-- The expected number at the wrap, an empty payload, under the machine's own parameters. -/
theorem witness_InOrderReceiveDelivers :
    let s := rxAfter (plainCfg 12) 4095 0 0
    s.accepts .rxu ∧ s.rxu.WindowInv Config.params ∧ s.rxu.rb = [] ∧
      receiveOperandOk Config.params s.rxu (pdu 0 []) = true ∧ (pdu 0 []).corrupted = false ∧
      (pdu 0 []).sn = s.rxu.neSn ∧ decipher Config.params s.rxu.lcfg (reconstruct s.rxu 0) [] = some [] ∧
      verify Config.params s.rxu.lcfg (reconstruct s.rxu 0) [] = .ok ([], .notApplicable) ∧
      reconstruct s.rxu 0 ∉ s.rxu.rc := by
  refine ⟨⟨rfl, rfl⟩, rxAfter_window _ _ _ (by decide) (by decide) (by decide) (by decide) (by decide) (by decide),
    rfl, ?_, rfl, rfl, rfl, rfl, by decide⟩
  simp [receiveOperandOk, pduWithin, Pdu.fits, bytesOk, pdu]

/-- V9's number after a slot was filled: buffered, nothing delivered. -/
theorem witness_GapBlocksDelivery :
    busyRx.rxu.WindowInv toy ∧ (pdu 2 [7]).sn ≠ busyRx.rxu.neSn ∧
      answers (rxReceive toy (pdu 2 [7]) busyRx) (fun _ => true) = true :=
  ⟨busyRx_window _ (by decide), by decide, by decide⟩

/-- Two PDUs that differ in every field the receiver does not read. -/
theorem witness_ReceiveReadsFourFields :
    (rxAt (keyedCfg 3) 0 0).rxu.WindowInv Config.params ∧
      let p := pdu 3 [1]
      let q : Pdu := { p with count := 9, hfn := 9, tag := some ⟨1, 2, 3, 4⟩, tampered := true, verified := .verifiedTrue,
                              status := .lost }
      p.sduId = q.sduId ∧ p.sn = q.sn ∧ p.payload = q.payload ∧ p.corrupted = q.corrupted ∧
        (p.corrupted = true → p.count = q.count ∧ p.verified = q.verified) ∧ p ≠ q :=
  ⟨rxAt_window _ _ (by decide) (by decide) (by decide) (by decide), by decide⟩

/-- E16: 4096 at width 12. -/
theorem witness_SnAboveMaxRefused :
    (rxAt (plainCfg 12) 0 0).accepts .rxu ∧ 2 ^ (plainCfg 12).snbits.toNat - 1 < (pdu 4096 []).sn.toNat :=
  ⟨⟨rfl, rfl⟩, by decide⟩

/-- A receiver at width 2 one cycle on, with a slot valid that an earlier cycle filled. -/
def staleRx : State :=
  { rxAfter (plainCfg 2) 0 1 1 with
    rxu := { (rxAfter (plainCfg 2) 0 1 1).rxu with
      rb := [(2, { sduId := 2, count := 2, body := [] })], rc := [2] } }

theorem staleRx_window (P : Params) (hc : cfgLegal P (plainCfg 2) = true) : staleRx.rxu.WindowInv P where
  idle h := absurd rfl h
  legal _ := ⟨hc, by decide⟩
  neBound _ := by decide
  hfnBound _ := by decide
  ldBound _ _ := by decide
  successor _ _ := by decide
  rbForm := by decide
  rbRange := by decide
  headEmpty := by decide
  rcForm := by decide

/-- What a PDU needs to reach step 6 of RX.RECEIVE in a receiver without keys: hypotheses of several statements. -/
def reachesBuffer (P : Params) (s : State) (p : Pdu) : Prop :=
  s.accepts .rxu ∧ s.rxu.WindowInv P ∧ receiveOperandOk P s.rxu p = true ∧ p.corrupted = false ∧
    decipher P s.rxu.lcfg (reconstruct s.rxu p.sn) p.payload = some p.payload ∧
    verify P s.rxu.lcfg (reconstruct s.rxu p.sn) p.payload = .ok (p.payload, .notApplicable) ∧
    reconstruct s.rxu p.sn ∉ s.rxu.rc

/-- A receiver at its first number with the slot after it valid (F3, after its first command). -/
def waitingRx : State :=
  { rxAt (plainCfg 12) 0 0 with
    rxu := { (rxAt (plainCfg 12) 0 0).rxu with rb := [(1, { sduId := 1, count := 1, body := [] })], rc := [1] } }

theorem waitingRx_window (P : Params) (hc : cfgLegal P (plainCfg 12) = true) : waitingRx.rxu.WindowInv P where
  idle h := absurd rfl h
  legal _ := ⟨hc, by decide⟩
  neBound _ := by decide
  hfnBound _ := by decide
  ldBound _ h := by cases h
  successor _ h := by cases h
  rbForm := by decide
  rbRange := by decide
  headEmpty := by decide
  rcForm := by decide

/-- A full replay cache (F1), a delivered list already full, one that fills in the middle of the drain (F3), an occupied
slot with a count that is new (F4). -/
theorem witness_ReceiveCapacityFaults :
    (reachesBuffer { toy with replayCap := some 2 } busyRx (pdu 2 [7]) ∧ 2 ≤ busyRx.rxu.rc.length) ∧
      (reachesBuffer { toy with dlCap := some 1 } busyRx (pdu 1 [7]) ∧ 1 - busyRx.rxu.dl.length = 0 ∧
        busyRx.rxu.neSn.toNat = (pdu 1 [7]).sn.toNat) ∧
      (reachesBuffer { toy with dlCap := some 1 } waitingRx (pdu 0 [7]) ∧
        ∀ j ≤ 1 - waitingRx.rxu.dl.length, (waitingRx.rxu.neSn.toNat + j) % 2 ^ 12 = (pdu 0 [7]).sn.toNat ∨
          Memory.find waitingRx.rxu.rb ((waitingRx.rxu.neSn.toNat + j) % 2 ^ 12) ≠ none) ∧
      (reachesBuffer { toy with collision := .fault } staleRx (pdu 2 [7]) ∧
        Memory.find staleRx.rxu.rb (pdu 2 [7]).sn.toNat ≠ none) :=
  ⟨⟨⟨⟨rfl, rfl⟩, busyRx_window _ (by decide), by decide⟩, by decide⟩,
    ⟨⟨⟨rfl, rfl⟩, busyRx_window _ (by decide), by decide⟩, rfl, rfl⟩,
    ⟨⟨⟨rfl, rfl⟩, waitingRx_window _ (by decide), by decide⟩, by decide⟩,
    ⟨⟨⟨rfl, rfl⟩, staleRx_window _ (by decide), by decide⟩, by decide⟩⟩

/-- The expected number, one that is not, an occupied slot that is overwritten, and a delivered list with room for exactly
the two slots the drain delivers. -/
theorem witness_AcceptedIsBufferedAndDrained :
    reachesBuffer toy busyRx (pdu 1 [7]) ∧ reachesBuffer toy busyRx (pdu 4095 [7]) ∧
      reachesBuffer toy staleRx (pdu 2 [7]) ∧ toy.replayCap = none ∧ toy.dlCap = none ∧ toy.collision = .overwrite ∧
      reachesBuffer { toy with dlCap := some 2 } waitingRx (pdu 0 [7]) ∧
      ∃ j ≤ 2 - waitingRx.rxu.dl.length, (if (waitingRx.rxu.neSn.toNat + j) % 2 ^ 12 = (pdu 0 [7]).sn.toNat then
        some { sduId := 0, count := 0, body := [7] } else
        Memory.find waitingRx.rxu.rb ((waitingRx.rxu.neSn.toNat + j) % 2 ^ 12)) = none :=
  ⟨⟨⟨rfl, rfl⟩, busyRx_window _ (by decide), by decide⟩, ⟨⟨rfl, rfl⟩, busyRx_window _ (by decide), by decide⟩,
    ⟨⟨rfl, rfl⟩, staleRx_window _ (by decide), by decide⟩, rfl, rfl, rfl,
    ⟨⟨rfl, rfl⟩, waitingRx_window _ (by decide), by decide⟩, 2, by decide, by decide⟩

theorem witness_SnapshotsChangeNothing : busyRx.accepts .rxu ∧ busyRx.rxu.WindowInv Config.params :=
  ⟨⟨rfl, rfl⟩, busyRx_window _ (by decide)⟩

/-- A frame on RXU, and the reset of another unit. -/
theorem witness_ReceiverStoresOnlyGrow :
    let s : State := { busyRx with inbox := [.reset .txu] }
    step s = .next busyRx ∧ s.inbox.head? ≠ some (.reset .rxu) := ⟨rfl, by decide⟩

/-- A transmitter and a receiver with integrity and ciphering, at the first number and at the wrap. -/
theorem witness_RoundTripDelivers :
    let s : State := { txAt (keyedCfg 3) 0 0 with rxu := (rxAt (keyedCfg 3) 0 0).rxu }
    let s' : State := { txAt (keyedCfg 3) 0 1 with rxu := (rxAfter (keyedCfg 3) 4095 0 0).rxu }
    (s.txu.Inv toy ∧ s.rxu.WindowInv toy ∧ InStep s.txu s.rxu ∧ txCount s.txu ∉ s.rxu.rc) ∧
      (s'.txu.Inv toy ∧ s'.rxu.WindowInv toy ∧ InStep s'.txu s'.rxu ∧ txCount s'.txu ∉ s'.rxu.rc) ∧
      s.accepts .rxu ∧ s'.accepts .rxu ∧ 2 ≤ s.txu.lcfg.snbits.toNat ∧ sendOperandOk toy s.txu [0x41] = true ∧
      (txWire toy s.txu [0x41]).length < 2 ^ 32 ∧ atCapacity toy.replayCap 0 = false ∧
      atCapacity toy.dlCap 0 = false := by
  refine ⟨⟨⟨fun h => absurd rfl h, fun _ => ⟨by decide, by decide⟩, fun _ => by decide, fun _ => by decide⟩,
      rxAt_window _ _ (by decide) (by decide) (by decide) (by decide), ⟨rfl, rfl, rfl, by decide⟩, by decide⟩,
    ⟨⟨fun h => absurd rfl h, fun _ => ⟨by decide, by decide⟩, fun _ => by decide, fun _ => by decide⟩,
      rxAfter_window _ _ _ (by decide) (by decide) (by decide) (by decide) (by decide) (by decide),
      ⟨rfl, rfl, rfl, by decide⟩, by decide⟩, ⟨rfl, rfl⟩, ⟨rfl, rfl⟩, by decide, by decide, by decide, rfl, rfl⟩

/-! ### Witnesses: the channel -/

theorem witness_RollConstraint :
    0 < (1 : BitVec 17).toNat ∧ (1 : BitVec 17).toNat < 65536 ∧ 0 < (65535 : BitVec 17).toNat ∧
      (65535 : BitVec 17).toNat < 65536 := by decide

/-- Payloads and a `MAXD` that the draw sets speak of, at their smallest. -/
theorem witness_draw_sets : (1 : BitVec 16) ≠ 0 ∧ (pdu 0 [0]).payload ≠ [] := by decide

/-- X1. -/
theorem witness_NoOpChannel :
    let s := chAt 0 0 0 0 0 5 []
    s.accepts .chu ∧ transmitOperandOk toy [pdu 0 [1], pdu 1 []] = true ∧ s.chu.rateLoss = 0 ∧ s.chu.rateDup = 0 ∧
      s.chu.rateReorder = 0 ∧ s.chu.rateCorrupt = 0 ∧ s.chu.rateTamper = 0 ∧ s.chu.db = [] ∧
      withinLimit toy.dbCap [pdu 0 [1], pdu 1 []].length = true :=
  ⟨⟨rfl, rfl⟩, by decide, rfl, rfl, rfl, rfl, rfl, rfl, rfl⟩

/-- A channel with delays 0 and 2 in its buffer (X14), at loss rate 65536. -/
def delayedCh : State := chAt 65536 0 0 0 0 3 [{ pdu := pdu 1 [], delay := 0 }, { pdu := pdu 2 [5], delay := 2 }]

theorem witness_TickReleases : delayedCh.accepts .chu := ⟨rfl, rfl⟩

theorem witness_TotalLossDropsAll :
    delayedCh.accepts .chu ∧ transmitOperandOk Config.params [pdu 0 [], pdu 1 []] = true ∧
      delayedCh.chu.rateLoss = 65536 := by
  refine ⟨⟨rfl, rfl⟩, ?_, rfl⟩
  simp [transmitOperandOk, pduWithin, Pdu.fits, bytesOk, pdu]

theorem witness_FlushReturnsAll : delayedCh.accepts .chu := ⟨rfl, rfl⟩

/-- X13's channel, and one at rates between with delays before it and a `DB_CAP` that every append exceeds. -/
theorem witness_DuplicationAndDelay :
    let s := chAt 0 65536 65536 0 0 1 []
    let s' := chAt 1 2 3 4 5 3 delayedCh.chu.db
    s.accepts .chu ∧ s'.accepts .chu ∧ transmitOperandOk toy [pdu 0 [1]] = true ∧
      withinLimit toy.dbCap s.chu.db.length = true ∧
      withinLimit ({ toy with dbCap := some 2 } : Params).dbCap s'.chu.db.length = true :=
  ⟨⟨rfl, rfl⟩, ⟨rfl, rfl⟩, by decide, rfl, rfl⟩

/-- X4's channel, X5's, and one at rates between. -/
theorem witness_TamperExcludesCorruption :
    transmitOperandOk toy [pdu 0 [0, 0, 0]] = true ∧
      ∀ s ∈ [chAt 0 0 0 65536 65536 0 [], chAt 0 0 0 65536 0 0 [], chAt 1 2 3 4 5 6 delayedCh.chu.db],
        s.lifeOf .chu = .ready ∧ s.faultOf .chu = false ∧
        answers (chTransmit toy [pdu 0 [0, 0, 0]] s) (fun t => decide (t.chu.fault = false)) = true := by decide

/-- X13's command, which clones and keeps. -/
theorem witness_ChannelOnlyClones :
    let s := chAt 0 65536 65536 0 0 1 []
    s.accepts .chu ∧ transmitOperandOk toy [pdu 0 []] = true ∧
      answers (chTransmit toy [pdu 0 []] s) (fun t => decide (t.chu.fault = false)) = true :=
  ⟨⟨rfl, rfl⟩, by decide, by decide⟩

/-- An entry of delay 1: one tick, and the next that returns it, under the machine's own parameters. -/
theorem witness_BufferedPduArrives :
    let e : DbEntry := { pdu := pdu 2 [5], delay := 1 }
    let s := chAt 0 0 0 0 0 3 [e]
    s.accepts .chu ∧ e ∈ s.chu.db ∧ (∀ ps ∈ [([] : List Pdu)], transmitOperandOk Config.params ps = true) ∧
      ∃ t t' : State, execAll ([[]].map Instr.chTransmit) s = .next t ∧ t.chu.fault = false ∧
        exec (.chTransmit []) t = .next t' ∧ t'.chu.fault = false ∧ [([] : List Pdu)].length = e.delay.toNat :=
  ⟨⟨rfl, rfl⟩, List.mem_singleton_self _, by decide, _, _, rfl, rfl, rfl, rfl, rfl⟩

/-- X17's `DB_CAP`, one entry before it and one more; and a `DB_CAP` that only the clone exceeds. -/
theorem witness_TransmitCapacityFault :
    let s := chAt 0 0 0 0 0 2 [{ pdu := pdu 1 [], delay := 1 }]
    let s' := chAt 0 65536 0 0 0 2 [{ pdu := pdu 1 [], delay := 1 }]
    (s.accepts .chu ∧ transmitOperandOk { toy with dbCap := some 1 } [pdu 0 []] = true ∧ s.chu.rateLoss = 0 ∧
      s.chu.db.length ≤ 1 ∧ 1 < s.chu.db.length + [pdu 0 []].length) ∧
      s'.accepts .chu ∧ transmitOperandOk { toy with dbCap := some 2 } [pdu 0 []] = true ∧ s'.chu.rateLoss = 0 ∧
        s'.chu.db.length ≤ 2 ∧ s'.chu.rateDup = 65536 ∧ 2 < s'.chu.db.length + 2 * [pdu 0 []].length :=
  ⟨⟨⟨rfl, rfl⟩, by decide, rfl, by decide, by decide⟩, ⟨rfl, rfl⟩, by decide, rfl, by decide, rfl, by decide⟩

/-- The reference design, and a command of each unit. -/
theorem witness_UnboundedStoresNeverFault :
    toy.replayCap = none ∧ toy.dlCap = none ∧ toy.dbCap = none ∧ toy.collision = .overwrite ∧
      answers (execAt toy (.txSend 0 [7]) (txAt (plainCfg 12) 0 0)) (fun _ => true) = true ∧
      answers (execAt toy (.rxReceive (pdu 1 [7])) busyRx) (fun _ => true) = true ∧
      answers (execAt toy (.chTransmit [pdu 0 []]) delayedCh) (fun _ => true) = true := by decide

/-! ### Witnesses: the whole machine -/

theorem witness_ResetSetsUnit :
    ({ busyRx with inbox := [.reset .rxu] } : State).inbox = .reset .rxu :: [] := rfl

theorem witness_InstructionsKeepOtherUnits :
    answers (exec (.txConfig (plainCfg 12)) busyRx) (fun t => decide (t.txu ≠ busyRx.txu)) = true ∧
      answers (exec .rxStats busyRx) (fun _ => true) = true ∧
      answers (exec (.chConfig { loss := 0, dup := 0, reorder := 0, corrupt := 0, tamper := 0, maxd := 0, seed := 1 })
        busyRx) (fun t => decide (t.chu ≠ busyRx.chu)) = true := by decide

/-- Two states with one receiver and different transmitters and channels. -/
theorem witness_UnitsSeeOnlyThemselves :
    let s2 : State := { busyRx with txu := (txAt (keyedCfg 3) 7 7).txu, chu := delayedCh.chu, drawIx := 9 }
    busyRx.rxu = s2.rxu ∧ busyRx.txu ≠ s2.txu ∧ busyRx.chu ≠ s2.chu ∧
      answers (exec .rxDelivered busyRx) (fun _ => true) = true := by decide

/-- A transmitter and a receiver without keys, each answering its command. -/
theorem witness_AbsentKeysUnread :
    let s : State := { txAt (plainCfg 12) 0 0 with rxu := (rxAt (plainCfg 12) 0 0).rxu }
    s.txu.Inv Config.params ∧ s.rxu.WindowInv Config.params ∧ s.txu.life = .ready ∧ s.rxu.life = .ready ∧
      s.txu.lcfg.ikp = false ∧ s.txu.lcfg.ckp = false ∧
      (∃ t, exec (.txSend 0 []) s = .next t) ∧ ∃ t, exec (.rxReceive { pdu 0 [] with corrupted := true }) s = .next t := by
  refine ⟨txAt_inv_params _ _ (by decide) (by decide),
    rxAt_window _ _ (by decide) (by decide) (by decide) (by decide), rfl, rfl, rfl, rfl, ?_, ?_⟩
  · exact ⟨_, txSend_ready rfl (by simp [sendOperandOk, txAt, plainCfg, bytesOk])⟩
  · simp only [exec, execRxReceive, rxReceive]
    refine ⟨_, Eq.trans (runCommand_accepts _ rfl ⟨rfl, rfl⟩ ?_) rfl⟩
    simp [receiveOperandOk, pduWithin, Pdu.fits, bytesOk, pdu]

/-- The machine after reset, with a configuration to execute, meets the hypotheses of the four statements that a step
keeps an invariant. -/
theorem witness_StepKeeps :
    let s : State := { State.reset with inbox := [.frame .chu { cmd := 0x30000000, operands := List.replicate 7 0 }] }
    s.txu.Inv Config.params ∧ s.rxu.WindowInv Config.params ∧ s.rxu.LedgerInv Config.params ∧
      s.chu.Inv Config.params ∧ answers (step s) (fun _ => true) = true := by
  refine ⟨⟨fun _ => rfl, fun h => by (cases h), fun h => by (cases h), fun h => by (cases h)⟩,
    ⟨fun _ => rfl, fun h => by (cases h), fun h => by (cases h), fun h => by (cases h), fun h => by (cases h),
      fun h => by (cases h), .nil, by simp [State.reset, resetRxu], rfl, .nil⟩,
    ⟨by simp [State.reset, resetRxu], by simp [State.reset, resetRxu], .nil, by simp [State.reset, resetRxu], .nil,
      by simp [State.reset, resetRxu], rfl, rfl, withinLimit_zero _, withinLimit_zero _⟩,
    ⟨fun _ => rfl, by decide, by decide, by decide, by decide, by decide, by simp [State.reset, resetChu],
      withinLimit_zero _⟩, by decide⟩

theorem witness_NoRunStops :
    ({ State.reset with inbox := [.frame .chu { cmd := 0x30000000, operands := List.replicate 7 0 }] } : State).Inv :=
  ⟨witness_StepKeeps.1, witness_StepKeeps.2.1, witness_StepKeeps.2.2.1, witness_StepKeeps.2.2.2.1⟩

end Sys2Proof.Tests
end

section
/-! O1 and O2: the opcode map and the illegal command words (30_encoding.md R141 to R145, 60_exceptions.md R401). -/

namespace Sys2Proof

/-! ### Command words (30_encoding.md R141 to R145) -/

/-- A command word decodes to an operation exactly where it is that operation's word, on that operation's port. -/
theorem decodeOp_eq_some_iff {u : UnitId} {w : Word} {op : Op} :
    decodeOp u w = some op ↔ u = op.unit ∧ w = op.word := by
  constructor
  · intro h
    obtain ⟨hu, hw⟩ := decodeOp_eq_some h
    exact ⟨hu.symm, hw⟩
  · rintro ⟨rfl, rfl⟩
    exact decodeOp_word op

/-- `FUNC` has no row on TXU's port from 2 on (30_encoding.md R145). -/
theorem Op.ofFields_txu_eq_none_iff : ∀ func, Op.ofFields UnitId.txu.code func = none ↔ 2 ≤ func.toNat := by decide

/-- `FUNC` has no row on RXU's port from 4 on (30_encoding.md R145). -/
theorem Op.ofFields_rxu_eq_none_iff : ∀ func, Op.ofFields UnitId.rxu.code func = none ↔ 4 ≤ func.toNat := by decide

/-- `FUNC` has no row on CHU's port from 3 on (30_encoding.md R145). -/
theorem Op.ofFields_chu_eq_none_iff : ∀ func, Op.ofFields UnitId.chu.code func = none ↔ 3 ≤ func.toNat := by decide

/-- A command word names no operation exactly where one of the three checks of the decoder fails. -/
theorem decodeOp_eq_none_iff (u : UnitId) (w : Word) :
    decodeOp u w = none ↔
      w.extractLsb' 0 24 ≠ 0 ∨ w.extractLsb' 28 4 ≠ u.code ∨ Op.ofFields u.code (w.extractLsb' 24 4) = none := by
  unfold decodeOp
  split
  · next hr => exact iff_of_true rfl (.inl hr)
  · next hr =>
    split
    · next hu => exact iff_of_true rfl (.inr (.inl hu))
    · next hu => rw [or_iff_right hr, or_iff_right hu, not_not.mp hu]

/-- A frame is illegal exactly where its command word names no operation: the operands play no part. -/
theorem decode_eq_illegal_iff (u : UnitId) (f : Frame) :
    decode u f = .error .illegalCommand ↔ decodeOp u f.cmd = none := by
  unfold decode
  split
  · next h => simp [h]
  · next op h => split <;> simp [h]

namespace Machine

/-- A step whose next event is a frame runs that frame. -/
theorem step_frame {s : State} {u : UnitId} {f : Frame} {rest : List Event} (h : s.inbox = .frame u f :: rest) :
    step s = runFrame u f { s with inbox := rest } := by
  rw [step, fetch_cons h]

/-- An illegal frame is answered `ILLEGAL_COMMAND`. -/
theorem runFrame_illegal {u : UnitId} {f : Frame} (h : decode u f = .error .illegalCommand) (s : State) :
    runFrame u f s = .next (raiseIllegal u f.cmd s) := by
  rw [runFrame, h]

/-! ### The two statements -/

/-- Settles O1, by the word and the port of each of the nine operations. -/
theorem opcodeMapDecodes : Obligations.OpcodeMapDecodes := by
  intro u w op
  rw [decodeOp_eq_some_iff]
  cases op <;> simp [Op.unit, Op.word, UnitId.code, Op.func]

/-- Settles O2: the decoder's three checks, with the rows of each port, and the answer to an illegal frame. -/
theorem illegalCommandExactly : Obligations.IllegalCommandExactly := by
  refine ⟨fun u w ops => ?_, fun s u f rest hin hd => ?_⟩
  · rw [decode_eq_illegal_iff, decodeOp_eq_none_iff]
    cases u with
    | txu => rw [Op.ofFields_txu_eq_none_iff]; simp [UnitId.code]
    | rxu => rw [Op.ofFields_rxu_eq_none_iff]; simp [UnitId.code]
    | chu => rw [Op.ofFields_chu_eq_none_iff]; simp [UnitId.code]
  · rw [step_frame hin, runFrame_illegal hd]
    rfl

end Machine

end Sys2Proof
end

section
/-! O8: the PDU descriptors that a command refuses (30_encoding.md R146, R150, R151, R155). -/

namespace Sys2Proof

/-! ### Byte strings (30_encoding.md R146) -/

/-- The words of a string of `n` bytes: as many as it occupies, the pad bytes of the last one zero. -/
def PaddedWords (n : Nat) (words : List Word) : Prop :=
  words.length = wordsFor n ∧
    ∀ last, words.getLast? = some last → last.toNat % 2 ^ (8 * ((4 - n % 4) % 4)) = 0

/-- The low `len` bits of a word are 0 exactly where its value is a multiple of `2 ^ len`. -/
theorem lowField_eq_zero_iff (w : Word) (len : Nat) : w.extractLsb' 0 len = 0 ↔ w.toNat % 2 ^ len = 0 := by
  rw [← BitVec.toNat_inj]
  simp

/-- A string of one to four bytes occupies one word, whose bytes after the string are 0. -/
theorem paddedWords_single {n : Nat} (hn : 0 < n) (h4 : n ≤ 4) (w : Word) (ws : List Word) :
    PaddedWords n (w :: ws) ↔ ws = [] ∧ w.extractLsb' 0 (8 * (4 - n)) = 0 := by
  have hlen : wordsFor n = 1 := by unfold wordsFor; omega
  have hpad : (4 - n % 4) % 4 = 4 - n := by omega
  rw [lowField_eq_zero_iff, PaddedWords, hlen, hpad]
  cases ws <;> simp

/-- Four bytes more are one word more, whose bytes are no pad. -/
theorem paddedWords_add_four (n : Nat) (w : Word) (ws : List Word) :
    PaddedWords (n + 4) (w :: ws) ↔ PaddedWords n ws := by
  have hlen : wordsFor (n + 4) = wordsFor n + 1 := by unfold wordsFor; omega
  rw [PaddedWords, PaddedWords, hlen, Nat.add_mod_right]
  cases ws with
  | cons v vs => simp
  | nil =>
    have hn : 0 = wordsFor n → n = 0 := by unfold wordsFor; omega
    constructor
    · rintro ⟨hl, -⟩
      exact ⟨Nat.add_right_cancel hl, by simp⟩
    · rintro ⟨hl, -⟩
      obtain rfl := hn hl
      exact ⟨rfl, fun last _ => Nat.mod_one _⟩

/-- `takeBytes` reads a string of `n` bytes and leaves nothing exactly from the words of one. -/
theorem exists_takeBytes_iff (n : Nat) (words : List Word) :
    (∃ bytes, takeBytes n words = some (bytes, [])) ↔ PaddedWords n words := by
  induction words generalizing n with
  | nil =>
    cases n with
    | zero => simp [takeBytes, PaddedWords, wordsFor]
    | succ n => simp [takeBytes, PaddedWords, wordsFor]; omega
  | cons w ws ih =>
    match n with
    | 0 => simp [takeBytes, PaddedWords, wordsFor]
    | 1 | 2 | 3 =>
      rw [paddedWords_single (by decide) (by decide)]
      simp only [takeBytes]
      split
      · next h => exact Iff.trans (by simp) (and_iff_left h).symm
      · next h => exact iff_of_false (by simp) fun hw => h hw.2
    | n + 4 =>
      rw [paddedWords_add_four, ← ih]
      simp only [takeBytes]
      cases takeBytes n ws with
      | none => simp
      | some r => obtain ⟨bytes, rest⟩ := r; simp

/-- `takeBytes` reads exactly the packed strings of the length asked for, and leaves what stands after them. -/
theorem takeBytes_eq_some_iff {n : Nat} {words rest : List Word} {bytes : List Byte} :
    takeBytes n words = some (bytes, rest) ↔ bytes.length = n ∧ words = packBytes bytes ++ rest := by
  constructor
  · exact takeBytes_eq_some
  · rintro ⟨rfl, rfl⟩
    exact takeBytes_packBytes bytes rest

/-- The words of a string of `n` bytes are what such a string packs into. -/
theorem paddedWords_iff_packBytes (n : Nat) (words : List Word) :
    PaddedWords n words ↔ ∃ bytes, bytes.length = n ∧ words = packBytes bytes := by
  simp [← exists_takeBytes_iff, takeBytes_eq_some_iff]

/-! ### PDU descriptors (30_encoding.md R150, R151) -/

/-- The length of a payload that a descriptor can carry is what its `LEN` word says. -/
theorem Pdu.fits_iff (p : Pdu) : p.fits = true ↔ (BitVec.ofNat 32 p.payload.length).toNat = p.payload.length := by
  simp only [Pdu.fits, bytesOk, decide_eq_true_eq, BitVec.toNat_ofNat]
  omega

/-- What the decoder reads of a descriptor is the PDU that is written so, and it stops where the descriptor ends. -/
theorem decodePdu_eq_some_iff {ws rest : List Word} {p : Pdu} :
    decodePdu ws = some (p, rest) ↔ p.fits = true ∧ ws = encodePdu p ++ rest := by
  constructor
  · intro h
    unfold decodePdu at h
    split at h
    · next sduId sn count hfn flags tag len words =>
      split at h
      · cases h
      · next hres =>
        split at h
        · next verified status t payload rest' hv hs ht hp =>
          simp only [Option.some.injEq, Prod.mk.injEq] at h
          obtain ⟨rfl, rfl⟩ := h
          obtain ⟨h1, h2⟩ := not_or.mp hres
          obtain ⟨hlen, rfl⟩ := takeBytes_eq_some hp
          obtain ⟨htag, rfl⟩ := decodeTag_eq_some ht
          have hword : BitVec.ofNat 32 payload.length = len := by simp [hlen]
          refine ⟨?_, ?_⟩
          · rw [Pdu.fits_iff, hword, hlen]
          · rw [encodePdu, encodePduWith, encodeFlags_eq _ (not_not.mp h1) (not_not.mp h2)
              (Verified.code_of_ofCode hv) (Status.code_of_ofCode hs) htag rfl rfl, hword]
            rfl
        · cases h
    · cases h
  · rintro ⟨hfits, rfl⟩
    obtain ⟨h1, h2, hv, hs, ht, hc, hm⟩ := encodeFlags_fields p
    have hlen := (Pdu.fits_iff p).mp hfits
    simp only [encodePdu, encodePduWith, decodePdu, List.cons_append, h1, h2, ne_eq, not_true_eq_false, or_self,
      if_false, hv, hs, ht, hc, hm, hlen, takeBytes_packBytes, Verified.ofCode_code, Status.ofCode_code, decodeTag_encodeTag]

/-- The descriptors that are well formed for a limit on the payload, field by field as R151 has them. -/
def DescriptorWords (limit : Option Nat) (ws : List Word) : Prop :=
  ∃ (sduId sn count hfn flags tag len : Word) (words : List Word),
    ws = [sduId, sn, count, hfn, flags, tag, len] ++ words ∧ words.length = (len.toNat + 3) / 4 ∧
    flags.extractLsb' 5 3 = 0 ∧ flags.extractLsb' 12 20 = 0 ∧ flags.extractLsb' 2 2 ≠ 3 ∧
    (flags.extractLsb' 8 4).toNat ≤ 12 ∧ (flags.getLsbD 4 = false → tag = 0) ∧
    (∀ m, limit = some m → len.toNat ≤ m) ∧
    ∀ last, words.getLast? = some last → last.toNat % 2 ^ (8 * ((4 - len.toNat % 4) % 4)) = 0

/-- Every code but the reserved 3 is that of a `verified` value. -/
theorem Verified.exists_code_iff (c : BitVec 2) : (∃ v : Verified, v.code = c) ↔ c ≠ 3 := by
  constructor
  · rintro ⟨v, rfl⟩
    cases v <;> decide
  · intro hc
    have hsome : ∀ c : BitVec 2, c ≠ 3 → Verified.ofCode c ≠ none := by decide
    obtain ⟨v, hv⟩ := Option.ne_none_iff_exists'.mp (hsome c hc)
    exact ⟨v, Verified.code_of_ofCode hv⟩

/-- Every code up to 12 is that of a status label. -/
theorem Status.exists_code_iff (c : BitVec 4) : (∃ s : Status, s.code = c) ↔ c.toNat ≤ 12 := by
  constructor
  · rintro ⟨s, rfl⟩
    cases s <;> decide
  · intro hc
    have hsome : ∀ c : BitVec 4, c.toNat ≤ 12 → Status.ofCode c ≠ none := by decide
    obtain ⟨s, hs⟩ := Option.ne_none_iff_exists'.mp (hsome c hc)
    exact ⟨s, Status.code_of_ofCode hs⟩

/-- A `TAG` word is that of an absent or a present tag exactly where an absent one's is 0. -/
theorem exists_encodeTag_iff (present : Bool) (w : Word) :
    (∃ t : Option Tag, t.isSome = present ∧ encodeTag t = w) ↔ (present = false → w = 0) := by
  constructor
  · rintro ⟨t, rfl, rfl⟩ hn
    cases t with
    | none => rfl
    | some t => cases hn
  · intro h
    cases present with
    | false => exact ⟨none, rfl, (h rfl).symm⟩
    | true => exact ⟨some (Tag.ofWord w), rfl, Tag.word_ofWord w⟩

/-- A length is within a limit exactly where it is at most the bound, if there is one. -/
theorem Machine.withinLimit_iff (limit : Option Nat) (n : Nat) :
    Machine.withinLimit limit n = true ↔ ∀ m, limit = some m → n ≤ m := by
  cases limit <;> simp [Machine.withinLimit]

/-- The well-formed descriptors are what the PDUs within `MAX_PAYLOAD` are written as. -/
theorem descriptorWords_iff (P : Params) (ws : List Word) :
    DescriptorWords P.maxPayload ws ↔ ∃ p : Pdu, Machine.pduWithin P p = true ∧ ws = encodePdu p := by
  constructor
  · rintro ⟨sduId, sn, count, hfn, flags, tag, len, words, rfl, hlen, h1, h2, hv, hs, ht, hmax, hpad⟩
    obtain ⟨v, hv⟩ := (Verified.exists_code_iff _).mpr hv
    obtain ⟨s, hs⟩ := (Status.exists_code_iff _).mpr hs
    obtain ⟨t, htag, rfl⟩ := (exists_encodeTag_iff _ _).mpr ht
    obtain ⟨bytes, hbytes, rfl⟩ := (paddedWords_iff_packBytes _ _).mp ⟨hlen, hpad⟩
    have hword : BitVec.ofNat 32 bytes.length = len := by simp [hbytes]
    refine ⟨{ sduId, sn, count, hfn, payload := bytes, tag := t, corrupted := flags.getLsbD 0,
              tampered := flags.getLsbD 1, verified := v, status := s }, ?_, ?_⟩
    · rw [Machine.pduWithin, Bool.and_eq_true, Pdu.fits_iff, Machine.withinLimit_iff, hword, hbytes]
      exact ⟨rfl, hmax⟩
    · rw [encodePdu, encodePduWith, encodeFlags_eq _ h1 h2 hv hs htag rfl rfl, hword]
      rfl
  · rintro ⟨p, hp, rfl⟩
    rw [Machine.pduWithin, Bool.and_eq_true, Pdu.fits_iff, Machine.withinLimit_iff] at hp
    obtain ⟨hlen, hmax⟩ := hp
    obtain ⟨h1, h2, hv, hs, ht, -, -⟩ := encodeFlags_fields p
    obtain ⟨hwords, hpad⟩ := (paddedWords_iff_packBytes p.payload.length _).mpr ⟨p.payload, rfl, rfl⟩
    refine ⟨p.sduId, p.sn, p.count, p.hfn, encodeFlags p, encodeTag p.tag, BitVec.ofNat 32 p.payload.length,
      packBytes p.payload, rfl, ?_, h1, h2, ?_, ?_, ?_, ?_, ?_⟩
    · rw [hlen]; exact hwords
    · rw [hv, ← Verified.exists_code_iff]; exact ⟨_, rfl⟩
    · rw [hs, ← Status.exists_code_iff]; exact ⟨_, rfl⟩
    · rw [ht, ← exists_encodeTag_iff]; exact ⟨_, rfl, rfl⟩
    · rw [hlen]; exact hmax
    · rw [hlen]; exact hpad

/-- A PDU within `MAX_PAYLOAD` is one that a descriptor can carry. -/
theorem Machine.fits_of_pduWithin {P : Params} {p : Pdu} (h : Machine.pduWithin P p = true) : p.fits = true :=
  (Bool.and_eq_true_iff.mp h).1

/-! ### The records of RX.RECEIVE and CH.TRANSMIT (30_encoding.md R155) -/

/-- A record of RX.RECEIVE decodes exactly where it is one descriptor. -/
theorem decodeReceive_eq_some_iff {ws : List Word} {p : Pdu} :
    decodeReceive ws = some p ↔ p.fits = true ∧ ws = encodePdu p := by
  have h : decodeReceive ws = some p ↔ decodePdu ws = some (p, []) := by
    unfold decodeReceive
    split
    · next q hq => simp [hq]
    · next hne => exact iff_of_false (by simp) fun h => hne p h
  rw [h, decodePdu_eq_some_iff, List.append_nil]

/-- The decoder reads `n` descriptors exactly where `n` PDUs are written one after another. -/
theorem decodePdus_eq_some_iff {n : Nat} {ws rest : List Word} {ps : List Pdu} :
    decodePdus n ws = some (ps, rest) ↔
      ps.length = n ∧ (∀ p ∈ ps, p.fits = true) ∧ ws = ps.flatMap encodePdu ++ rest := by
  induction n generalizing ws ps with
  | zero =>
    rw [List.length_eq_zero_iff, decodePdus]
    constructor
    · intro h
      simp only [Option.some.injEq, Prod.mk.injEq] at h
      obtain ⟨rfl, rfl⟩ := h
      simp
    · rintro ⟨rfl, -, rfl⟩
      rfl
  | succ n ih =>
    constructor
    · intro h
      rw [decodePdus] at h
      split at h
      · cases h
      · next p mid hp =>
        split at h
        · cases h
        · next qs rest' hqs =>
          cases h
          obtain ⟨hfit, rfl⟩ := decodePdu_eq_some_iff.mp hp
          obtain ⟨rfl, hfits, rfl⟩ := ih.mp hqs
          exact ⟨rfl, List.forall_mem_cons.mpr ⟨hfit, hfits⟩, by simp⟩
    · rintro ⟨hlen, hfits, rfl⟩
      cases ps with
      | nil => cases hlen
      | cons p qs =>
        obtain ⟨hfit, hfits⟩ := List.forall_mem_cons.mp hfits
        have hp : decodePdu ((p :: qs).flatMap encodePdu ++ rest) = some (p, qs.flatMap encodePdu ++ rest) :=
          decodePdu_eq_some_iff.mpr ⟨hfit, by simp⟩
        have hqs : decodePdus n (qs.flatMap encodePdu ++ rest) = some (qs, rest) :=
          ih.mpr ⟨Nat.succ_inj.mp hlen, hfits, rfl⟩
        simp only [decodePdus, hp, hqs]

/-- A record of CH.TRANSMIT decodes exactly where it is a number and so many descriptors. -/
theorem decodeTransmit_cons_eq_some_iff {n : Word} {words : List Word} {ps : List Pdu} :
    decodeTransmit (n :: words) = some ps ↔
      ps.length = n.toNat ∧ (∀ p ∈ ps, p.fits = true) ∧ words = ps.flatMap encodePdu := by
  have h : decodeTransmit (n :: words) = some ps ↔ decodePdus n.toNat words = some (ps, []) := by
    rw [decodeTransmit]
    split
    · next qs hqs => simp [hqs]
    · next hne => exact iff_of_false (by simp) fun h => hne ps h
  rw [h, decodePdus_eq_some_iff, List.append_nil]

/-- Descriptors that are all well formed are what a list of PDUs within `MAX_PAYLOAD` is written as. -/
theorem forall_descriptorWords_iff (P : Params) (ds : List (List Word)) :
    (∀ d ∈ ds, DescriptorWords P.maxPayload d) ↔
      ∃ ps : List Pdu, (∀ p ∈ ps, Machine.pduWithin P p = true) ∧ ds = ps.map encodePdu := by
  induction ds with
  | nil => exact iff_of_true (by simp) ⟨[], by simp⟩
  | cons d ds ih =>
    rw [List.forall_mem_cons, ih, descriptorWords_iff]
    constructor
    · rintro ⟨⟨p, hp, rfl⟩, ps, hps, rfl⟩
      exact ⟨p :: ps, List.forall_mem_cons.mpr ⟨hp, hps⟩, rfl⟩
    · rintro ⟨ps, hps, heq⟩
      cases ps with
      | nil => cases heq
      | cons p ps =>
        obtain ⟨rfl, rfl⟩ := List.cons_eq_cons.mp heq
        obtain ⟨hp, hps⟩ := List.forall_mem_cons.mp hps
        exact ⟨⟨p, hp, rfl⟩, ps, hps, rfl⟩

namespace Machine

/-! ### Records that pass the operand check (60_exceptions.md R400, R402) -/

/-- RX.RECEIVE has legal operands exactly where the record is one well-formed descriptor with `SN ≤ MAX_SN`. -/
theorem receiveRecord_ok_iff (P : Params) (r : Rxu) (ops : List Word) :
    (DescriptorWords P.maxPayload ops ∧ ∀ sn, ops[1]? = some sn → sn.toNat ≤ maxSn (snWidth r.lcfg)) ↔
      ∃ p, decodeReceive ops = some p ∧ receiveOperandOk P r p = true := by
  have hsn : ∀ p : Pdu, (encodePdu p)[1]? = some p.sn := fun _ => rfl
  simp only [descriptorWords_iff, decodeReceive_eq_some_iff, receiveOperandOk, Bool.and_eq_true, decide_eq_true_eq]
  constructor
  · rintro ⟨⟨p, hp, rfl⟩, hbound⟩
    exact ⟨p, ⟨fits_of_pduWithin hp, rfl⟩, hp, hbound _ (hsn p)⟩
  · rintro ⟨p, ⟨-, rfl⟩, hp, hbound⟩
    refine ⟨⟨p, hp, rfl⟩, fun sn h => ?_⟩
    obtain rfl := Option.some.inj ((hsn p).symm.trans h)
    exact hbound

/-- CH.TRANSMIT has legal operands exactly where the record is a number and so many well-formed descriptors. -/
theorem transmitRecord_ok_iff (P : Params) (ops : List Word) :
    (∃ (n : Word) (ds : List (List Word)), ops = n :: ds.flatten ∧ ds.length = n.toNat ∧
        ∀ d ∈ ds, DescriptorWords P.maxPayload d) ↔
      ∃ ps, decodeTransmit ops = some ps ∧ transmitOperandOk P ps = true := by
  simp only [forall_descriptorWords_iff, transmitOperandOk, Bool.and_eq_true, decide_eq_true_eq, List.all_eq_true]
  constructor
  · rintro ⟨n, ds, rfl, hlen, ps, hps, rfl⟩
    rw [List.length_map] at hlen
    refine ⟨ps, decodeTransmit_cons_eq_some_iff.mpr ⟨hlen, fun p hp => fits_of_pduWithin (hps p hp), ?_⟩, ?_, hps⟩
    · rw [List.flatMap_def]
    · rw [hlen]; exact n.isLt
  · rintro ⟨ps, hd, -, hps⟩
    cases ops with
    | nil => cases hd
    | cons n words =>
      obtain ⟨hlen, -, rfl⟩ := decodeTransmit_cons_eq_some_iff.mp hd
      exact ⟨n, ps.map encodePdu, by rw [List.flatMap_def], by rw [List.length_map, hlen], ps, hps, rfl⟩

/-! ### Answers tell the results apart (30_encoding.md R160, R161) -/

/-- A response word tells its result. -/
theorem responseWord_inj {cmd : Word} {code code' : Result} (h : responseWord cmd code = responseWord cmd code') :
    code = code' := by
  have hcode : ∀ c : Result, (responseWord cmd c).extractLsb' 16 8 = c.code := by
    intro c
    apply BitVec.eq_of_getLsbD_eq
    intro i hi
    simp only [responseWord, BitVec.getLsbD_append, BitVec.getLsbD_extractLsb']
    interval_cases i <;> simp
  have hc : code.code = code'.code := by rw [← hcode, h, hcode]
  revert hc
  cases code <;> cases code' <;> decide

/-- Two errors of a command with different codes are different answers. -/
theorem raiseCmdError_ne {op : Op} {code code' : Result} {s t : State} (ho : t.outbox = s.outbox)
    (hc : code ≠ code') : raiseCmdError op code t ≠ raiseCmdError op code' s := by
  intro h
  have hout := congrArg State.outbox h
  simp only [raiseCmdError_outbox, ho, List.append_cancel_left_eq, List.cons.injEq, Response.mk.injEq, true_and,
    and_true] at hout
  exact hc (responseWord_inj hout)

/-- A command that ends with `OK` ends with no error. -/
theorem respondOk_ne_raiseCmdError {op : Op} {record : List Word} {code : Result} {s t : State}
    (ho : t.outbox = s.outbox) (hc : code ≠ .ok) : respondOk op record t ≠ raiseCmdError op code s := by
  intro h
  have hout := congrArg State.outbox h
  simp only [respondOk_outbox, raiseCmdError_outbox, ho, List.append_cancel_left_eq, List.cons.injEq,
    Response.mk.injEq, true_and, and_true] at hout
  exact hc (responseWord_inj hout.1).symm

/-- The capacity fault is not the answer to an illegal operand. -/
theorem raiseCapacity_ne_badOperand {op : Op} {s t : State} (ho : t.outbox = s.outbox) :
    raiseCapacity op t ≠ raiseCmdError op .badOperand s :=
  raiseCmdError_ne ((setFault_outbox op.unit t).trans ho) (by decide)

/-! ### Which commands answer `BAD_OPERAND` (60_exceptions.md R400, R402) -/

/-- On a unit that accepts commands the prologue turns illegal operands away with `BAD_OPERAND`. -/
theorem prologue_badOperand {op : Op} {s : State} (hop : op.isConfig = false) (ha : s.accepts op.unit) :
    prologue op false s = some .badOperand := by
  obtain ⟨hlife, hfault⟩ := ha
  simp [prologue, hlife, hfault, hop]

/-- A command on an accepting unit answers `BAD_OPERAND` exactly where its operands are illegal, if its body never
does. -/
theorem runCommand_eq_badOperand_iff {op : Op} {ok : Bool} {body : State → StepResult} {s : State}
    (hop : op.isConfig = false) (ha : s.accepts op.unit)
    (hbody : body s ≠ .next (raiseCmdError op .badOperand s)) :
    runCommand op ok body s = .next (raiseCmdError op .badOperand s) ↔ ok = false := by
  cases ok with
  | true => simp [runCommand_accepts body hop ha, hbody]
  | false => simp [runCommand, prologue_badOperand hop ha]

/-- An accepting RXU refuses an RX.RECEIVE exactly where its operands are illegal. -/
theorem rxReceive_eq_badOperand_iff {P : Params} {p : Pdu} {s : State} (ha : s.accepts .rxu) :
    rxReceive P p s = .next (raiseCmdError .rxReceive .badOperand s) ↔ receiveOperandOk P s.rxu p = false := by
  refine runCommand_eq_badOperand_iff rfl ha ?_
  intro h
  split at h
  · exact respondOk_ne_raiseCmdError (by rfl) (by decide) (Host.Outcome.next.inj h)
  · exact respondOk_ne_raiseCmdError (by rfl) (by decide) (Host.Outcome.next.inj h)
  · exact raiseCapacity_ne_badOperand rfl (Host.Outcome.next.inj h)
  · cases h

/-- An accepting CHU refuses a CH.TRANSMIT exactly where its operands are illegal. -/
theorem chTransmit_eq_badOperand_iff {P : Params} {ps : List Pdu} {s : State} (ha : s.accepts .chu) :
    chTransmit P ps s = .next (raiseCmdError .chTransmit .badOperand s) ↔ transmitOperandOk P ps = false := by
  refine runCommand_eq_badOperand_iff rfl ha ?_
  intro h
  simp only at h
  split at h
  · exact raiseCapacity_ne_badOperand (by rfl) (Host.Outcome.next.inj h)
  · exact respondOk_ne_raiseCmdError (by rfl) (by decide) (Host.Outcome.next.inj h)

/-- A frame of an operation whose record decodes is executed. -/
theorem runFrame_decoded {op : Op} {ops : List Word} {i : Instr} (h : decodeRecord op ops = some i) (s : State) :
    runFrame op.unit { cmd := op.word, operands := ops } s = exec i s := by
  simp [runFrame, decode, h]

/-- A frame of an operation whose record does not decode is answered by the prologue. -/
theorem runFrame_undecoded {op : Op} {ops : List Word} (h : decodeRecord op ops = none) (s : State) :
    runFrame op.unit { cmd := op.word, operands := ops } s = .next (badFrame op s) := by
  simp [runFrame, decode, h]

/-- A frame of an operation, for a unit that accepts it, is answered `BAD_OPERAND` exactly where its record decodes to
no instruction that is answered otherwise. -/
theorem runFrame_eq_badOperand_iff {op : Op} {s : State} (ops : List Word) (hop : op.isConfig = false)
    (ha : s.accepts op.unit) :
    runFrame op.unit { cmd := op.word, operands := ops } s = .next (raiseCmdError op .badOperand s) ↔
      ∀ i, decodeRecord op ops = some i → exec i s = .next (raiseCmdError op .badOperand s) := by
  cases h : decodeRecord op ops with
  | some i => simp [runFrame_decoded h]
  | none => simp [runFrame_undecoded h, badFrame, prologue_badOperand hop ha]

/-- A frame of RX.RECEIVE for an accepting RXU is answered `BAD_OPERAND` exactly where its record is no legal PDU. -/
theorem runFrame_receive_badOperand_iff {s : State} (ops : List Word) (ha : s.accepts .rxu) :
    runFrame .rxu { cmd := Op.rxReceive.word, operands := ops } s =
        .next (raiseCmdError .rxReceive .badOperand s) ↔
      ¬ ∃ p, decodeReceive ops = some p ∧ receiveOperandOk Config.params s.rxu p = true := by
  have hexec : ∀ p, exec (.rxReceive p) s = .next (raiseCmdError .rxReceive .badOperand s) ↔
      receiveOperandOk Config.params s.rxu p = false := fun p => rxReceive_eq_badOperand_iff ha
  rw [show UnitId.rxu = Op.rxReceive.unit from rfl, runFrame_eq_badOperand_iff ops rfl ha]
  simp [decodeRecord, hexec]

/-- A frame of CH.TRANSMIT for an accepting CHU is answered `BAD_OPERAND` exactly where its record is no legal list of
PDUs. -/
theorem runFrame_transmit_badOperand_iff {s : State} (ops : List Word) (ha : s.accepts .chu) :
    runFrame .chu { cmd := Op.chTransmit.word, operands := ops } s =
        .next (raiseCmdError .chTransmit .badOperand s) ↔
      ¬ ∃ ps, decodeTransmit ops = some ps ∧ transmitOperandOk Config.params ps = true := by
  have hexec : ∀ ps, exec (.chTransmit ps) s = .next (raiseCmdError .chTransmit .badOperand s) ↔
      transmitOperandOk Config.params ps = false := fun ps => chTransmit_eq_badOperand_iff ha
  rw [show UnitId.chu = Op.chTransmit.unit from rfl, runFrame_eq_badOperand_iff ops rfl ha]
  simp [decodeRecord, hexec]

/-- Settles O8: a command is refused exactly where its record is no legal record, and the legal records are those of
well-formed descriptors. -/
theorem descriptorsExactly : Obligations.DescriptorsExactly := by
  refine ⟨fun s ops rest ha hin => ?_, fun s ops rest ha hin => ?_⟩
  · rw [step_frame hin]
    exact (runFrame_receive_badOperand_iff (s := { s with inbox := rest }) ops ha).trans
      (not_congr (receiveRecord_ok_iff Config.params s.rxu ops).symm)
  · rw [step_frame hin]
    exact (runFrame_transmit_badOperand_iff (s := { s with inbox := rest }) ops ha).trans
      (not_congr (transmitRecord_ok_iff Config.params ops).symm)

end Machine

end Sys2Proof
end

section
/-! O32: the snapshots of RX.STATS and RX.DELIVERED (30_encoding.md R164, R165, 42_receiver.md R300, R305). -/

namespace Sys2Proof.Machine

/-- In canonical form an index reads valid exactly where it is listed. -/
theorem Memory.isSome_find_iff {m : Memory} (hm : Memory.wf m) (i : Nat) :
    (Memory.find m i).isSome = true ↔ i ∈ m.map Prod.fst := by
  simp [Option.isSome_iff_exists, Memory.find_eq_some_iff hm]

/-- In canonical form no index is listed twice. -/
theorem Memory.nodup_indexes {m : Memory} (hm : Memory.wf m) : (m.map Prod.fst).Nodup :=
  List.pairwise_map.mpr (hm.imp Nat.ne_of_lt)

/-- The slots of an index space of `n` slots that read valid are as many as the valid slots that are listed. -/
theorem Memory.countP_valid {m : Memory} {n : Nat} (hm : Memory.wf m) (hn : ∀ x ∈ m, x.1 < n) :
    (List.range n).countP (fun i => (Memory.find m i).isSome) = Memory.validCount m := by
  have hperm : ((List.range n).filter fun i => (Memory.find m i).isSome).Perm (m.map Prod.fst) := by
    refine (List.perm_ext_iff_of_nodup (List.nodup_range.filter _) (Memory.nodup_indexes hm)).mpr fun i => ?_
    rw [List.mem_filter, Memory.isSome_find_iff hm, List.mem_range, and_iff_right_iff_imp]
    intro hi
    obtain ⟨x, hx, rfl⟩ := List.mem_map.mp hi
    exact hn x hx
  rw [List.countP_eq_length_filter, hperm.length_eq, List.length_map, Memory.validCount]

/-- A receiver that meets its window invariant answers RX.STATS with the number of slots that read valid. -/
theorem Rxu.WindowInv.countWord_validCount {P : Params} {r : Rxu} (h : r.WindowInv P) :
    countWord P (Memory.validCount r.rb) =
      BitVec.ofNat 32 ((List.range (2 ^ snWidth r.lcfg)).countP fun i => (Memory.find r.rb i).isSome) := by
  have hcount := Memory.countP_valid h.rbForm fun x hx => (le_maxSn_iff _ _).mp (h.rbRange x hx)
  have hle : (List.range (2 ^ snWidth r.lcfg)).countP (fun i => (Memory.find r.rb i).isSome) ≤ 2 ^ snWidth r.lcfg :=
    List.countP_le_length.trans_eq List.length_range
  have h31 := two_pow_snWidth_le r.lcfg
  rw [← hcount, countWord_of_lt P (by omega)]

/-- An accepting RXU answers RX.STATS with its record and keeps everything else. -/
theorem rxStats_accepts {P : Params} {s : State} (ha : s.accepts .rxu) :
    rxStats P s = .next (respondOk .rxStats (statsRecord P s.rxu) s) :=
  runCommand_accepts _ rfl ha rfl

/-- An accepting RXU answers RX.DELIVERED with its record and keeps everything else. -/
theorem rxDelivered_accepts {P : Params} {s : State} (ha : s.accepts .rxu) :
    rxDelivered P s = .next (respondOk .rxDelivered (deliveredRecord P s.rxu.dl) s) :=
  runCommand_accepts _ rfl ha rfl

/-- Settles O32, by the count of the valid slots. -/
theorem snapshotsChangeNothing : Obligations.SnapshotsChangeNothing := by
  intro s ha hw
  constructor
  · calc exec .rxStats s
        = .next (respondOk .rxStats (statsRecord Config.params s.rxu) s) := rxStats_accepts ha
      _ = _ := by rw [statsRecord, hw.countWord_validCount]; rfl
  · exact rxDelivered_accepts ha

end Sys2Proof.Machine
end

section
/-! O20: the layout of the tag message (40_crypto.md R203, 20_memory.md R107). -/

namespace Sys2Proof

/-- A byte appended below moves the value up by eight bits. -/
theorem toNat_append_byte {n : Nat} (x : BitVec n) (b : Byte) : (x ++ b).toNat = x.toNat * 2 ^ 8 + b.toNat := by
  rw [BitVec.toNat_append, ← Nat.shiftLeft_add_eq_or_of_lt b.isLt, Nat.shiftLeft_eq]

/-- The value of a word of four bytes, most significant first. -/
theorem toNat_byteWord (a b c d : Byte) :
    (byteWord a b c d).toNat = a.toNat * 2 ^ 24 + b.toNat * 2 ^ 16 + c.toNat * 2 ^ 8 + d.toNat := by
  rw [byteWord, toNat_append_byte, toNat_append_byte, toNat_append_byte]
  omega

/-- The value of a word is that of its four bytes, most significant first (00_scope.md R12). -/
theorem toNat_eq_wordBytes (w : Word) :
    w.toNat = (wordByte w 0).toNat * 2 ^ 24 + (wordByte w 1).toNat * 2 ^ 16 + (wordByte w 2).toNat * 2 ^ 8 +
      (wordByte w 3).toNat := by
  rw [← toNat_byteWord, byteWord_wordByte]

namespace Machine

/-- Settles O20: the bytes are those of the definition, and widening the bearer and the direction to a byte keeps their
values. -/
theorem tagMessageLayout : Obligations.TagMessageLayout := by
  intro count bearer dir data
  have hbearer : (bearer.setWidth 8).toNat = bearer.toNat := BitVec.toNat_setWidth_of_le (by decide)
  have hdir : (dir.setWidth 8).toNat = dir.toNat := BitVec.toNat_setWidth_of_le (by decide)
  exact ⟨_, _, _, _, _, _, rfl, toNat_eq_wordBytes count, hbearer, hdir⟩

end Machine

end Sys2Proof
end

section
/-! O13 and O14: TX.CONFIG and RX.CONFIG of an unconfigured unit (41_transmitter.md R230 to R232, 42_receiver.md R260,
R262). -/

namespace Sys2Proof.Machine

/-! ### Legality of a configuration (41_transmitter.md R231) -/

/-- `cfg_legal` is the conjunction of conditions (a) to (e). -/
theorem cfgLegal_eq_true_iff (P : Params) (cfg : LinkCfg) :
    cfgLegal P cfg = true ↔
      (cfg.ien = true → cfg.ikp = true) ∧ (cfg.cen = true → cfg.ckp = true) ∧ 1 ≤ cfg.snbits.toNat ∧
        P.initSn.toNat ≤ 2 ^ cfg.snbits.toNat - 1 ∧ P.initHfn.toNat < 2 ^ (32 - cfg.snbits.toNat) := by
  have himp : ∀ enabled key : Bool, (!enabled || key) = true ↔ (enabled = true → key = true) := by decide
  simp only [cfgLegal, Bool.and_eq_true, decide_eq_true_eq, himp, and_assoc]
  rfl

/-- `cfg_legal` fails exactly where one of the conditions (a) to (e) does. -/
theorem cfgLegal_eq_false_iff (P : Params) (cfg : LinkCfg) :
    cfgLegal P cfg = false ↔
      (cfg.ien = true ∧ cfg.ikp = false) ∨ (cfg.cen = true ∧ cfg.ckp = false) ∨ cfg.snbits = 0 ∨
        2 ^ cfg.snbits.toNat - 1 < P.initSn.toNat ∨ 2 ^ (32 - cfg.snbits.toNat) ≤ P.initHfn.toNat := by
  have hwidth : ¬ 1 ≤ cfg.snbits.toNat ↔ cfg.snbits = 0 := by
    rw [Nat.not_le, Nat.lt_one_iff, BitVec.toNat_eq]
    rfl
  rw [← Bool.not_eq_true, cfgLegal_eq_true_iff]
  simp only [not_and_or, Classical.not_imp, Bool.not_eq_true, hwidth, not_le, not_lt]

/-- A record whose keys have 16 bytes passes the operand check (30_encoding.md R153). -/
theorem linkCfgOperandOk_of_length {cfg : LinkCfg} (hi : cfg.ikey.length = 16) (hc : cfg.ckey.length = 16) :
    linkCfgOperandOk cfg = true := by
  simp [linkCfgOperandOk, LinkCfg.keysOk, keyOk, Config.keyLen, hi, hc]

/-! ### The two commands -/

/-- What an instruction answers for the parameters `P`, the machine answers where `P` is its own. -/
theorem execAt_and_exec {P : Params} {i : Instr} {s : State} {r : StepResult} (h : execAt P i s = r) :
    execAt P i s = r ∧ (P = Config.params → exec i s = r) :=
  ⟨h, fun hP => by rw [← execAt_params, ← hP, h]⟩

/-- TX.CONFIG of an unconfigured TXU, with a record of the right form, is decided by `cfg_legal` alone. -/
theorem txConfig_unconfigured {P : Params} {cfg : LinkCfg} {s : State} (hl : s.txu.life = .unconfigured)
    (hok : linkCfgOperandOk cfg = true) :
    txConfig P cfg s =
      if cfgLegal P cfg = true then .next (respondOk .txConfig [] { s with txu := configuredTxu P cfg })
      else .next (raiseConfigError .txConfig s) :=
  runCommand_unconfigured _ rfl hl rfl hok

/-- RX.CONFIG of an unconfigured RXU whose `FAULT` is 0, with a record of the right form, is decided by `cfg_legal`
alone. -/
theorem rxConfig_unconfigured {P : Params} {cfg : LinkCfg} {s : State} (hl : s.rxu.life = .unconfigured)
    (hf : s.rxu.fault = false) (hok : linkCfgOperandOk cfg = true) :
    rxConfig P cfg s =
      if cfgLegal P cfg = true then .next (respondOk .rxConfig [] { s with rxu := configuredRxu P cfg s.rxu })
      else .next (raiseConfigError .rxConfig s) :=
  runCommand_unconfigured _ rfl hl hf hok

/-- Settles O13, by the two values of `cfg_legal`. -/
theorem txConfigResult : Obligations.TxConfigResult := by
  intro P s cfg hlife hikey hckey done failed
  have hrun := txConfig_unconfigured (P := P) hlife (linkCfgOperandOk_of_length hikey hckey)
  refine ⟨fun hlegal => execAt_and_exec (i := .txConfig cfg) ?_, fun hbad => execAt_and_exec (i := .txConfig cfg) ?_⟩
  · exact hrun.trans (if_pos ((cfgLegal_eq_true_iff P cfg).mpr hlegal))
  · exact hrun.trans (if_neg (Bool.eq_false_iff.mp ((cfgLegal_eq_false_iff P cfg).mpr hbad)))

/-- Settles O14, by the two values of `cfg_legal`. -/
theorem rxConfigResult : Obligations.RxConfigResult := by
  intro P s cfg hlife hfault hikey hckey done failed
  have hrun := rxConfig_unconfigured (P := P) hlife hfault (linkCfgOperandOk_of_length hikey hckey)
  refine ⟨fun hlegal => execAt_and_exec (i := .rxConfig cfg) ?_, fun hbad => execAt_and_exec (i := .rxConfig cfg) ?_⟩
  · exact hrun.trans (if_pos ((cfgLegal_eq_true_iff P cfg).mpr hlegal))
  · exact hrun.trans (if_neg (Bool.eq_false_iff.mp ((cfgLegal_eq_false_iff P cfg).mpr hbad)))

end Sys2Proof.Machine
end

section
/-! O16: the PDU of TX.SEND and the counter it leaves (41_transmitter.md R240 to R244). -/

namespace Sys2Proof.Machine

/-- An advance of the counter moves `SN` and `HFN` only. -/
theorem advanceCounter_frame (t : Txu) :
    advanceCounter t = { t with sn := (advanceCounter t).sn, hfn := (advanceCounter t).hfn } := by
  unfold advanceCounter
  split <;> rfl

/-- The counter after a send, as R241 says it: `SN` one up, or `SN` back at 0 with `HFN` one up where `SN + 1` exceeds
`MAX_SN`. -/
theorem advanceCounter_wrap_or_next {P : Params} {t : Txu} (h : t.Inv P) (hr : t.life = .ready) :
    if t.sn.toNat + 1 > maxSn (snWidth t.lcfg) then
      (advanceCounter t).sn = 0 ∧ (advanceCounter t).hfn.toNat = (t.hfn.toNat + 1) % hfnMod (snWidth t.lcfg)
    else (advanceCounter t).sn.toNat = t.sn.toNat + 1 ∧ (advanceCounter t).hfn = t.hfn := by
  obtain ⟨hsn, hhfn⟩ := advanceCounter_toNat h hr
  have hbound := h.snBound hr
  by_cases hlast : t.sn.toNat = maxSn (snWidth t.lcfg)
  · rw [if_pos hlast] at hsn hhfn
    rw [if_pos (by omega)]
    exact ⟨BitVec.eq_of_toNat_eq hsn, hhfn⟩
  · rw [if_neg hlast] at hsn hhfn
    rw [if_neg (by omega)]
    exact ⟨hsn, BitVec.eq_of_toNat_eq hhfn⟩

/-- The bytes of a tag that may be absent. -/
theorem optionalTagBytes_eq (tag : Option Tag) : optionalTagBytes tag = (tag.map tagBytes).getD [] := by
  cases tag <;> rfl

/-- The payload of the PDU: the operand's and the tag's bytes, ciphered if ciphering is enabled (41_transmitter.md R242,
R243). -/
theorem txWire_eq (P : Params) (t : Txu) (payload : List Byte) :
    txWire P t payload =
      let toCipher := payload ++ ((txTag P t payload).map tagBytes).getD []
      if t.lcfg.cen = true then cipher P true t.lcfg.ckey (txCount t) t.lcfg.bearer t.lcfg.dir toCipher
      else toCipher := by
  rw [txWire, txPlain, optionalTagBytes_eq]

/-- A payload within 32 bits that leaves room for its tag passes the operand check of TX.SEND (30_encoding.md R152). -/
theorem sendOperandOk_of_le {P : Params} {t : Txu} {payload : List Byte} (hlen : payload.length < 2 ^ 32)
    (hmax : ∀ m, P.maxPayload = some m → payload.length + (if t.lcfg.ien = true then 4 else 0) ≤ m) :
    sendOperandOk P t payload = true := by
  rw [sendOperandOk, Bool.and_eq_true]
  exact ⟨decide_eq_true hlen, (withinLimit_iff _ _).mpr hmax⟩

/-- Settles O16: the PDU is `txPdu` and the counter `advanceCounter`, both read from the TXU before the send. -/
theorem txSendResult : Obligations.TxSendResult := by
  intro s sduId payload hready hinv hlen hmax
  refine ⟨_, txPdu Config.params s.txu sduId payload, txSend_ready hready (sendOperandOk_of_le hlen hmax), ?_,
    advanceCounter_wrap_or_next hinv hready, rfl, rfl, rfl, txCount_toNat hinv hready, rfl, txWire_eq _ _ _,
    txWire_length _ _ _, rfl, rfl, rfl, rfl⟩
  exact congrArg (fun t => respondOk .txSend _ { s with txu := t }) (advanceCounter_frame s.txu)

end Sys2Proof.Machine
end

section
/-! O22: the discard of a corrupted PDU (42_receiver.md R280, R281). -/

namespace Sys2Proof.Machine

/-- Step 1: a corrupted PDU is discarded as it came, before its count is reconstructed (42_receiver.md R281). -/
theorem receive_of_corrupted (P : Params) (r : Rxu) {p : Pdu} (hc : p.corrupted = true) :
    receive P r p = discard .discardedChannelCorruption r p :=
  if_pos hc

/-- What RX.RECEIVE does and answers where its steps end in a discard: the counter of the reason moves, the record is
that of the PDU `q` as the steps left it, with `ACCEPT = 0` and `NDRAIN = 0` (42_receiver.md R280, R288). -/
theorem rxReceive_of_discard {P : Params} {s : State} {p q : Pdu} {reason : Status} (ha : s.accepts .rxu)
    (hok : receiveOperandOk P s.rxu p = true) (hd : receive P s.rxu p = discard reason s.rxu q) :
    rxReceive P p s = .next { s with
      rxu := countDiscard reason s.rxu
      outbox := s.outbox ++
        [{ port := .rxu, words := [0x21000000, rxInfo false q.verified reason, q.count, 0] }] } := by
  rw [rxReceive, runCommand_accepts _ rfl ha hok, hd]
  rfl

/-- Settles O22: step 1 ends the command, and its reason has no counter. -/
theorem corruptedIsDiscarded : Obligations.CorruptedIsDiscarded := by
  intro s p ha hok hc
  exact rxReceive_of_discard ha hok (receive_of_corrupted Config.params s.rxu hc)

end Sys2Proof.Machine
end

section
/-! O36 and O37: the sets that the tamper, delay and shuffle draws range over (43_channel.md R332, R333, R335, R336). -/

namespace Sys2Proof.Machine

/-! ### One pick: the lowest digits of the raw value read one choice, the digits above it the rest -/

/-- The lowest digit picks the first element of a rearrangement, the digits above it order the others. -/
theorem permuteOf_pick {α : Type} {xs : List α} {i : Nat} (hi : i < xs.length) (m rest : Nat) :
    permuteOf (m + 1) (i + xs.length * rest) xs = xs[i] :: permuteOf m rest (xs.eraseIdx i) := by
  obtain ⟨hdiv, hmod⟩ := (Nat.div_mod_unique (Nat.zero_lt_of_lt hi)).mpr ⟨rfl, hi⟩
  rw [permuteOf, hmod, hdiv, List.getElem?_eq_getElem hi]

/-- The lowest digit picks the first position of a tamper draw, the next one its mask, the digits above them the other
pairs. -/
theorem tamperPairs_pick {positions : List Nat} {i : Nat} (hi : i < positions.length) {mask : Byte} (hmask : mask ≠ 0)
    (k rest : Nat) :
    tamperPairs (k + 1) (i + positions.length * (mask.toNat - 1 + 255 * rest)) positions =
      (positions[i], mask) :: tamperPairs k rest (positions.eraseIdx i) := by
  have hpos : mask.toNat ≠ 0 := fun h => hmask (BitVec.eq_of_toNat_eq h)
  have hlt : mask.toNat - 1 < 255 := by omega
  obtain ⟨hdiv, hmod⟩ := (Nat.div_mod_unique (Nat.zero_lt_of_lt hi)).mpr ⟨rfl, hi⟩
  obtain ⟨hdivMask, hmodMask⟩ := (Nat.div_mod_unique (by decide : 0 < 255)).mpr ⟨rfl, hlt⟩
  rw [tamperPairs, hmod, List.getElem?_eq_getElem hi]
  dsimp only
  rw [hdiv, hdivMask, hmodMask, Nat.sub_add_cancel (Nat.one_le_iff_ne_zero.mpr hpos), BitVec.ofNat_toNat,
    BitVec.setWidth_eq]

/-! ### Every value of a draw's set is read from some raw value (43_channel.md R332) -/

/-- Every rearrangement of a list is read from some raw value. -/
theorem exists_permuteOf_eq {α : Type} {xs ys : List α} (h : ys.Perm xs) : ∃ raw, permuteOf ys.length raw xs = ys := by
  induction ys generalizing xs with
  | nil => exact ⟨0, rfl⟩
  | cons y ys ih =>
    obtain ⟨i, hi, rfl⟩ := List.getElem_of_mem (h.subset List.mem_cons_self)
    have htail : ys.Perm (xs.eraseIdx i) := (h.trans (List.getElem_cons_eraseIdx_perm hi).symm).cons_inv
    obtain ⟨rest, hrest⟩ := ih htail
    exact ⟨i + xs.length * rest, by rw [List.length_cons, permuteOf_pick hi, hrest]⟩

/-- Pairs at distinct positions of a list, none with the mask 0, are read from some raw value. -/
theorem exists_tamperPairs_eq {positions : List Nat} {draws : List (Nat × Byte)} (hd : (draws.map Prod.fst).Nodup)
    (h : ∀ d ∈ draws, d.1 ∈ positions ∧ d.2 ≠ 0) : ∃ raw, tamperPairs draws.length raw positions = draws := by
  induction draws generalizing positions with
  | nil => exact ⟨0, rfl⟩
  | cons d draws ih =>
    obtain ⟨pos, mask⟩ := d
    obtain ⟨hpos, hmask⟩ := h _ List.mem_cons_self
    obtain ⟨i, hi, rfl⟩ := List.getElem_of_mem hpos
    obtain ⟨hfresh, hd⟩ := List.nodup_cons.mp hd
    have htail : ∀ e ∈ draws, e.1 ∈ positions.eraseIdx i ∧ e.2 ≠ 0 := by
      intro e he
      obtain ⟨hmem, hne⟩ := h e (List.mem_cons_of_mem _ he)
      have hother : e.1 ≠ positions[i] := fun heq => hfresh (List.mem_map.mpr ⟨e, he, heq⟩)
      have hcons := (List.getElem_cons_eraseIdx_perm hi).mem_iff.mpr hmem
      exact ⟨(List.mem_cons.mp hcons).resolve_left hother, hne⟩
    obtain ⟨rest, hrest⟩ := ih hd htail
    exact ⟨i + positions.length * (mask.toNat - 1 + 255 * rest), by
      rw [List.length_cons, tamperPairs_pick hi hmask, hrest]⟩

/-- Every delay from 1 to `MAXD` is read from some raw value (43_channel.md R335). -/
theorem delayOf_pred {maxd d : BitVec 16} (h1 : 1 ≤ d.toNat) (h2 : d.toNat ≤ maxd.toNat) :
    delayOf maxd (d.toNat - 1) = d := by
  rw [delayOf, Nat.mod_eq_of_lt (by omega), Nat.sub_add_cancel h1, BitVec.ofNat_toNat, BitVec.setWidth_eq]

/-! ### The tamper draw (43_channel.md R333) -/

/-- A tamper draw for a payload of `n` bytes, `n ≠ 0`, is one to three pairs, no more than `n`, at distinct positions
below `n`, none with the mask 0. -/
theorem tamperOf_range {n : Nat} (hn : n ≠ 0) (raw : Nat) :
    1 ≤ (tamperOf n raw).length ∧ (tamperOf n raw).length ≤ min 3 n ∧ ((tamperOf n raw).map Prod.fst).Nodup ∧
      ∀ d ∈ tamperOf n raw, d.1 < n ∧ d.2 ≠ 0 := by
  have hlt : raw % min 3 n < min 3 n := Nat.mod_lt _ (by omega)
  obtain ⟨hlen, hnodup, hmem⟩ := tamperPairs_spec (raw % min 3 n + 1) (raw / min 3 n) (List.range n)
    (by rw [List.length_range]; omega) List.nodup_range
  rw [tamperOf, if_neg hn, hlen]
  exact ⟨by omega, by omega, hnodup, fun d hd => ⟨List.mem_range.mp (hmem d hd).1, (hmem d hd).2⟩⟩

/-- Every such list of pairs is read from some raw value: its lowest digit counts the pairs, the digits above it are their
picks. -/
theorem exists_tamperOf_eq {n : Nat} {draws : List (Nat × Byte)} (h1 : 1 ≤ draws.length)
    (h2 : draws.length ≤ min 3 n) (hd : (draws.map Prod.fst).Nodup) (h : ∀ d ∈ draws, d.1 < n ∧ d.2 ≠ 0) :
    ∃ raw, tamperOf n raw = draws := by
  obtain ⟨rest, hrest⟩ := exists_tamperPairs_eq hd fun d hm => ⟨List.mem_range.mpr (h d hm).1, (h d hm).2⟩
  have hlt : draws.length - 1 < min 3 n := by omega
  obtain ⟨hdiv, hmod⟩ := (Nat.div_mod_unique (Nat.zero_lt_of_lt hlt)).mpr ⟨rfl, hlt⟩
  refine ⟨draws.length - 1 + min 3 n * rest, ?_⟩
  rw [tamperOf, if_neg (by omega), hmod, hdiv, Nat.sub_add_cancel h1, hrest]

/-! ### The two statements -/

/-- Settles O36, by the two inclusions; the empty payload has the empty draw alone. -/
theorem tamperDrawSet : Obligations.TamperDrawSet := by
  intro n draws
  split
  · next hn => simp [tamperOf, hn, eq_comm]
  · next hn =>
    constructor
    · rintro ⟨raw, rfl⟩
      exact tamperOf_range hn raw
    · rintro ⟨h1, h2, hd, h⟩
      exact exists_tamperOf_eq h1 h2 hd h

/-- Settles O37, by the two inclusions for each of the two draws. -/
theorem delayAndShuffleDrawSets : Obligations.DelayAndShuffleDrawSets := by
  refine ⟨fun maxd d hmaxd => ⟨?_, fun ⟨h1, h2⟩ => ⟨_, delayOf_pred h1 h2⟩⟩, fun xs ys => ⟨?_, fun h => ?_⟩⟩
  · rintro ⟨raw, rfl⟩
    exact delayOf_range hmaxd raw
  · rintro ⟨raw, rfl⟩
    exact shuffleOf_perm xs raw
  · obtain ⟨raw, hraw⟩ := exists_permuteOf_eq h
    exact ⟨raw, by rw [shuffleOf, ← h.length_eq, hraw]⟩

end Sys2Proof.Machine
end

section
/-! O15: CH.CONFIG of an unconfigured CHU (43_channel.md R340). -/

namespace Sys2Proof.Machine

/-- The rates are legal exactly where none of the five is above 65536. -/
theorem ratesLegal_eq_true_iff (cfg : ChannelCfg) :
    ratesLegal cfg = true ↔
      cfg.loss.toNat ≤ 65536 ∧ cfg.dup.toNat ≤ 65536 ∧ cfg.reorder.toNat ≤ 65536 ∧ cfg.corrupt.toNat ≤ 65536 ∧
        cfg.tamper.toNat ≤ 65536 := by
  simp only [ratesLegal, Bool.and_eq_true, decide_eq_true_eq, and_assoc]

/-- The rates are illegal exactly where one of the five is above 65536. -/
theorem ratesLegal_eq_false_iff (cfg : ChannelCfg) :
    ratesLegal cfg = false ↔
      65536 < cfg.loss.toNat ∨ 65536 < cfg.dup.toNat ∨ 65536 < cfg.reorder.toNat ∨ 65536 < cfg.corrupt.toNat ∨
        65536 < cfg.tamper.toNat := by
  rw [← Bool.not_eq_true, ratesLegal_eq_true_iff]
  simp only [not_and_or, not_le]

/-- CH.CONFIG of an unconfigured CHU whose `FAULT` is 0 is decided by the rates alone. -/
theorem execChConfig_unconfigured {cfg : ChannelCfg} {s : State} (hl : s.chu.life = .unconfigured)
    (hf : s.chu.fault = false) :
    execChConfig cfg s =
      if ratesLegal cfg = true then .next (respondOk .chConfig [] { s with chu := configuredChu cfg s.chu })
      else .next (raiseConfigError .chConfig s) :=
  runCommand_unconfigured _ rfl hl hf rfl

/-- Settles O15, by the two values of `ratesLegal`. -/
theorem chConfigResult : Obligations.ChConfigResult := by
  intro s cfg hlife hfault
  have hrun := execChConfig_unconfigured (cfg := cfg) hlife hfault
  refine ⟨fun hlegal => ?_, fun hbad => ?_⟩
  · rw [← hfault]
    exact hrun.trans (if_pos ((ratesLegal_eq_true_iff cfg).mpr hlegal))
  · exact hrun.trans (if_neg (Bool.eq_false_iff.mp ((ratesLegal_eq_false_iff cfg).mpr hbad)))

end Sys2Proof.Machine
end

section
/-! O47: CH.FLUSH (43_channel.md R360). -/

namespace Sys2Proof.Machine

/-- An accepted CH.FLUSH is its body: the whole delay buffer, shuffled by one draw. -/
theorem chFlush_accepts {P : Params} {s : State} (ha : s.accepts .chu) :
    chFlush P s =
      .next (respondOk .chFlush (pduListRecord P (shuffleOf (s.chu.db.map DbEntry.pdu) (P.draw s.drawIx)))
        { s with chu := { s.chu with db := [] }, drawIx := s.drawIx + 1 }) :=
  runCommand_accepts _ rfl ha rfl

/-- Settles O47: the response lists the shuffle of the buffered PDUs, which is a rearrangement of them. -/
theorem flushReturnsAll : Obligations.FlushReturnsAll := by
  intro s ha
  exact ⟨_, _, chFlush_accepts ha, shuffleOf_perm _ _, rfl⟩

end Sys2Proof.Machine
end

section
/-! O9: what the checks of `LIFE` and of `FAULT` turn away (60_exceptions.md R400, R403, R404, R412). -/

namespace Sys2Proof.Machine

/-- The checks of the prologue that read the unit's state alone, in the order of R400: `LIFE`, then `FAULT`. -/
def turnedAway (op : Op) (s : State) : Option Result :=
  if s.lifeOf op.unit = .cfgError then some .configError
  else if op.isConfig = true ∧ s.lifeOf op.unit = .ready then some .alreadyConfigured
  else if op.isConfig = false ∧ s.lifeOf op.unit = .unconfigured then some .notConfigured
  else if s.faultOf op.unit = true then some .capacityFault
  else none

/-- The prologue is the checks of the unit's state, then the check of the operands. -/
theorem prologue_eq_turnedAway_or (op : Op) (ok : Bool) (s : State) :
    prologue op ok s = (turnedAway op s).or (if ok = false then some .badOperand else none) := by
  simp only [prologue, turnedAway, Bool.not_eq_true]
  split_ifs <;> rfl

/-- The events still to come turn nothing away. -/
theorem turnedAway_inbox (op : Op) (s : State) (rest : List Event) :
    turnedAway op { s with inbox := rest } = turnedAway op s := by
  cases op <;> rfl

/-- The codes of the four answers (30_encoding.md R160). -/
theorem map_code_turnedAway (op : Op) (s : State) :
    (turnedAway op s).map Result.code =
      if s.lifeOf op.unit = .cfgError then some (5 : BitVec 8)
      else if op.isConfig = true ∧ s.lifeOf op.unit = .ready then some 4
      else if op.isConfig = false ∧ s.lifeOf op.unit = .unconfigured then some 3
      else if s.faultOf op.unit = true then some 6
      else none := by
  unfold turnedAway
  split_ifs <;> rfl

section TurnedAway

variable {op : Op} {s : State} {r : Result}

/-- A command that the unit's state turns away is so whatever its operands. -/
theorem prologue_of_turnedAway (h : turnedAway op s = some r) (ok : Bool) : prologue op ok s = some r := by
  rw [prologue_eq_turnedAway_or, h, Option.some_or]

/-- An instruction that the unit's state turns away is answered with the code and does nothing. -/
theorem exec_of_turnedAway {i : Instr} (h : turnedAway i.op s = some r) :
    exec i s = .next (raiseCmdError i.op r s) := by
  obtain ⟨ok, body, hexec⟩ := exec_eq_runCommand i s
  rw [hexec, runCommand, prologue_of_turnedAway h]

/-- So is a frame whose command word names such an operation, whether its operand record decodes or not. -/
theorem runFrame_of_turnedAway {u : UnitId} {f : Frame} (hd : decodeOp u f.cmd = some op)
    (h : turnedAway op s = some r) : runFrame u f s = .next (raiseCmdError op r s) := by
  obtain ⟨cmd, ops⟩ := f
  obtain ⟨rfl, rfl⟩ := decodeOp_eq_some_iff.mp hd
  cases hrec : decodeRecord op ops with
  | none => rw [runFrame_undecoded hrec, badFrame, prologue_of_turnedAway h, Option.getD_some]
  | some i =>
    obtain rfl := decodeRecord_op hrec
    rw [runFrame_decoded hrec, exec_of_turnedAway h]

end TurnedAway

/-- Settles O9: the code is that of the check which turns the command away, before any operand is looked at. -/
theorem prologueTurnsAway : Obligations.PrologueTurnsAway := by
  intro op s code hcode
  rw [← map_code_turnedAway, Option.map_eq_some_iff] at hcode
  obtain ⟨r, hr, rfl⟩ := hcode
  refine ⟨fun u f rest hin hd => ?_, fun i hi => ?_⟩
  · obtain ⟨hu, hw⟩ := decodeOp_eq_some_iff.mp hd
    rw [step_frame hin, runFrame_of_turnedAway hd ((turnedAway_inbox op s rest).trans hr), hu, hw]
    rfl
  · subst hi
    exact exec_of_turnedAway hr

end Sys2Proof.Machine
end

section
/-! O23: the six discards of RX.RECEIVE in their priority (60_exceptions.md R420, R421). -/

namespace Sys2Proof.Machine

/-! ### The outcomes of steps 3 and 4 (42_receiver.md R283, R284) -/

section Steps

variable {P : Params} {cfg : LinkCfg} {count : Word} {data payload : List Byte}

/-- Step 3 needs a cipher key where ciphering is enabled. -/
theorem decipher_noKey (h : cfg.cen = true ∧ cfg.ckp = false) : decipher P cfg count payload = none := by
  obtain ⟨hcen, hckp⟩ := h
  simp [decipher, hcen, hckp]

/-- Step 3 with the key it needs: the deciphered payload, or the payload as it came. -/
theorem decipher_passes (h : ¬ (cfg.cen = true ∧ cfg.ckp = false)) :
    decipher P cfg count payload =
      some (if cfg.cen = true then cipher P true cfg.ckey count cfg.bearer cfg.dir payload else payload) := by
  cases hcen : cfg.cen with
  | false => simp [decipher, hcen]
  | true =>
    have hckp : cfg.ckp = true := by simpa [hcen] using h
    simp [decipher, hcen, hckp]

/-- Step 4 needs an integrity key where integrity is enabled. -/
theorem verify_noKey (h : cfg.ien = true ∧ cfg.ikp = false) :
    verify P cfg count data = .error .discardedIntegrityNoKey := by
  obtain ⟨hien, hikp⟩ := h
  simp [verify, hien, hikp]

/-- Step 4 with a key needs the four bytes of a tag. -/
theorem verify_tooShort (hkey : ¬ (cfg.ien = true ∧ cfg.ikp = false)) (h : cfg.ien = true ∧ data.length < 4) :
    verify P cfg count data = .error .discardedIntegrityTooShort := by
  obtain ⟨hien, hlen⟩ := h
  have hikp : cfg.ikp = true := by simpa [hien] using hkey
  simp [verify, hien, hikp, hlen]

/-- Step 4 with a key and four bytes compares them with the tag of the bytes before them. -/
theorem verify_failure (hkey : ¬ (cfg.ien = true ∧ cfg.ikp = false)) (hlong : ¬ (cfg.ien = true ∧ data.length < 4))
    (h : cfg.ien = true ∧ data.drop (data.length - 4) ≠
      tagBytes (maci P cfg.ikey count cfg.bearer cfg.dir (data.take (data.length - 4)))) :
    verify P cfg count data = .error .discardedIntegrityFailure := by
  obtain ⟨hien, htag⟩ := h
  have hikp : cfg.ikp = true := by simpa [hien] using hkey
  have hlen : ¬ data.length < 4 := fun hlt => hlong ⟨hien, hlt⟩
  simp only [verify, hien, hikp, hlen, htag, if_true, if_false, not_true_eq_false, ne_eq, not_false_eq_true]

/-- Step 4 marks what passes it: `TRUE` where the tag was checked, `NA` where integrity is disabled. -/
theorem verify_passes (hkey : ¬ (cfg.ien = true ∧ cfg.ikp = false)) (hlong : ¬ (cfg.ien = true ∧ data.length < 4))
    (hpass : ¬ (cfg.ien = true ∧ data.drop (data.length - 4) ≠
      tagBytes (maci P cfg.ikey count cfg.bearer cfg.dir (data.take (data.length - 4))))) :
    ∃ body, verify P cfg count data =
      .ok (body, if cfg.ien = true then .verifiedTrue else .notApplicable) := by
  cases hien : cfg.ien with
  | false => exact ⟨data, by simp [verify, hien]⟩
  | true =>
    have hikp : cfg.ikp = true := by simpa [hien] using hkey
    have hlen : ¬ data.length < 4 := fun hlt => hlong ⟨hien, hlt⟩
    have htag := not_not.mp fun hne => hpass ⟨hien, hne⟩
    exact ⟨data.take (data.length - 4), by simp [verify, hien, hikp, hlen, htag]⟩

end Steps

/-! ### RX.RECEIVE up to the step that discards (42_receiver.md R280) -/

section Receive

variable {P : Params} {r : Rxu} {p : Pdu} {data body : List Byte} {v : Verified} {reason : Status}

/-- Step 3 discards with the reconstructed count, before `verified` is written (42_receiver.md R283). -/
theorem receive_of_noKey (hc : ¬ p.corrupted = true)
    (hd : decipher P r.lcfg (reconstruct r p.sn) p.payload = none) :
    receive P r p = discard .discardedNoKey r { p with count := reconstruct r p.sn } := by
  simp [receive, hc, hd]

/-- Step 4 discards with `verified` FALSE (42_receiver.md R284). -/
theorem receive_of_verify_error (hc : ¬ p.corrupted = true)
    (hd : decipher P r.lcfg (reconstruct r p.sn) p.payload = some data)
    (hv : verify P r.lcfg (reconstruct r p.sn) data = .error reason) :
    receive P r p = discard reason r { p with count := reconstruct r p.sn, verified := .verifiedFalse } := by
  simp [receive, hc, hd, hv]

/-- Step 5 discards with `verified` as step 4 left it (42_receiver.md R285). -/
theorem receive_of_duplicate (hc : ¬ p.corrupted = true)
    (hd : decipher P r.lcfg (reconstruct r p.sn) p.payload = some data)
    (hv : verify P r.lcfg (reconstruct r p.sn) data = .ok (body, v)) (hrc : reconstruct r p.sn ∈ r.rc) :
    receive P r p = discard .discardedDuplicate r { p with count := reconstruct r p.sn, verified := v } := by
  simp [receive, acceptPdu, hc, hd, hv, hrc]

end Receive

/-- The counter of each reason, by one: the table of R420 for every status. -/
theorem countDiscard_eq (reason : Status) (r : Rxu) :
    countDiscard reason r = { r with
      cntInteg := if reason = .discardedIntegrityNoKey ∨ reason = .discardedIntegrityTooShort ∨
        reason = .discardedIntegrityFailure then r.cntInteg + 1 else r.cntInteg
      cntDup := if reason = .discardedDuplicate then r.cntDup + 1 else r.cntDup } := by
  cases reason <;> rfl

/-- Settles O23: each reason that applies first ends the command in its own step of the fixed order. -/
theorem discardPriority : Obligations.DiscardPriority := by
  intro P s p reason ha hok cfg count data hreason isInteg verified t
  refine execAt_and_exec (i := .rxReceive p) ?_
  have answered : ∀ {q : Pdu}, receive P s.rxu p = discard reason s.rxu q → q.verified = verified →
      q.count = (if p.corrupted = true then p.count else count) → rxReceive P p s = .next t := by
    intro q hq hv hn
    rw [rxReceive_of_discard ha hok hq, countDiscard_eq, hv, hn]
  split_ifs at hreason with hc hnoKey hintegNoKey hshort hfail hdup <;> cases hreason
  · exact answered (receive_of_corrupted P s.rxu hc) rfl (if_pos hc).symm
  · exact answered (receive_of_noKey hc (decipher_noKey hnoKey)) rfl (if_neg hc).symm
  · exact answered (receive_of_verify_error hc (decipher_passes hnoKey) (verify_noKey hintegNoKey)) rfl
      (if_neg hc).symm
  · exact answered (receive_of_verify_error hc (decipher_passes hnoKey) (verify_tooShort hintegNoKey hshort)) rfl
      (if_neg hc).symm
  · exact answered (receive_of_verify_error hc (decipher_passes hnoKey) (verify_failure hintegNoKey hshort hfail)) rfl
      (if_neg hc).symm
  · obtain ⟨body, hverify⟩ := verify_passes hintegNoKey hshort hfail
    exact answered (receive_of_duplicate hc (decipher_passes hnoKey) hverify hdup) rfl (if_neg hc).symm

end Sys2Proof.Machine
end

section
/-! O30: a sequence number above `MAX_SN` (70_reset_and_hazards.md R461, 30_encoding.md R151). -/

namespace Sys2Proof.Machine

/-- A sequence number above the receiver's `MAX_SN` is no legal operand, whatever else the descriptor holds. -/
theorem receiveOperandOk_of_maxSn_lt {P : Params} {r : Rxu} {p : Pdu} (h : maxSn (snWidth r.lcfg) < p.sn.toNat) :
    receiveOperandOk P r p = false := by
  rw [receiveOperandOk, decide_eq_false (Nat.not_le.mpr h), Bool.and_false]

/-- Settles O30: the sequence number makes the operand illegal, and an accepting RXU answers illegal operands with
`BAD_OPERAND` alone. -/
theorem snAboveMaxRefused : Obligations.SnAboveMaxRefused := by
  intro s p ha hsn
  exact (rxReceive_eq_badOperand_iff ha).mpr (receiveOperandOk_of_maxSn_lt hsn)

end Sys2Proof.Machine
end

section
/-! O4 to O7: what each operand record decodes to, and the round trip of frames and instructions (30_encoding.md R143 to
R155). -/

namespace Sys2Proof

/-! ### The records without descriptors (30_encoding.md R152 to R155) -/

/-- A key field that decodes has `KEY_LEN` bytes. -/
theorem keyOk_iff (key : List Byte) : keyOk key = true ↔ key.length = Config.keyLen := decide_eq_true_iff

/-- A record of TX.CONFIG or RX.CONFIG decodes exactly where it is the written record of a configuration. -/
theorem decodeLinkCfg_eq_some_iff {ws : List Word} {cfg : LinkCfg} :
    decodeLinkCfg ws = some cfg ↔ cfg.keysOk = true ∧ ws = encodeLinkCfg cfg := by
  rw [LinkCfg.keysOk, Bool.and_eq_true, keyOk_iff, keyOk_iff]
  constructor
  · intro h
    unfold decodeLinkCfg at h
    split at h
    · cases h
    · next w words =>
      split at h
      · cases h
      · next hres =>
        split at h
        · cases h
        · next ikey mid hi =>
          split at h
          · next ckey hc =>
            obtain ⟨hil, rfl⟩ := takeBytes_eq_some hi
            obtain ⟨hcl, rfl⟩ := takeBytes_eq_some hc
            cases h
            refine ⟨⟨hil, hcl⟩, ?_⟩
            rw [encodeLinkCfg, encodeCfgWord_eq _ (not_not.mp hres) rfl rfl rfl rfl rfl rfl rfl, List.append_nil]
          · cases h
  · rintro ⟨⟨hi, hc⟩, rfl⟩
    obtain ⟨h0, h1, h2, h3, h4, h5, h6, h7⟩ := encodeCfgWord_fields cfg
    have hik : takeBytes Config.keyLen (packBytes cfg.ikey ++ packBytes cfg.ckey) =
        some (cfg.ikey, packBytes cfg.ckey) := takeBytes_eq_some_iff.mpr ⟨hi, rfl⟩
    have hck : takeBytes Config.keyLen (packBytes cfg.ckey) = some (cfg.ckey, []) :=
      takeBytes_eq_some_iff.mpr ⟨hc, (List.append_nil _).symm⟩
    simp only [encodeLinkCfg, decodeLinkCfg, h0, h1, h2, h3, h4, h5, h6, h7, hik, hck, ne_eq, not_true_eq_false,
      if_false]

/-- A record of TX.SEND decodes exactly where it is a number, a length and a packed string of that length. -/
theorem decodeSend_eq_some_iff {ws : List Word} {sduId : Word} {payload : List Byte} :
    decodeSend ws = some (sduId, payload) ↔
      ∃ len : Word, payload.length = len.toNat ∧ ws = sduId :: len :: packBytes payload := by
  constructor
  · intro h
    unfold decodeSend at h
    split at h
    · next id len words =>
      split at h
      · next bytes hb =>
        obtain ⟨hl, rfl⟩ := takeBytes_eq_some hb
        cases h
        exact ⟨len, hl, by rw [List.append_nil]⟩
      · cases h
    · cases h
  · rintro ⟨len, hl, rfl⟩
    have hp : takeBytes len.toNat (packBytes payload) = some (payload, []) :=
      takeBytes_eq_some_iff.mpr ⟨hl, (List.append_nil _).symm⟩
    simp only [decodeSend, hp]

/-- A rate word decodes exactly where it is a rate above 15 zero bits. -/
theorem decodeRate_eq_some_iff {w : Word} {v : BitVec 17} : decodeRate w = some v ↔ w = (0 : BitVec 15) ++ v :=
  ⟨fun h => (decodeRate_eq_some h).symm, fun h => by rw [h, decodeRate_encode]⟩

/-- A record of CH.CONFIG decodes exactly where it is the written record of a configuration. -/
theorem decodeChannelCfg_eq_some_iff {ws : List Word} {cfg : ChannelCfg} :
    decodeChannelCfg ws = some cfg ↔ ws = encodeChannelCfg cfg := by
  constructor
  · intro h
    unfold decodeChannelCfg at h
    split at h
    · split at h
      · next hl hd hr hc ht =>
        split at h
        · next hm =>
          cases h
          rw [encodeChannelCfg, decodeRate_eq_some hl, decodeRate_eq_some hd, decodeRate_eq_some hr,
            decodeRate_eq_some hc, decodeRate_eq_some ht, maxdWord_eq hm]
        · cases h
      · cases h
    · cases h
  · rintro rfl
    obtain ⟨hm, hv⟩ := maxdWord_fields cfg.maxd
    simp only [encodeChannelCfg, decodeChannelCfg, decodeRate_encode, hm, hv, if_true]

/-- An empty record decodes exactly where there are no words. -/
theorem decodeEmpty_eq_some_iff {i j : Instr} {ws : List Word} : decodeEmpty i ws = some j ↔ ws = [] ∧ j = i := by
  cases ws with
  | nil => simp [decodeEmpty, eq_comm]
  | cons w ws => simp [decodeEmpty]

/-! ### Every record, every frame (30_encoding.md R144 to R155) -/

/-- A string that 32 bits can count has its length in its `LEN` word. -/
theorem bytesOk_iff (bytes : List Byte) :
    bytesOk bytes = true ↔ bytes.length = (BitVec.ofNat 32 bytes.length).toNat := by
  simp only [bytesOk, decide_eq_true_eq, BitVec.toNat_ofNat]
  omega

/-- A record of TX.SEND decodes exactly where it is the written one of a payload that a frame can carry. -/
theorem decodeSend_eq_some_iff_encode {ws : List Word} {sduId : Word} {payload : List Byte} :
    decodeSend ws = some (sduId, payload) ↔ bytesOk payload = true ∧ ws = encodeRecord (.txSend sduId payload) := by
  rw [decodeSend_eq_some_iff, bytesOk_iff]
  constructor
  · rintro ⟨len, hl, rfl⟩
    have hw : BitVec.ofNat 32 payload.length = len := by simp [hl]
    exact ⟨by rw [hw, hl], by rw [encodeRecord, hw]⟩
  · rintro ⟨hl, rfl⟩
    exact ⟨_, hl, rfl⟩

/-- A record of CH.TRANSMIT decodes exactly where it is the written one of a list that a frame can carry. -/
theorem decodeTransmit_eq_some_iff {ws : List Word} {ps : List Pdu} :
    decodeTransmit ws = some ps ↔
      (Instr.chTransmit ps).wellFormed = true ∧ ws = encodeRecord (.chTransmit ps) := by
  simp only [Instr.wellFormed, Bool.and_eq_true, decide_eq_true_eq, List.all_eq_true, encodeRecord]
  cases ws with
  | nil => simp [decodeTransmit]
  | cons n words =>
    rw [decodeTransmit_cons_eq_some_iff, List.cons_eq_cons]
    constructor
    · rintro ⟨hl, hfits, hw⟩
      exact ⟨⟨hl ▸ n.isLt, hfits⟩, by simp [hl], hw⟩
    · rintro ⟨⟨hl, hfits⟩, rfl, hw⟩
      exact ⟨by rw [BitVec.toNat_ofNat, Nat.mod_eq_of_lt hl], hfits, hw⟩

/-- A record decodes exactly to the well-formed instruction of its operation that is written so. -/
theorem decodeRecord_eq_some_iff {op : Op} {ws : List Word} {i : Instr} :
    decodeRecord op ws = some i ↔ i.op = op ∧ i.wellFormed = true ∧ ws = encodeRecord i := by
  constructor
  · intro h
    refine ⟨decodeRecord_op h, ?_⟩
    cases op <;> simp only [decodeRecord, Option.map_eq_some_iff, decodeEmpty_eq_some_iff] at h
    case txConfig | rxConfig =>
      obtain ⟨cfg, h, rfl⟩ := h
      exact decodeLinkCfg_eq_some_iff.mp h
    case txSend =>
      obtain ⟨⟨sduId, payload⟩, h, rfl⟩ := h
      exact decodeSend_eq_some_iff_encode.mp h
    case rxReceive =>
      obtain ⟨p, h, rfl⟩ := h
      exact decodeReceive_eq_some_iff.mp h
    case chConfig =>
      obtain ⟨cfg, h, rfl⟩ := h
      exact ⟨rfl, decodeChannelCfg_eq_some_iff.mp h⟩
    case chTransmit =>
      obtain ⟨ps, h, rfl⟩ := h
      exact decodeTransmit_eq_some_iff.mp h
    case rxStats | rxDelivered | chFlush =>
      obtain ⟨rfl, rfl⟩ := h
      exact ⟨rfl, rfl⟩
  · rintro ⟨rfl, hwf, rfl⟩
    cases i with
    | txConfig cfg | rxConfig cfg => exact congrArg (Option.map _) (decodeLinkCfg_eq_some_iff.mpr ⟨hwf, rfl⟩)
    | txSend sduId payload => exact congrArg (Option.map _) (decodeSend_eq_some_iff_encode.mpr ⟨hwf, rfl⟩)
    | rxReceive p => exact congrArg (Option.map _) (decodeReceive_eq_some_iff.mpr ⟨hwf, rfl⟩)
    | chConfig cfg => exact congrArg (Option.map _) (decodeChannelCfg_eq_some_iff.mpr rfl)
    | chTransmit ps => exact congrArg (Option.map _) (decodeTransmit_eq_some_iff.mpr ⟨hwf, rfl⟩)
    | rxStats | rxDelivered | chFlush => rfl

/-- A frame decodes exactly to the well-formed instruction whose frame it is, on that instruction's port. -/
theorem decode_eq_ok_iff {u : UnitId} {f : Frame} {i : Instr} :
    decode u f = .ok i ↔ i.op.unit = u ∧ encode i = f ∧ i.wellFormed = true := by
  constructor
  · intro h
    obtain ⟨op, hop, hrec⟩ := decode_eq_ok h
    obtain ⟨rfl, hwf, hops⟩ := decodeRecord_eq_some_iff.mp hrec
    obtain ⟨hu, hcmd⟩ := decodeOp_eq_some_iff.mp hop
    obtain ⟨cmd, ops⟩ := f
    exact ⟨hu.symm, Frame.mk.injEq .. ▸ ⟨hcmd.symm, hops.symm⟩, hwf⟩
  · rintro ⟨rfl, rfl, hwf⟩
    have hop : decodeOp i.op.unit (encode i).cmd = some i.op := decodeOp_word i.op
    have hrec : decodeRecord i.op (encode i).operands = some i := decodeRecord_eq_some_iff.mpr ⟨rfl, hwf, rfl⟩
    simp only [decode, hop, hrec]

/-- Settles O4, by what a frame decodes to. -/
theorem decodeOfEncode : Obligations.DecodeOfEncode :=
  fun _ hwf => decode_eq_ok_iff.mpr ⟨rfl, rfl, hwf⟩

/-- Settles O5, by what a frame decodes to. -/
theorem encodeOfDecode : Obligations.EncodeOfDecode :=
  fun _ _ _ h => decode_eq_ok_iff.mp h

/-- Settles O6: each frame is read word by word. -/
theorem writtenFramesDecode : Obligations.WrittenFramesDecode := by
  refine ⟨?_, ?_, ?_, ?_⟩ <;> decide

/-! ### Which records there are (30_encoding.md R152 to R155) -/

/-- A string of 16 bytes is any four words: it has no pad. -/
theorem exists_key_iff (words : List Word) :
    (∃ key, keyOk key = true ∧ words = packBytes key) ↔ words.length = 4 := by
  simp only [keyOk_iff, ← paddedWords_iff_packBytes, PaddedWords]
  exact and_iff_left fun last _ => Nat.mod_one _

/-- The records of TX.CONFIG and RX.CONFIG are the nine words whose first has its reserved bits 0. -/
theorem exists_linkCfg_iff (ops : List Word) :
    (∃ cfg : LinkCfg, cfg.keysOk = true ∧ ops = encodeLinkCfg cfg) ↔
      ops.length = 9 ∧ ∀ w, ops.head? = some w → w.extractLsb' 15 17 = 0 := by
  constructor
  · rintro ⟨cfg, hk, rfl⟩
    rw [LinkCfg.keysOk, Bool.and_eq_true] at hk
    have hi := (exists_key_iff _).mp ⟨_, hk.1, rfl⟩
    have hc := (exists_key_iff _).mp ⟨_, hk.2, rfl⟩
    refine ⟨by simp [encodeLinkCfg, hi, hc], fun w hw => ?_⟩
    obtain rfl := Option.some.inj hw
    exact (encodeCfgWord_fields cfg).1
  · rintro ⟨hlen, hres⟩
    cases ops with
    | nil => cases hlen
    | cons w words =>
      have hwords : words.length = 8 := Nat.succ_inj.mp hlen
      obtain ⟨ikey, hi, hit⟩ := (exists_key_iff (words.take 4)).mpr (by simp [hwords])
      obtain ⟨ckey, hc, hct⟩ := (exists_key_iff (words.drop 4)).mpr (by simp [hwords])
      refine ⟨{ bearer := w.extractLsb' 0 5, dir := w.extractLsb' 5 1, ien := w.getLsbD 6, cen := w.getLsbD 7,
                snbits := w.extractLsb' 8 5, ikp := w.getLsbD 13, ckp := w.getLsbD 14, ikey, ckey }, ?_, ?_⟩
      · exact Bool.and_eq_true_iff.mpr ⟨hi, hc⟩
      · rw [encodeLinkCfg, encodeCfgWord_eq _ (hres w rfl) rfl rfl rfl rfl rfl rfl rfl, ← hit, ← hct,
          List.take_append_drop]

/-- A rate word is any word with its reserved bits 0. -/
theorem exists_rate_iff (w : Word) : (∃ v : BitVec 17, w = (0 : BitVec 15) ++ v) ↔ w.extractLsb' 17 15 = 0 := by
  simp only [← decodeRate_eq_some_iff, decodeRate]
  split
  · next h => exact iff_of_true ⟨_, rfl⟩ h
  · next h => exact iff_of_false (by simp) h

/-- A `MAXD` word is any word with its reserved bits 0. -/
theorem exists_maxd_iff (w : Word) : (∃ v : BitVec 16, w = (0 : BitVec 16) ++ v) ↔ w.extractLsb' 16 16 = 0 := by
  constructor
  · rintro ⟨v, rfl⟩
    exact (maxdWord_fields v).1
  · exact fun h => ⟨_, (maxdWord_eq h).symm⟩

/-- The records of CH.CONFIG are the seven words whose reserved bits are 0. -/
theorem exists_channelCfg_iff (ops : List Word) :
    (∃ cfg, ops = encodeChannelCfg cfg) ↔
      ops.length = 7 ∧ (∀ k < 5, ∀ w, ops[k]? = some w → w.extractLsb' 17 15 = 0) ∧
        ∀ w, ops[5]? = some w → w.extractLsb' 16 16 = 0 := by
  simp only [← exists_rate_iff, ← exists_maxd_iff]
  constructor
  · rintro ⟨cfg, rfl⟩
    refine ⟨rfl, fun k hk w hw => ?_, fun w hw => ⟨_, (Option.some.inj hw).symm⟩⟩
    interval_cases k <;> exact ⟨_, (Option.some.inj hw).symm⟩
  · rintro ⟨hlen, hrates, hmaxd⟩
    obtain ⟨w0, w1, w2, w3, w4, w5, w6, rfl⟩ : ∃ w0 w1 w2 w3 w4 w5 w6, ops = [w0, w1, w2, w3, w4, w5, w6] := by
      match ops, hlen with
      | [w0, w1, w2, w3, w4, w5, w6], _ => exact ⟨w0, w1, w2, w3, w4, w5, w6, rfl⟩
    obtain ⟨loss, rfl⟩ := hrates 0 (by decide) _ rfl
    obtain ⟨dup, rfl⟩ := hrates 1 (by decide) _ rfl
    obtain ⟨reorder, rfl⟩ := hrates 2 (by decide) _ rfl
    obtain ⟨corrupt, rfl⟩ := hrates 3 (by decide) _ rfl
    obtain ⟨tamper, rfl⟩ := hrates 4 (by decide) _ rfl
    obtain ⟨maxd, rfl⟩ := hmaxd _ rfl
    exact ⟨{ loss, dup, reorder, corrupt, tamper, maxd, seed := w6 }, rfl⟩

/-- The records of TX.SEND are a number, a length, and the padded words of a string of that length. -/
theorem exists_send_iff (ops : List Word) :
    (∃ sduId payload, decodeSend ops = some (sduId, payload)) ↔
      ∃ (sduId len : Word) (words : List Word), ops = sduId :: len :: words ∧ PaddedWords len.toNat words := by
  simp only [decodeSend_eq_some_iff, paddedWords_iff_packBytes]
  constructor
  · rintro ⟨sduId, payload, len, hl, rfl⟩
    exact ⟨sduId, len, _, rfl, payload, hl, rfl⟩
  · rintro ⟨sduId, len, _, rfl, payload, hl, rfl⟩
    exact ⟨sduId, payload, len, hl, rfl⟩

/-- A frame of an operation decodes to an instruction of it exactly where its record does. -/
theorem decode_word_eq_ok_iff {op : Op} {ops : List Word} {i : Instr} :
    decode op.unit { cmd := op.word, operands := ops } = .ok i ↔ decodeRecord op ops = some i := by
  cases h : decodeRecord op ops <;> simp [decode, h]

/-- Settles O7: a frame of each command decodes where its record does, and the records of each command are the word
lists of its form. -/
theorem operandRecordsExactly : Obligations.OperandRecordsExactly := by
  intro ops
  have hlink := exists_linkCfg_iff ops
  have hchannel := exists_channelCfg_iff ops
  simp only [← decodeLinkCfg_eq_some_iff] at hlink
  simp only [← decodeChannelCfg_eq_some_iff] at hchannel
  refine ⟨.trans (exists_congr fun cfg => ?_) hlink, .trans (exists_congr fun cfg => ?_) hlink,
    .trans (exists_congr fun cfg => ?_) hchannel, ?_, ?_, ?_,
    .trans (exists_congr fun sduId => exists_congr fun payload => ?_) (exists_send_iff ops)⟩
  · exact decode_word_eq_ok_iff (op := .txConfig).trans (by simp [decodeRecord])
  · exact decode_word_eq_ok_iff (op := .rxConfig).trans (by simp [decodeRecord])
  · exact decode_word_eq_ok_iff (op := .chConfig).trans (by simp [decodeRecord])
  · exact decode_word_eq_ok_iff (op := .rxStats).trans (by simp [decodeRecord, decodeEmpty_eq_some_iff])
  · exact decode_word_eq_ok_iff (op := .rxDelivered).trans (by simp [decodeRecord, decodeEmpty_eq_some_iff])
  · exact decode_word_eq_ok_iff (op := .chFlush).trans (by simp [decodeRecord, decodeEmpty_eq_some_iff])
  · exact decode_word_eq_ok_iff (op := .txSend).trans (by simp [decodeRecord])

end Sys2Proof
end

section
/-! O3, O10, O18, O50, O51, O52 and O11: which frame runs which command, and what a command reads and writes
(10_state.md R30, 20_memory.md R116, 60_exceptions.md R400 to R402). -/

namespace Sys2Proof.Machine

/-! ### One step (20_memory.md R115, 70_reset_and_hazards.md R450) -/

/-- A step whose next event is a reset resets that unit. -/
theorem step_reset {s : State} {u : UnitId} {rest : List Event} (h : s.inbox = .reset u :: rest) :
    step s = .next (resetUnit u { s with inbox := rest }) := by
  rw [step, fetch_cons h]

/-- Settles O3: the next event is taken from the list, and decides what runs. -/
theorem stepRunsDecodedInstruction : Obligations.StepRunsDecodedInstruction := by
  refine ⟨fun s u f i rest hin hd => ?_, fun s u rest hin => step_reset hin⟩
  rw [step_frame hin, runFrame, hd]

/-- Settles O50, by the unit that is reset. -/
theorem resetSetsUnit : Obligations.ResetSetsUnit := by
  intro s u rest hin
  refine ⟨_, step_reset hin, resetUnit_inbox u _, resetUnit_outbox u _, resetUnit_drawIx u _, ?_⟩
  cases u <;> simp [resetTxu, resetRxu, resetChu, resetLinkCfg]

/-! ### Frames that are no instruction (60_exceptions.md R400, R402) -/

/-- A frame with a malformed record names an operation of the port it came on. -/
theorem decodeOp_of_badOperand {u : UnitId} {f : Frame} {op : Op} (h : decode u f = .error (.badOperand op)) :
    decodeOp u f.cmd = some op := by
  unfold decode at h
  split at h
  · cases h
  · next op' hop =>
    split at h <;> cases h
    exact hop

/-- The code that answers a malformed record: that of the first check of the unit's state that fails, else
`BAD_OPERAND`. -/
theorem code_badFrame (op : Op) (s : State) :
    ((prologue op false s).getD .badOperand).code =
      if s.lifeOf op.unit = .cfgError then (5 : BitVec 8)
      else if op.isConfig = true ∧ s.lifeOf op.unit = .ready then 4
      else if op.isConfig = false ∧ s.lifeOf op.unit = .unconfigured then 3
      else if s.faultOf op.unit = true then 6
      else 2 := by
  rw [prologue_eq_turnedAway_or]
  unfold turnedAway
  split_ifs <;> rfl

/-- The events still to come are not part of a unit. -/
theorem lifeOf_inbox (u : UnitId) (s : State) (rest : List Event) :
    State.lifeOf { s with inbox := rest } u = s.lifeOf u := by cases u <;> rfl

/-- The same for `FAULT`. -/
theorem faultOf_inbox (u : UnitId) (s : State) (rest : List Event) :
    State.faultOf { s with inbox := rest } u = s.faultOf u := by cases u <;> rfl

/-- Settles O10: the prologue decides the code, with the operands as the last check. -/
theorem badFramesAnswered : Obligations.BadFramesAnswered := by
  intro s u f op rest hin hd
  obtain ⟨rfl, hcmd⟩ := decodeOp_eq_some_iff.mp (decodeOp_of_badOperand hd)
  have hcode := code_badFrame op { s with inbox := rest }
  rw [lifeOf_inbox, faultOf_inbox] at hcode
  refine ⟨rfl, ?_⟩
  rw [step_frame hin, runFrame, hd, ← hcode, hcmd]
  rfl

/-- Settles O18: a payload above the limit is no legal operand, and a configured TXU answers that with
`BAD_OPERAND`. -/
theorem sendTooLongRefused : Obligations.SendTooLongRefused := by
  intro P s sduId payload m hm hlong hready
  have hbad : sendOperandOk P s.txu payload = false := by
    simp only [sendOperandOk, withinLimit, hm, decide_eq_false (Nat.not_le.mpr hlong), Bool.and_false]
  refine execAt_and_exec (i := .txSend sduId payload) ?_
  show txSend P sduId payload s = _
  have hturned : prologue .txSend false s = some .badOperand := prologue_badOperand rfl ⟨hready, rfl⟩
  rw [txSend, hbad, runCommand, hturned]
  rfl

/-! ### Every command is a prologue and a body (60_exceptions.md R400) -/

/-- The operand check of each command. -/
def operandsOkAt (P : Params) : Instr → State → Bool
  | .txConfig cfg, _ | .rxConfig cfg, _ => linkCfgOperandOk cfg
  | .txSend _ payload, s => sendOperandOk P s.txu payload
  | .rxReceive p, s => receiveOperandOk P s.rxu p
  | .chTransmit ps, _ => transmitOperandOk P ps
  | .rxStats, _ | .rxDelivered, _ | .chConfig _, _ | .chFlush, _ => true

/-- The body of each command: what it does where every check of the prologue passes. -/
def bodyAt (P : Params) : Instr → State → StepResult
  | .txConfig cfg, s =>
    if cfgLegal P cfg then .next (respondOk .txConfig [] { s with txu := configuredTxu P cfg })
    else .next (raiseConfigError .txConfig s)
  | .txSend sduId payload, s =>
    .next (respondOk .txSend (pduRecord P (txPdu P s.txu sduId payload)) { s with txu := advanceCounter s.txu })
  | .rxConfig cfg, s =>
    if cfgLegal P cfg then .next (respondOk .rxConfig [] { s with rxu := configuredRxu P cfg s.rxu })
    else .next (raiseConfigError .rxConfig s)
  | .rxReceive p, s =>
    match receive P s.rxu p with
    | .discard r q => .next (respondOk .rxReceive (receiveRecord P false q 0) { s with rxu := r })
    | .accept r q n => .next (respondOk .rxReceive (receiveRecord P true q n) { s with rxu := r })
    | .stop .capacity => .next (raiseCapacity .rxReceive s)
    | .stop (.fault f) => .fault f
  | .rxStats, s => .next (respondOk .rxStats (statsRecord P s.rxu) s)
  | .rxDelivered, s => .next (respondOk .rxDelivered (deliveredRecord P s.rxu.dl) s)
  | .chConfig cfg, s =>
    if ratesLegal cfg then .next (respondOk .chConfig [] { s with chu := configuredChu cfg s.chu })
    else .next (raiseConfigError .chConfig s)
  | .chTransmit ps, s =>
    let t := transmitAll P s.chu s.drawIx ps
    if t.overflow then .next (raiseCapacity .chTransmit { s with drawIx := t.ix })
    else
      .next (respondOk .chTransmit (pduListRecord P (shuffleOf (released t.db) (P.draw t.ix)))
        { s with chu := { s.chu with db := keptDelayed t.db }, drawIx := t.ix + 1 })
  | .chFlush, s =>
    .next (respondOk .chFlush (pduListRecord P (shuffleOf (s.chu.db.map DbEntry.pdu) (P.draw s.drawIx)))
      { s with chu := { s.chu with db := [] }, drawIx := s.drawIx + 1 })

/-- A command is its prologue and its body. -/
theorem execAt_eq_runCommand (P : Params) (i : Instr) (s : State) :
    execAt P i s = runCommand i.op (operandsOkAt P i s) (bodyAt P i) s := by cases i <;> rfl

/-- A command that answers a next state is turned away by the prologue, or passes it and is its body. -/
theorem execAt_cases {P : Params} {i : Instr} {s t : State} (h : execAt P i s = .next t) :
    (∃ code, prologue i.op (operandsOkAt P i s) s = some code ∧ t = raiseCmdError i.op code s) ∨
      (prologue i.op (operandsOkAt P i s) s = none ∧ bodyAt P i s = .next t) :=
  runCommand_cases (execAt_eq_runCommand P i s ▸ h)

/-! ### What a command reads and writes (10_state.md R30, 20_memory.md R116) -/

/-- Two states hold the same unit; for CHU the draws count as its own. -/
def SameUnit (u : UnitId) (s1 s2 : State) : Prop :=
  (u = .txu → s1.txu = s2.txu) ∧ (u = .rxu → s1.rxu = s2.rxu) ∧
    (u = .chu → s1.chu = s2.chu ∧ s1.drawIx = s2.drawIx)

/-- From `s` to `t` unit `u` has answered, and nothing outside it has moved. -/
structure Answered (u : UnitId) (answer : Response) (s t : State) : Prop where
  inbox : t.inbox = s.inbox
  outbox : t.outbox = s.outbox ++ [answer]
  txu : u ≠ .txu → t.txu = s.txu
  rxu : u ≠ .rxu → t.rxu = s.rxu
  chu : u ≠ .chu → t.chu = s.chu ∧ t.drawIx = s.drawIx

/-- `f` answers for unit `u`, writes nothing else, and reads nothing else. -/
def SeesOnly (u : UnitId) (f : State → StepResult) : Prop :=
  ∀ s1 s2 : State, SameUnit u s1 s2 → ∀ t1, f s1 = .next t1 →
    ∃ (t2 : State) (answer : Response), f s2 = .next t2 ∧ Answered u answer s1 t1 ∧ Answered u answer s2 t2 ∧
      SameUnit u t1 t2

/-- An error answer changes nothing. -/
theorem raiseCmdError_answered (op : Op) (code : Result) (s : State) :
    Answered op.unit { port := op.unit, words := [responseWord op.word code] } s (raiseCmdError op code s) :=
  ⟨rfl, rfl, fun _ => rfl, fun _ => rfl, fun _ => ⟨rfl, rfl⟩⟩

/-- Two states with the same unit have its `LIFE` and its `FAULT`. -/
theorem SameUnit.lifeOf_faultOf {u : UnitId} {s1 s2 : State} (h : SameUnit u s1 s2) :
    s1.lifeOf u = s2.lifeOf u ∧ s1.faultOf u = s2.faultOf u := by
  obtain ⟨ht, hr, hc⟩ := h
  cases u with
  | txu => exact ⟨congrArg Txu.life (ht rfl), rfl⟩
  | rxu => exact ⟨congrArg Rxu.life (hr rfl), congrArg Rxu.fault (hr rfl)⟩
  | chu => exact ⟨congrArg Chu.life (hc rfl).1, congrArg Chu.fault (hc rfl).1⟩

/-- The prologue reads the unit of its operation alone. -/
theorem prologue_congr {op : Op} {ok : Bool} {s1 s2 : State} (h : SameUnit op.unit s1 s2) :
    prologue op ok s1 = prologue op ok s2 := by
  obtain ⟨hl, hf⟩ := h.lifeOf_faultOf
  rw [prologue, prologue, hl, hf]

/-- The operand check reads the unit of its operation alone. -/
theorem operandsOkAt_congr {P : Params} {i : Instr} {s1 s2 : State} (h : SameUnit i.op.unit s1 s2) :
    operandsOkAt P i s1 = operandsOkAt P i s2 := by
  obtain ⟨ht, hr, -⟩ := h
  cases i with
  | txSend sduId payload => exact congrArg (sendOperandOk P · payload) (ht rfl)
  | rxReceive p => exact congrArg (receiveOperandOk P · p) (hr rfl)
  | _ => rfl

/-- An answer of TXU from two states that hold the same TXU. -/
theorem answered_both_txu {f : State → StepResult} {s1 s2 : State} {x : Txu} {words : List Word}
    (h : f s2 = .next { s2 with txu := x, outbox := s2.outbox ++ [⟨.txu, words⟩] }) :
    ∃ (t2 : State) (answer : Response), f s2 = .next t2 ∧
      Answered .txu answer s1 { s1 with txu := x, outbox := s1.outbox ++ [⟨.txu, words⟩] } ∧
      Answered .txu answer s2 t2 ∧
      SameUnit .txu { s1 with txu := x, outbox := s1.outbox ++ [⟨.txu, words⟩] } t2 :=
  ⟨_, _, h, ⟨rfl, rfl, nofun, fun _ => rfl, fun _ => ⟨rfl, rfl⟩⟩, ⟨rfl, rfl, nofun, fun _ => rfl, fun _ => ⟨rfl, rfl⟩⟩,
    fun _ => rfl, nofun, nofun⟩

/-- An answer of RXU from two states that hold the same RXU. -/
theorem answered_both_rxu {f : State → StepResult} {s1 s2 : State} {x : Rxu} {words : List Word}
    (h : f s2 = .next { s2 with rxu := x, outbox := s2.outbox ++ [⟨.rxu, words⟩] }) :
    ∃ (t2 : State) (answer : Response), f s2 = .next t2 ∧
      Answered .rxu answer s1 { s1 with rxu := x, outbox := s1.outbox ++ [⟨.rxu, words⟩] } ∧
      Answered .rxu answer s2 t2 ∧
      SameUnit .rxu { s1 with rxu := x, outbox := s1.outbox ++ [⟨.rxu, words⟩] } t2 :=
  ⟨_, _, h, ⟨rfl, rfl, fun _ => rfl, nofun, fun _ => ⟨rfl, rfl⟩⟩, ⟨rfl, rfl, fun _ => rfl, nofun, fun _ => ⟨rfl, rfl⟩⟩,
    nofun, fun _ => rfl, nofun⟩

/-- An answer of CHU from two states that hold the same CHU and draws. -/
theorem answered_both_chu {f : State → StepResult} {s1 s2 : State} {x : Chu} {ix : Nat} {words : List Word}
    (h : f s2 = .next { s2 with chu := x, drawIx := ix, outbox := s2.outbox ++ [⟨.chu, words⟩] }) :
    ∃ (t2 : State) (answer : Response), f s2 = .next t2 ∧
      Answered .chu answer s1 { s1 with chu := x, drawIx := ix, outbox := s1.outbox ++ [⟨.chu, words⟩] } ∧
      Answered .chu answer s2 t2 ∧
      SameUnit .chu { s1 with chu := x, drawIx := ix, outbox := s1.outbox ++ [⟨.chu, words⟩] } t2 :=
  ⟨_, _, h, ⟨rfl, rfl, fun _ => rfl, fun _ => rfl, nofun⟩, ⟨rfl, rfl, fun _ => rfl, fun _ => rfl, nofun⟩,
    nofun, nofun, fun _ => ⟨rfl, rfl⟩⟩

/-- The body of a command reads and writes the unit of its operation alone. -/
theorem bodyAt_seesOnly (P : Params) (i : Instr) : SeesOnly i.op.unit (bodyAt P i) := by
  rintro ⟨tx1, rx1, ch1, in1, out1, ix1⟩ ⟨tx2, rx2, ch2, in2, out2, ix2⟩ ⟨htx, hrx, hch⟩ t1 h
  cases i with
  | txConfig cfg =>
    obtain rfl : tx1 = tx2 := htx rfl
    cases hc : cfgLegal P cfg <;> simp only [bodyAt, hc, if_true, if_false, Bool.false_eq_true] at h <;> cases h
    all_goals exact answered_both_txu (by simp only [bodyAt, hc]; rfl)
  | txSend sduId payload =>
    obtain rfl : tx1 = tx2 := htx rfl
    cases h
    exact answered_both_txu rfl
  | rxConfig cfg =>
    obtain rfl : rx1 = rx2 := hrx rfl
    cases hc : cfgLegal P cfg <;> simp only [bodyAt, hc, if_true, if_false, Bool.false_eq_true] at h <;> cases h
    all_goals exact answered_both_rxu (by simp only [bodyAt, hc]; rfl)
  | rxReceive p =>
    obtain rfl : rx1 = rx2 := hrx rfl
    simp only [bodyAt] at h
    split at h
    case h_4 => cases h
    all_goals
      next hr =>
      cases h
      exact answered_both_rxu (by simp only [bodyAt, hr]; rfl)
  | rxStats | rxDelivered =>
    obtain rfl : rx1 = rx2 := hrx rfl
    cases h
    exact answered_both_rxu rfl
  | chConfig cfg =>
    obtain ⟨rfl, rfl⟩ : ch1 = ch2 ∧ ix1 = ix2 := hch rfl
    cases hc : ratesLegal cfg <;> simp only [bodyAt, hc, if_true, if_false, Bool.false_eq_true] at h <;> cases h
    all_goals exact answered_both_chu (by simp only [bodyAt, hc]; rfl)
  | chTransmit ps =>
    obtain ⟨rfl, rfl⟩ : ch1 = ch2 ∧ ix1 = ix2 := hch rfl
    cases ho : (transmitAll P ch1 ix1 ps).overflow <;>
      simp only [bodyAt, ho, if_true, if_false, Bool.false_eq_true] at h <;> cases h
    all_goals exact answered_both_chu (by simp only [bodyAt, ho]; rfl)
  | chFlush =>
    obtain ⟨rfl, rfl⟩ : ch1 = ch2 ∧ ix1 = ix2 := hch rfl
    cases h
    exact answered_both_chu rfl

/-- A command reads and writes the unit of its operation alone. -/
theorem execAt_seesOnly (P : Params) (i : Instr) : SeesOnly i.op.unit (execAt P i) := by
  intro s1 s2 hsame t1 h
  have hok : operandsOkAt P i s1 = operandsOkAt P i s2 := operandsOkAt_congr hsame
  rcases execAt_cases h with ⟨code, hp, rfl⟩ | ⟨hp, hb⟩
  · rw [hok, prologue_congr hsame] at hp
    refine ⟨raiseCmdError i.op code s2, _, ?_, raiseCmdError_answered _ _ _, raiseCmdError_answered _ _ _, hsame⟩
    rw [execAt_eq_runCommand, runCommand, hp]
  · rw [hok, prologue_congr hsame] at hp
    obtain ⟨t2, answer, hb2, h1, h2, ht⟩ := bodyAt_seesOnly P i s1 s2 hsame t1 hb
    refine ⟨t2, answer, ?_, h1, h2, ht⟩
    rw [execAt_eq_runCommand, runCommand, hp]
    exact hb2

/-- A command answers for its unit, and leaves everything else. -/
theorem execAt_answered {P : Params} {i : Instr} {s t : State} (h : execAt P i s = .next t) :
    ∃ answer, Answered i.op.unit answer s t := by
  have hself : SameUnit i.op.unit s s := ⟨fun _ => rfl, fun _ => rfl, fun _ => ⟨rfl, rfl⟩⟩
  obtain ⟨-, answer, -, ha, -, -⟩ := execAt_seesOnly P i s s hself t h
  exact ⟨answer, ha⟩

/-- Settles O51, by what a command leaves unchanged. -/
theorem instructionsKeepOtherUnits : Obligations.InstructionsKeepOtherUnits := by
  intro i s t h
  obtain ⟨answer, ha⟩ := execAt_answered ((execAt_params i s).trans h)
  exact ⟨ha.inbox, ⟨[answer], ha.outbox.symm⟩, ha.txu, ha.rxu, ha.chu⟩

/-- Settles O52, by what a command reads. -/
theorem unitsSeeOnlyThemselves : Obligations.UnitsSeeOnlyThemselves := by
  intro i s1 s2 t1 htx hrx hch h
  obtain ⟨t2, answer, h2, ha1, ha2, ht⟩ :=
    execAt_seesOnly Config.params i s1 s2 ⟨htx, hrx, hch⟩ t1 ((execAt_params i s1).trans h)
  obtain ⟨htx', hrx', hch'⟩ := ht
  exact ⟨t2, answer, (execAt_params i s2).symm.trans h2, ha1.outbox, ha2.outbox, htx', hrx', fun hu => (hch' hu).1⟩

/-! ### `FAULT` (60_exceptions.md R412) -/

/-- A unit that did not answer keeps its `LIFE` and its `FAULT`. -/
theorem Answered.keeps_other {u v : UnitId} {answer : Response} {s t : State} (h : Answered u answer s t)
    (hv : v ≠ u) : SameUnit v t s :=
  ⟨fun he => h.txu fun hu => hv (he.trans hu.symm), fun he => h.rxu fun hu => hv (he.trans hu.symm),
    fun he => h.chu fun hu => hv (he.trans hu.symm)⟩

/-- An error answer keeps every unit. -/
theorem raiseCmdError_sameUnit (op : Op) (code : Result) (s : State) (u : UnitId) :
    SameUnit u (raiseCmdError op code s) s := ⟨fun _ => rfl, fun _ => rfl, fun _ => ⟨rfl, rfl⟩⟩

/-- A unit whose `FAULT` is set keeps itself in every command: its own are turned away. -/
theorem exec_sameUnit_of_fault {i : Instr} {s t : State} {u : UnitId} (h : exec i s = .next t)
    (hf : s.faultOf u = true) : SameUnit u t s := by
  have h' : execAt Config.params i s = .next t := (execAt_params i s).trans h
  rcases execAt_cases h' with ⟨code, -, rfl⟩ | ⟨hp, -⟩
  · exact raiseCmdError_sameUnit i.op code s u
  · obtain ⟨-, -, -, hno, -⟩ := (prologue_eq_none_iff _ _ _).mp hp
    obtain ⟨answer, ha⟩ := execAt_answered h'
    refine ha.keeps_other fun hu => ?_
    rw [hu, hno] at hf
    cases hf

/-- The reset of a unit keeps every other unit. -/
theorem resetUnit_sameUnit {u v : UnitId} (hv : v ≠ u) (s : State) : SameUnit v (resetUnit u s) s := by
  refine ⟨?_, ?_, ?_⟩ <;> rintro rfl <;> cases u <;> simp_all

/-- What a step does to unit `u`: its reset, nothing, or one of its commands. -/
theorem step_unit_cases {s t : State} (u : UnitId) (h : step s = .next t) :
    (∃ rest, s.inbox = .reset u :: rest ∧ t = resetUnit u { s with inbox := rest }) ∨
    SameUnit u t s ∨
    (∃ f rest i, s.inbox = .frame u f :: rest ∧ decode u f = .ok i ∧ i.op.unit = u ∧
      exec i { s with inbox := rest } = .next t) := by
  rcases step_cases h with ⟨-, rfl⟩ | ⟨v, rest, hin, rfl⟩ | ⟨v, f, rest, hin, hframe⟩
  · exact .inr (.inl ⟨fun _ => rfl, fun _ => rfl, fun _ => ⟨rfl, rfl⟩⟩)
  · by_cases hv : u = v
    · subst hv
      exact .inl ⟨rest, hin, rfl⟩
    · exact .inr (.inl (resetUnit_sameUnit hv { s with inbox := rest }))
  · rcases hframe with ⟨-, rfl⟩ | ⟨op, -, rfl⟩ | ⟨i, hd, hi, hexec⟩
    · exact .inr (.inl ⟨fun _ => rfl, fun _ => rfl, fun _ => ⟨rfl, rfl⟩⟩)
    · exact .inr (.inl ⟨fun _ => rfl, fun _ => rfl, fun _ => ⟨rfl, rfl⟩⟩)
    · by_cases hv : u = v
      · subst hv
        exact .inr (.inr ⟨f, rest, i, hin, hd, hi, hexec⟩)
      · obtain ⟨answer, ha⟩ := execAt_answered ((execAt_params i _).trans hexec)
        exact .inr (.inl (ha.keeps_other (hi ▸ hv)))

/-- Settles O11: a unit with `FAULT` set keeps itself in every step but its own reset. -/
theorem onlyResetClearsFault : Obligations.OnlyResetClearsFault := by
  intro s t u h hset hclear
  have hmoved : ¬ SameUnit u t s := fun hsame => by
    rw [hsame.lifeOf_faultOf.2, hset] at hclear
    cases hclear
  rcases step_unit_cases u h with ⟨rest, hin, -⟩ | hsame | ⟨f, rest, i, -, -, -, hexec⟩
  · rw [hin, List.head?_cons]
  · exact absurd hsame hmoved
  · rw [← faultOf_inbox u s rest] at hset
    exact absurd (exec_sameUnit_of_fault hexec hset) hmoved

end Sys2Proof.Machine
end

section
/-! O12, and what a step can do to each unit, said once for the invariants: `Txu.Move`, `Rxu.Move` and `Chu.Move`
(10_state.md R31 to R69). -/

namespace Sys2Proof.Machine

/-! ### How RX.RECEIVE ends (42_receiver.md R280) -/

/-- A discard moves no more than the counter of its reason. -/
theorem receive_eq_discard {P : Params} {r r' : Rxu} {p q : Pdu} (h : receive P r p = .discard r' q) :
    ∃ reason, r' = countDiscard reason r := by
  have key : ∀ {reason p'}, receive P r p = discard reason r p' → ∃ reason, r' = countDiscard reason r := by
    intro reason p' hd
    rw [h] at hd
    cases hd
    exact ⟨reason, rfl⟩
  rcases receive_cases P r p with ⟨-, hd⟩ | ⟨-, ⟨-, hd⟩ | ⟨data, -, ⟨reason, -, hd⟩ | ⟨body, v, -, ha⟩⟩⟩
  · exact key hd
  · exact key hd
  · exact key hd
  · rcases acceptPdu_cases P r { p with count := reconstruct r p.sn, verified := v } body with
      ⟨-, hd⟩ | ⟨-, -, hd⟩ | ⟨-, -, ⟨why, -, hd⟩ | ⟨d, -, hd⟩⟩
    · exact key (ha.trans hd)
    all_goals
      rw [h, hd] at ha
      cases ha

/-- An acceptance is of a new count, in a replay cache with room, by steps 6 and 7. -/
theorem receive_eq_accept {P : Params} {r r' : Rxu} {p q : Pdu} {n : Nat} (h : receive P r p = .accept r' q n) :
    ∃ (v : Verified) (body : List Byte) (d : Drain), reconstruct r p.sn ∉ r.rc ∧
      atCapacity P.replayCap r.rc.length = false ∧
      bufferAndDrain P { p with count := reconstruct r p.sn, verified := v } body
        { r with rc := CountSet.insert r.rc (reconstruct r p.sn) } = .ok d ∧
      r' = d.rxu := by
  rcases receive_cases P r p with ⟨-, hd⟩ | ⟨-, ⟨-, hd⟩ | ⟨data, -, ⟨reason, -, hd⟩ | ⟨body, v, -, ha⟩⟩⟩
  · rw [h] at hd
    cases hd
  · rw [h] at hd
    cases hd
  · rw [h] at hd
    cases hd
  · rcases acceptPdu_cases P r { p with count := reconstruct r p.sn, verified := v } body with
      ⟨-, hd⟩ | ⟨-, -, hd⟩ | ⟨hnew, hroom, ⟨why, -, hd⟩ | ⟨d, hb, hd⟩⟩
    case inr.inr.inr =>
      rw [h, hd] at ha
      cases ha
      exact ⟨v, body, d, hnew, hroom, hb, rfl⟩
    all_goals
      rw [h, hd] at ha
      cases ha

/-! ### The moves of the three units -/

/-- What a command can do to TXU (41_transmitter.md R230 to R241). -/
inductive Txu.Move (P : Params) (t : Txu) : Txu → Prop
  | stay : Move P t t
  | configured (cfg : LinkCfg) : t.life = .unconfigured → legalLink P cfg → Move P t (configuredTxu P cfg)
  | failed : t.life = .unconfigured → Move P t { t with life := .cfgError }
  | sent : t.life = .ready → Move P t (advanceCounter t)

/-- What a command can do to RXU (42_receiver.md R260 to R288, 60_exceptions.md R405, R412). -/
inductive Rxu.Move (P : Params) (r : Rxu) : Rxu → Prop
  | stay : Move P r r
  | configured (cfg : LinkCfg) : r.life = .unconfigured → legalLink P cfg → Move P r (configuredRxu P cfg r)
  | failed : r.life = .unconfigured → Move P r { r with life := .cfgError }
  | faulted : r.life = .ready → Move P r { r with fault := true }
  | discarded (reason : Status) : r.life = .ready → Move P r (countDiscard reason r)
  | accepted (p : Pdu) (body : List Byte) (d : Drain) : r.life = .ready → p.sn.toNat ≤ maxSn (snWidth r.lcfg) →
      p.count = reconstruct r p.sn → p.count ∉ r.rc → atCapacity P.replayCap r.rc.length = false →
      bufferAndDrain P p body { r with rc := CountSet.insert r.rc p.count } = .ok d → Move P r d.rxu

/-- What a command can do to CHU (43_channel.md R340 to R360, 60_exceptions.md R405, R412). -/
inductive Chu.Move (P : Params) (c : Chu) : Chu → Prop
  | stay : Move P c c
  | configured (cfg : ChannelCfg) : c.life = .unconfigured → ratesLegal cfg = true → Move P c (configuredChu cfg c)
  | failed : c.life = .unconfigured → Move P c { c with life := .cfgError }
  | faulted : c.life = .ready → Move P c { c with fault := true }
  | transmitted (ps : List Pdu) (ix : Nat) : c.life = .ready → (transmitAll P c ix ps).overflow = false →
      Move P c { c with db := keptDelayed (transmitAll P c ix ps).db }
  | flushed : c.life = .ready → Move P c { c with db := [] }

/-- Every command does to TXU one of its moves. -/
theorem execAt_txu_move {P : Params} {i : Instr} {s t : State} (h : execAt P i s = .next t) : s.txu.Move P t.txu := by
  cases i with
  | txConfig cfg =>
    rcases txConfig_cases h with ⟨code, rfl⟩ | ⟨hl, ⟨hlegal, rfl⟩ | ⟨-, rfl⟩⟩
    · exact .stay
    · exact .configured cfg hl hlegal
    · exact .failed hl
  | txSend sduId payload =>
    rcases txSend_cases h with ⟨code, rfl⟩ | ⟨hl, -, rfl⟩
    · exact .stay
    · exact .sent hl
  | _ =>
    obtain ⟨answer, ha⟩ := execAt_answered h
    rw [ha.txu nofun]
    exact .stay

/-- Every command does to RXU one of its moves. -/
theorem execAt_rxu_move {P : Params} {i : Instr} {s t : State} (h : execAt P i s = .next t) : s.rxu.Move P t.rxu := by
  cases i with
  | rxConfig cfg =>
    rcases rxConfig_cases h with ⟨code, rfl⟩ | ⟨hl, -, ⟨hlegal, rfl⟩ | ⟨-, rfl⟩⟩
    · exact .stay
    · exact .configured cfg hl hlegal
    · exact .failed hl
  | rxReceive p =>
    rcases rxReceive_cases h with
      ⟨code, rfl⟩ | ⟨ha, hok, ⟨r, q, hr, rfl⟩ | ⟨r, q, n, hr, rfl⟩ | ⟨-, rfl⟩⟩
    · exact .stay
    · obtain ⟨reason, rfl⟩ := receive_eq_discard hr
      exact .discarded reason ha.1
    · obtain ⟨v, body, d, hnew, hroom, hb, rfl⟩ := receive_eq_accept hr
      rw [receiveOperandOk, Bool.and_eq_true, decide_eq_true_eq] at hok
      exact .accepted { p with count := reconstruct s.rxu p.sn, verified := v } body d ha.1 hok.2 rfl hnew hroom hb
    · exact .faulted ha.1
  | rxStats | rxDelivered =>
    rcases execAt_cases h with ⟨code, -, rfl⟩ | ⟨-, hb⟩
    · exact .stay
    · cases hb
      exact .stay
  | _ =>
    obtain ⟨answer, ha⟩ := execAt_answered h
    rw [ha.rxu nofun]
    exact .stay

/-- Every command does to CHU one of its moves. -/
theorem execAt_chu_move {P : Params} {i : Instr} {s t : State} (h : execAt P i s = .next t) : s.chu.Move P t.chu := by
  cases i with
  | chConfig cfg =>
    rcases execChConfig_cases h with ⟨code, rfl⟩ | ⟨hl, -, ⟨hlegal, rfl⟩ | ⟨-, rfl⟩⟩
    · exact .stay
    · exact .configured cfg hl hlegal
    · exact .failed hl
  | chTransmit ps =>
    rcases chTransmit_cases h with ⟨code, rfl⟩ | ⟨ha, -, ⟨-, rfl⟩ | ⟨ho, rfl⟩⟩
    · exact .stay
    · exact .faulted ha.1
    · exact .transmitted ps s.drawIx ha.1 ho
  | chFlush =>
    rcases chFlush_cases h with ⟨code, rfl⟩ | ⟨ha, rfl⟩
    · exact .stay
    · exact .flushed ha.1
  | _ =>
    obtain ⟨answer, ha⟩ := execAt_answered h
    rw [(ha.chu nofun).1]
    exact .stay

/-- Every step resets TXU or does one of its moves. -/
theorem step_txu_move {s t : State} (h : step s = .next t) :
    (s.inbox.head? = some (.reset .txu) ∧ t.txu = resetTxu) ∨ s.txu.Move Config.params t.txu := by
  rcases step_unit_cases .txu h with ⟨rest, hin, rfl⟩ | ⟨hsame, -, -⟩ | ⟨f, rest, i, -, -, -, hexec⟩
  · exact .inl ⟨by rw [hin, List.head?_cons], rfl⟩
  · exact .inr (hsame rfl ▸ .stay)
  · exact .inr (execAt_txu_move (s := { s with inbox := rest }) ((execAt_params i _).trans hexec))

/-- Every step resets RXU or does one of its moves. -/
theorem step_rxu_move {s t : State} (h : step s = .next t) :
    (s.inbox.head? = some (.reset .rxu) ∧ t.rxu = resetRxu) ∨ s.rxu.Move Config.params t.rxu := by
  rcases step_unit_cases .rxu h with ⟨rest, hin, rfl⟩ | ⟨-, hsame, -⟩ | ⟨f, rest, i, -, -, -, hexec⟩
  · exact .inl ⟨by rw [hin, List.head?_cons], rfl⟩
  · exact .inr (hsame rfl ▸ .stay)
  · exact .inr (execAt_rxu_move (s := { s with inbox := rest }) ((execAt_params i _).trans hexec))

/-- Every step resets CHU or does one of its moves. -/
theorem step_chu_move {s t : State} (h : step s = .next t) :
    (s.inbox.head? = some (.reset .chu) ∧ t.chu = resetChu) ∨ s.chu.Move Config.params t.chu := by
  rcases step_unit_cases .chu h with ⟨rest, hin, rfl⟩ | ⟨-, -, hsame⟩ | ⟨f, rest, i, -, -, -, hexec⟩
  · exact .inl ⟨by rw [hin, List.head?_cons], rfl⟩
  · exact .inr ((hsame rfl).1 ▸ .stay)
  · exact .inr (execAt_chu_move (s := { s with inbox := rest }) ((execAt_params i _).trans hexec))

/-! ### What steps 6 and 7 of RX.RECEIVE keep (10_state.md R54, R55) -/

/-- `r'` is `r` after deliveries and acceptances: the delivered list and the replay cache have only grown, and what no
delivery moves is unmoved. -/
structure Rxu.Grown (r r' : Rxu) : Prop where
  life : r'.life = r.life
  lcfg : r'.lcfg = r.lcfg
  fault : r'.fault = r.fault
  cntOld : r'.cntOld = r.cntOld
  rc : r'.rc = r.rc
  dl : r.dl <+: r'.dl

/-- A drain grows the receiver it starts from. -/
theorem drain_grown {P : Params} {own : Word} {fuel : Nat} {d d' : Drain} (h : drain P own fuel d = .ok d') :
    d.rxu.Grown d'.rxu := by
  refine drain_induction (M := fun d' => d.rxu.Grown d'.rxu) (fun d' e hg _ _ _ => ?_) fuel d d' h
    ⟨rfl, rfl, rfl, rfl, rfl, List.prefix_rfl⟩
  exact ⟨hg.life, hg.lcfg, hg.fault, hg.cntOld, hg.rc, hg.dl.trans (List.prefix_append _ _)⟩

/-- Steps 6 and 7 that complete wrote the slot of the PDU, where they might, and drained. -/
theorem bufferAndDrain_eq_ok {P : Params} {p : Pdu} {body : List Byte} {r : Rxu} {d : Drain}
    (h : bufferAndDrain P p body r = .ok d) (hsn : p.sn.toNat ≤ maxSn (snWidth r.lcfg)) :
    drain P p.sn ((Memory.insert r.rb p.sn.toNat { sduId := p.sduId, count := p.count, body }).length + 1)
      { rxu := { r with rb := Memory.insert r.rb p.sn.toNat { sduId := p.sduId, count := p.count, body } }
        ndrain := 0, own := false } = .ok d := by
  rw [bufferAndDrain_eq hsn] at h
  split at h
  · cases h
  · exact h

/-- Steps 6 and 7 grow the receiver. -/
theorem bufferAndDrain_grown {P : Params} {p : Pdu} {body : List Byte} {r : Rxu} {d : Drain}
    (h : bufferAndDrain P p body r = .ok d) (hsn : p.sn.toNat ≤ maxSn (snWidth r.lcfg)) : r.Grown d.rxu := by
  obtain ⟨hlife, hlcfg, hfault, hold, hrc, hdl⟩ := drain_grown (bufferAndDrain_eq_ok h hsn)
  exact ⟨hlife, hlcfg, hfault, hold, hrc, hdl⟩

/-! ### `LIFE` and the configuration registers (10_state.md R31, R32, R65 to R67) -/

/-- A unit has the same `LIFE` and the same configuration registers in two states. -/
def SameConfig (u : UnitId) (s t : State) : Prop :=
  t.lifeOf u = s.lifeOf u ∧ (u = .txu → t.txu.lcfg = s.txu.lcfg) ∧ (u = .rxu → t.rxu.lcfg = s.rxu.lcfg) ∧
    (u = .chu → t.chu.rateLoss = s.chu.rateLoss ∧ t.chu.rateDup = s.chu.rateDup ∧
      t.chu.rateReorder = s.chu.rateReorder ∧ t.chu.rateCorrupt = s.chu.rateCorrupt ∧
      t.chu.rateTamper = s.chu.rateTamper ∧ t.chu.maxd = s.chu.maxd ∧ t.chu.seed = s.chu.seed)

/-- A unit that has not moved has its configuration. -/
theorem SameUnit.sameConfig {u : UnitId} {s t : State} (h : SameUnit u t s) : SameConfig u s t := by
  obtain ⟨htx, hrx, hch⟩ := h
  refine ⟨SameUnit.lifeOf_faultOf ⟨htx, hrx, hch⟩ |>.1, fun hu => by rw [htx hu], fun hu => by rw [hrx hu],
    fun hu => ?_⟩
  rw [(hch hu).1]
  exact ⟨rfl, rfl, rfl, rfl, rfl, rfl, rfl⟩

/-- A configured TXU keeps its configuration in every move. -/
theorem Txu.Move.keeps_config {P : Params} {t t' : Txu} (h : t.Move P t') (hr : t.life ≠ .unconfigured) :
    t'.life = t.life ∧ t'.lcfg = t.lcfg := by
  cases h with
  | stay => exact ⟨rfl, rfl⟩
  | configured cfg hl _ => exact absurd hl hr
  | failed hl => exact absurd hl hr
  | sent _ => exact ⟨advanceCounter_life t, advanceCounter_lcfg t⟩

/-- A configured RXU keeps its configuration in every move. -/
theorem Rxu.Move.keeps_config {P : Params} {r r' : Rxu} (h : r.Move P r') (hr : r.life ≠ .unconfigured) :
    r'.life = r.life ∧ r'.lcfg = r.lcfg := by
  cases h with
  | stay | faulted _ => exact ⟨rfl, rfl⟩
  | configured cfg hl _ => exact absurd hl hr
  | failed hl => exact absurd hl hr
  | discarded reason _ => exact ⟨countDiscard_life r reason, countDiscard_lcfg r reason⟩
  | accepted p body d _ hsn _ _ _ hb =>
    obtain ⟨hlife, hlcfg, -⟩ := bufferAndDrain_grown hb hsn
    exact ⟨hlife, hlcfg⟩

/-- A configured CHU keeps its configuration in every move. -/
theorem Chu.Move.keeps_config {P : Params} {c c' : Chu} (h : c.Move P c') (hr : c.life ≠ .unconfigured) :
    c'.life = c.life ∧ c'.rateLoss = c.rateLoss ∧ c'.rateDup = c.rateDup ∧ c'.rateReorder = c.rateReorder ∧
      c'.rateCorrupt = c.rateCorrupt ∧ c'.rateTamper = c.rateTamper ∧ c'.maxd = c.maxd ∧ c'.seed = c.seed := by
  cases h with
  | configured cfg hl _ => exact absurd hl hr
  | failed hl => exact absurd hl hr
  | stay | faulted _ | transmitted _ _ _ _ | flushed _ => exact ⟨rfl, rfl, rfl, rfl, rfl, rfl, rfl, rfl⟩

/-- A unit that is not unconfigured keeps its configuration in every command. -/
theorem exec_sameConfig {i : Instr} {s t : State} {u : UnitId} (h : exec i s = .next t)
    (hl : s.lifeOf u ≠ .unconfigured) : SameConfig u s t := by
  have h' : execAt Config.params i s = .next t := (execAt_params i s).trans h
  cases u with
  | txu =>
    obtain ⟨hlife, hlcfg⟩ := (execAt_txu_move h').keeps_config hl
    exact ⟨hlife, fun _ => hlcfg, nofun, nofun⟩
  | rxu =>
    obtain ⟨hlife, hlcfg⟩ := (execAt_rxu_move h').keeps_config hl
    exact ⟨hlife, nofun, fun _ => hlcfg, nofun⟩
  | chu =>
    obtain ⟨hlife, hregs⟩ := (execAt_chu_move h').keeps_config hl
    exact ⟨hlife, nofun, nofun, fun _ => hregs⟩

/-- A command other than a configuration command is turned away by an unconfigured unit. -/
theorem exec_sameUnit_of_unconfigured {i : Instr} {s t : State} (h : exec i s = .next t) (hi : i.op.isConfig = false)
    (hl : s.lifeOf i.op.unit = .unconfigured) : SameUnit i.op.unit t s := by
  rcases execAt_cases ((execAt_params i s).trans h) with ⟨code, -, rfl⟩ | ⟨hp, -⟩
  · exact raiseCmdError_sameUnit i.op code s _
  · obtain ⟨⟨hready, -⟩, -⟩ := accepts_of_prologue hp hi
    rw [hl] at hready
    cases hready

/-- Settles O12: a unit's configuration moves in its reset, or in a command of its own; and there only where it is
unconfigured and the command configures it. -/
theorem lifeMovesOnlyByConfigAndReset : Obligations.LifeMovesOnlyByConfigAndReset := by
  intro s t u h hmoved
  have hnot : ¬ SameConfig u s t := by
    rintro ⟨hlife, htx, hrx, hch⟩
    rcases hmoved with hne | ⟨hu, hne⟩ | ⟨hu, hne⟩ | ⟨hu, hne⟩
    · exact hne hlife
    · exact hne (htx hu)
    · exact hne (hrx hu)
    · obtain ⟨h1, h2, h3, h4, h5, h6, h7⟩ := hch hu
      simp [h1, h2, h3, h4, h5, h6, h7] at hne
  rcases step_unit_cases u h with ⟨rest, hin, rfl⟩ | hsame | ⟨f, rest, i, hin, hd, hi, hexec⟩
  · refine .inl ⟨by rw [hin, List.head?_cons], ?_⟩
    cases u <;> rfl
  · exact absurd hsame.sameConfig hnot
  · subst hi
    have hl : s.lifeOf i.op.unit = .unconfigured := by
      by_contra hl
      rw [← lifeOf_inbox i.op.unit s rest] at hl
      exact hnot (exec_sameConfig (s := { s with inbox := rest }) hexec hl)
    refine .inr ⟨hl, f, i, by rw [hin, List.head?_cons], hd, ?_⟩
    by_contra hi
    rw [← lifeOf_inbox i.op.unit s rest] at hl
    exact hnot (exec_sameUnit_of_unconfigured hexec (Bool.eq_false_iff.mpr hi) hl).sameConfig

/-- Settles O33: outside its reset RXU's delivered list and replay cache only grow. -/
theorem receiverStoresOnlyGrow : Obligations.ReceiverStoresOnlyGrow := by
  intro s t h hreset
  rcases step_rxu_move h with ⟨hin, -⟩ | hmove
  · exact absurd hin hreset
  · generalize t.rxu = r' at hmove
    cases hmove with
    | stay | configured _ _ _ | failed _ | faulted _ => exact ⟨List.prefix_rfl, fun _ hc => hc⟩
    | discarded reason _ =>
      rw [countDiscard_dl, countDiscard_rc]
      exact ⟨List.prefix_rfl, fun _ hc => hc⟩
    | accepted p body d _ hsn _ _ _ hb =>
      obtain ⟨-, -, -, -, hrc, hdl⟩ := bufferAndDrain_grown hb hsn
      exact ⟨hdl, fun c hc => hrc ▸ CountSet.mem_insert.mpr (.inr hc)⟩

end Sys2Proof.Machine
end

section
/-! O54, O55 and O58: the invariants after reset, and those of TXU and CHU in every step (10_state.md R40, R41, R65,
R68, R90). -/

namespace Sys2Proof.Machine

/-! ### The transmitter (10_state.md R40, R41, R90) -/

/-- A TXU that is not configured and holds its reset values meets its invariant. -/
theorem Txu.Inv.of_idle (P : Params) {life : Life} (h : life ≠ .ready) : ({ resetTxu with life } : Txu).Inv P :=
  ⟨fun _ => rfl, fun hr => absurd hr h, fun hr => absurd hr h, fun hr => absurd hr h⟩

/-- A TXU in a legal configuration, with the initial counter, meets its invariant. -/
theorem configuredTxu_inv {P : Params} {cfg : LinkCfg} (h : legalLink P cfg) : (configuredTxu P cfg).Inv P := by
  obtain ⟨-, -, -, hsn, hhfn⟩ := (cfgLegal_eq_true_iff P cfg).mp h.1
  exact ⟨fun hn => absurd rfl hn, fun _ => h, fun _ => hsn, fun _ => hhfn⟩

/-- Every move of TXU keeps its invariant. -/
theorem Txu.Move.keeps_inv {P : Params} {t t' : Txu} (hm : t.Move P t') (h : t.Inv P) : t'.Inv P := by
  cases hm with
  | stay => exact h
  | configured cfg _ hlegal => exact configuredTxu_inv hlegal
  | failed hl =>
    rw [h.idle (by simp [hl])]
    exact .of_idle P (by decide)
  | sent hr => exact advanceCounter_inv h hr

/-- Settles O55, by the moves of TXU. -/
theorem stepKeepsTransmitter : Obligations.StepKeepsTransmitter := by
  intro s t h hstep
  rcases step_txu_move hstep with ⟨-, hreset⟩ | hm
  · rw [hreset]
    exact .of_idle _ (life := .unconfigured) (by decide)
  · exact hm.keeps_inv h

/-! ### The channel (10_state.md R65, R68, R90) -/

/-- A CHU that is not configured and holds its reset values meets its invariant. -/
theorem Chu.Inv.of_idle (P : Params) {life : Life} : ({ resetChu with life } : Chu).Inv P :=
  ⟨fun _ => rfl, by simp [resetChu], by simp [resetChu], by simp [resetChu], by simp [resetChu], by simp [resetChu],
    fun _ he => absurd he List.not_mem_nil, withinLimit_zero _⟩

/-- The delay that a CH.TRANSMIT appends is at most `MAXD`. -/
theorem ChannelFate.delay_le {c : Chu} {p : Pdu} {entries : List DbEntry} (h : ChannelFate c p entries) {e : DbEntry}
    (he : e ∈ entries) : e.delay.toNat ≤ c.maxd.toNat := by
  rcases h with ⟨-, rfl⟩ | ⟨-, q, -, cloned, delay, rfl, -, -, -, -, hle⟩
  · cases he
  · rcases List.mem_append.mp he with he | he
    · cases cloned with
      | false => cases he
      | true =>
        rw [List.mem_singleton.mp he]
        exact Nat.zero_le _
    · rw [List.mem_singleton.mp he]
      exact hle

/-- Every delay in the delay buffer of a CH.TRANSMIT, before the release, is at most `MAXD`, if it was below before. -/
theorem transmitAll_delay_le {P : Params} {c : Chu} {ix : Nat} {ps : List Pdu}
    (h : ∀ e ∈ c.db, e.delay.toNat < c.maxd.toNat) {e : DbEntry} (he : e ∈ (transmitAll P c ix ps).db) :
    e.delay.toNat ≤ c.maxd.toNat := by
  obtain ⟨fates, hfates, hdb⟩ := transmitAll_fates P c ix ps
  rw [hdb, List.mem_append, List.mem_flatten] at he
  rcases he with he | ⟨entries, hentries, he⟩
  · exact Nat.le_of_lt (h e he)
  · obtain ⟨k, hk, rfl⟩ := List.getElem_of_mem hentries
    exact (hfates.get (hfates.length_eq ▸ hk) hk).delay_le he

/-- What is kept in the delay buffer: an entry whose delay has not run out, one less. -/
theorem mem_keptDelayed {db : List DbEntry} {e : DbEntry} :
    e ∈ keptDelayed db ↔ ∃ e' ∈ db, e'.delay ≠ 0 ∧ { e' with delay := e'.delay - 1 } = e := by
  simp only [keptDelayed, List.mem_map, List.mem_filter, decide_eq_true_eq, and_assoc]

/-- A delay that has not run out counts down by one. -/
theorem delay_sub_one_toNat {d : BitVec 16} (h : d ≠ 0) : (d - 1).toNat + 1 = d.toNat := by
  have h0 : d.toNat ≠ 0 := fun h0 => h (BitVec.eq_of_toNat_eq h0)
  bv_omega

/-- The release keeps no more entries than there were. -/
theorem length_keptDelayed_le (db : List DbEntry) : (keptDelayed db).length ≤ db.length := by
  rw [keptDelayed, List.length_map]
  exact List.length_filter_le _ _

/-- Every move of CHU keeps its invariant. -/
theorem Chu.Move.keeps_inv {P : Params} {c c' : Chu} (hm : c.Move P c') (h : c.Inv P) : c'.Inv P := by
  obtain ⟨hidle, hloss, hdup, hreorder, hcorrupt, htamper, hdelays, hroom⟩ := h
  cases hm with
  | stay => exact ⟨hidle, hloss, hdup, hreorder, hcorrupt, htamper, hdelays, hroom⟩
  | configured cfg hl hlegal =>
    obtain ⟨h1, h2, h3, h4, h5⟩ := (ratesLegal_eq_true_iff cfg).mp hlegal
    rw [hidle (by simp [hl])]
    exact ⟨fun hn => absurd rfl hn, h1, h2, h3, h4, h5, fun _ he => absurd he List.not_mem_nil, withinLimit_zero _⟩
  | failed hl =>
    rw [hidle (by simp [hl])]
    exact .of_idle P
  | faulted hr => exact ⟨fun hn => absurd hr hn, hloss, hdup, hreorder, hcorrupt, htamper, hdelays, hroom⟩
  | flushed hr =>
    exact ⟨fun hn => absurd hr hn, hloss, hdup, hreorder, hcorrupt, htamper,
      fun _ he => absurd he List.not_mem_nil, withinLimit_zero _⟩
  | transmitted ps ix hr ho =>
    refine ⟨fun hn => absurd hr hn, hloss, hdup, hreorder, hcorrupt, htamper, fun e he => ?_, ?_⟩
    · obtain ⟨e', he', hne, rfl⟩ := mem_keptDelayed.mp he
      have hle := transmitAll_delay_le hdelays he'
      have hsub := delay_sub_one_toNat hne
      show (e'.delay - 1).toNat < c.maxd.toNat
      omega
    · have hw : withinLimit P.dbCap (transmitAll P c ix ps).db.length = true := by
        simpa [ho] using transmitAll_overflow (ix := ix) (ps := ps) hroom
      exact withinLimit_mono hw (length_keptDelayed_le _)

/-- Settles O58, by the moves of CHU. -/
theorem stepKeepsChannel : Obligations.StepKeepsChannel := by
  intro s t h hstep
  rcases step_chu_move hstep with ⟨-, hreset⟩ | hm
  · rw [hreset]
    exact .of_idle _ (life := .unconfigured)
  · exact hm.keeps_inv h

end Sys2Proof.Machine
end

section
/-! O56, O57 and O59: the invariants of RXU in every step, and that no run stops (10_state.md R50 to R59, 42_receiver.md
R285 to R287, 60_exceptions.md R425 to R427). -/

namespace Sys2Proof.Machine

/-! ### The window (10_state.md R50 to R54) -/

/-- An RXU that is not configured and holds its reset values meets its window invariant. -/
theorem Rxu.WindowInv.of_idle (P : Params) {life : Life} (h : life ≠ .ready) :
    ({ resetRxu with life } : Rxu).WindowInv P :=
  ⟨fun _ => rfl, fun hr => absurd hr h, fun hr => absurd hr h, fun hr => absurd hr h, fun hr => absurd hr h,
    fun hr => absurd hr h, .nil, nofun, rfl, .nil⟩

/-- An RXU in a legal configuration, with the initial window and empty stores, meets its window invariant. -/
theorem configuredRxu_window {P : Params} {cfg : LinkCfg} {r : Rxu} (h : legalLink P cfg) (hrb : r.rb = [])
    (hrc : r.rc = []) : (configuredRxu P cfg r).WindowInv P := by
  obtain ⟨-, -, -, hsn, hhfn⟩ := (cfgLegal_eq_true_iff P cfg).mp h.1
  refine ⟨fun hn => absurd rfl hn, fun _ => h, fun _ => hsn, fun _ => hhfn, fun _ hld => absurd hld Bool.false_ne_true,
    fun _ hld => absurd hld Bool.false_ne_true, ?_, ?_, ?_, ?_⟩
  · rw [configuredRxu_rb, hrb]
    exact .nil
  · rw [configuredRxu_rb, hrb]
    nofun
  · rw [configuredRxu_rb, hrb]
    rfl
  · rw [configuredRxu_rc, hrc]
    exact .nil

/-- The window of a configured RXU does not depend on its counters or its `FAULT`. -/
theorem Rxu.WindowInv.of_same_window {P : Params} {r r' : Rxu} (h : r.WindowInv P) (hr : r.life = .ready)
    (hsame : r' = { r with cntInteg := r'.cntInteg, cntDup := r'.cntDup, fault := r'.fault }) : r'.WindowInv P := by
  rw [hsame]
  exact ⟨fun hn => absurd hr hn, h.legal, h.neBound, h.hfnBound, h.ldBound, h.successor, h.rbForm, h.rbRange,
    h.headEmpty, h.rcForm⟩

/-- What a drain leaves in the reorder buffer stood there before. -/
theorem Drained.mem_of_mem {own : Word} {r : Rxu} {d : Drain} (hd : Drained own r d) (hwf : Memory.wf r.rb)
    {x : Nat × Slot} (hx : x ∈ d.rxu.rb) : x ∈ r.rb := by
  have hfind := (Memory.find_eq_some_iff hd.wf x.1 x.2).mpr hx
  rw [hd.slots] at hfind
  split at hfind
  · cases hfind
  · exact (Memory.find_eq_some_iff hwf x.1 x.2).mp hfind

/-- After a drain the expected number is the successor of the last delivered, if it was before. -/
theorem Drained.successor {own : Word} {r : Rxu} {d : Drain} (hd : Drained own r d)
    (hne : r.neSn.toNat < 2 ^ snWidth r.lcfg)
    (hld : r.ldValid = true →
      r.neSn.toNat = (r.ldSn.toNat + 1) % 2 ^ snWidth r.lcfg ∧ r.ldSn.toNat ≤ maxSn (snWidth r.lcfg))
    (hv : d.rxu.ldValid = true) :
    d.rxu.neSn.toNat = (d.rxu.ldSn.toNat + 1) % 2 ^ snWidth r.lcfg ∧ d.rxu.ldSn.toNat ≤ maxSn (snWidth r.lcfg) := by
  rcases Nat.eq_zero_or_pos d.ndrain with h0 | h0
  · obtain ⟨hsame, hs⟩ := hd.none h0
    rw [hs, hd.next, h0, Nat.add_zero, Nat.mod_eq_of_lt hne]
    exact hld (hsame ▸ hv)
  · rw [(hd.some h0).2, hd.next, Nat.mod_add_mod, le_maxSn_iff]
    refine ⟨?_, Nat.mod_lt _ (Nat.two_pow_pos _)⟩
    congr 1
    omega

/-- What the drain is given: the receiver with the count in the replay cache and the slot written. -/
def Rxu.stored (r : Rxu) (p : Pdu) (body : List Byte) : Rxu :=
  { r with
    rc := CountSet.insert r.rc p.count
    rb := Memory.insert r.rb p.sn.toNat { sduId := p.sduId, count := p.count, body } }

section Accepted

variable {P : Params} {r : Rxu} {p : Pdu} {body : List Byte} {d : Drain}

/-- What an acceptance does to a configured RXU in its window invariant: the drain of the stored receiver, to its
end. -/
theorem Rxu.WindowInv.drained (h : r.WindowInv P) (hr : r.life = .ready) (hsn : p.sn.toNat ≤ maxSn (snWidth r.lcfg))
    (hb : bufferAndDrain P p body { r with rc := CountSet.insert r.rc p.count } = .ok d) :
    Drained p.sn (r.stored p body) d ∧ Memory.find d.rxu.rb d.rxu.neSn.toNat = none := by
  have hdrain := bufferAndDrain_eq_ok hb hsn
  refine ⟨drain_spec ((le_maxSn_iff _ _).mp (h.neBound hr)) (Memory.insert_wf h.rbForm _ _) (fun hld => ?_) hdrain,
    drain_ends _ _ _ hdrain (Nat.lt_succ_self _)⟩
  exact ⟨h.successor hr hld, h.ldBound hr hld⟩

/-- An acceptance keeps the window invariant. -/
theorem Rxu.WindowInv.accepted (h : r.WindowInv P) (hr : r.life = .ready) (hsn : p.sn.toNat ≤ maxSn (snWidth r.lcfg))
    (hb : bufferAndDrain P p body { r with rc := CountSet.insert r.rc p.count } = .ok d) : d.rxu.WindowInv P := by
  obtain ⟨hd, hend⟩ := h.drained hr hsn hb
  obtain ⟨hlife, hlcfg, -, -, hrc, -⟩ := bufferAndDrain_grown hb hsn
  have hS : snWidth d.rxu.lcfg = snWidth (r.stored p body).lcfg := congrArg snWidth hlcfg
  have hsucc := hd.successor ((le_maxSn_iff _ _).mp (h.neBound hr)) fun hld => ⟨h.successor hr hld, h.ldBound hr hld⟩
  refine ⟨fun hn => absurd (hlife.trans hr) hn, fun _ => hlcfg ▸ h.legal hr, fun _ => ?_, fun _ => ?_,
    fun _ hld => hS ▸ (hsucc hld).2, fun _ hld => hS ▸ (hsucc hld).1, hd.wf, fun x hx => ?_, hend, ?_⟩
  · rw [hS, le_maxSn_iff, hd.next]
    exact Nat.mod_lt _ (Nat.two_pow_pos _)
  · rw [hS, hd.estimate]
    split
    · exact Nat.mod_lt _ (hfnMod_pos _)
    · exact h.hfnBound hr
  · rw [hS]
    rcases Memory.mem_insert (hd.mem_of_mem (Memory.insert_wf h.rbForm _ _) hx) with rfl | hmem
    · exact hsn
    · exact h.rbRange x hmem
  · rw [hrc]
    exact CountSet.insert_wf h.rcForm _

end Accepted

/-- Every move of RXU keeps its window invariant. -/
theorem Rxu.Move.keeps_window {P : Params} {r r' : Rxu} (hm : r.Move P r') (h : r.WindowInv P) : r'.WindowInv P := by
  cases hm with
  | stay => exact h
  | configured cfg hl hlegal =>
    rw [h.idle (by simp [hl])]
    exact configuredRxu_window hlegal rfl rfl
  | failed hl =>
    rw [h.idle (by simp [hl])]
    exact .of_idle P (by decide)
  | faulted hr => exact h.of_same_window hr rfl
  | discarded reason hr => exact h.of_same_window hr (by cases reason <;> rfl)
  | accepted p body d hr hsn _ _ _ hb => exact h.accepted hr hsn hb

/-- Settles O56, by the moves of RXU. -/
theorem stepKeepsReceiverWindow : Obligations.StepKeepsReceiverWindow := by
  intro s t h hstep
  rcases step_rxu_move hstep with ⟨-, hreset⟩ | hm
  · rw [hreset]
    exact .of_idle _ (life := .unconfigured) (by decide)
  · exact hm.keeps_window h

/-! ### The accounts (10_state.md R54 to R59, 20_memory.md R118) -/

/-- An RXU with empty stores and counters meets its accounts. -/
theorem Rxu.LedgerInv.of_empty {P : Params} {r : Rxu} (hrb : r.rb = []) (hrc : r.rc = []) (hdl : r.dl = [])
    (hsuccess : r.cntSuccess = 0) (hold : r.cntOld = 0) : r.LedgerInv P := by
  refine ⟨?_, ?_, ?_, ?_, ?_, ?_, ?_, hold, ?_, ?_⟩ <;> simp [hrb, hrc, hdl, hsuccess]

/-- The accounts do not depend on `LIFE`, on the counters of the discards, or on `FAULT`. -/
theorem Rxu.LedgerInv.of_same_stores {P : Params} {r r' : Rxu} (h : r.LedgerInv P)
    (hsame : r' = { r with life := r'.life, cntInteg := r'.cntInteg, cntDup := r'.cntDup, fault := r'.fault }) :
    r'.LedgerInv P := by
  rw [hsame]
  exact ⟨h.bufferedSeen, h.deliveredSeen, h.onceOnly, h.slotCount, h.inSequence, h.lastDelivered, h.success, h.noOld,
    h.rcRoom, h.dlRoom⟩

/-- In canonical form, slots whose counts end in their indexes hold different counts. -/
theorem Memory.nodup_counts {m : Memory} {n : Nat} (hm : Memory.wf m) (h : ∀ x ∈ m, x.2.count.toNat % n = x.1) :
    (m.map fun x => x.2.count).Nodup := by
  refine List.pairwise_map.mpr (hm.imp_of_mem fun {x y} hx hy hlt heq => ?_)
  have hxy : x.1 = y.1 := by rw [← h x hx, ← h y hy, heq]
  omega

/-- No count is buffered or delivered twice: said of the delivered ones, the buffered ones, and both. -/
theorem onceOnly_iff {dl : List DlEntry} {rb : Memory} :
    (dl.map DlEntry.count ++ rb.map fun x => x.2.count).Nodup ↔
      (dl.map DlEntry.count).Nodup ∧ (rb.map fun x => x.2.count).Nodup ∧ ∀ e ∈ dl, ∀ x ∈ rb, e.count ≠ x.2.count := by
  simp only [List.nodup_append', List.disjoint_left, List.mem_map, not_exists, not_and, forall_exists_index, and_imp,
    forall_apply_eq_imp_iff₂]
  grind

/-- Storing a new count keeps the accounts. -/
theorem Rxu.LedgerInv.stored {P : Params} {r : Rxu} {p : Pdu} (h : r.LedgerInv P) (hwf : Memory.wf r.rb)
    (hnew : p.count ∉ r.rc) (hroom : atCapacity P.replayCap r.rc.length = false)
    (hcount : p.count.toNat % 2 ^ snWidth r.lcfg = p.sn.toNat) (body : List Byte) :
    (r.stored p body).LedgerInv P := by
  have hslots : ∀ x ∈ (r.stored p body).rb, x.2.count.toNat % 2 ^ snWidth r.lcfg = x.1 := fun x hx => by
    rcases Memory.mem_insert hx with rfl | hx
    · exact hcount
    · exact h.slotCount x hx
  obtain ⟨hdl, -, hdisj⟩ := onceOnly_iff.mp h.onceOnly
  refine ⟨fun x hx => CountSet.mem_insert.mpr ?_, fun e he => CountSet.mem_insert.mpr (.inr (h.deliveredSeen e he)),
    onceOnly_iff.mpr ⟨hdl, Memory.nodup_counts (Memory.insert_wf hwf _ _) hslots, fun e he x hx heq => ?_⟩, hslots,
    h.inSequence, h.lastDelivered, h.success, h.noOld, ?_, h.dlRoom⟩
  · rcases Memory.mem_insert hx with rfl | hx
    · exact .inl rfl
    · exact .inr (h.bufferedSeen x hx)
  · rcases Memory.mem_insert hx with rfl | hx
    · exact hnew ((show e.count = p.count from heq) ▸ h.deliveredSeen e he)
    · exact hdisj e he x hx heq
  · rw [← (atCapacity_eq_false_iff _ _).mp hroom, ← CountSet.length_insert hnew]
    rfl

/-- A delivery keeps the accounts. -/
theorem Rxu.LedgerInv.deliver {P : Params} {r : Rxu} {e : Slot} (h : r.LedgerInv P) (hwf : Memory.wf r.rb)
    (hsucc : r.ldValid = true → r.neSn.toNat = (r.ldSn.toNat + 1) % 2 ^ snWidth r.lcfg)
    (he : Memory.find r.rb r.neSn.toNat = some e) (hroom : atCapacity P.dlCap r.dl.length = false) :
    (deliverSlot e (Memory.remove r.rb r.neSn.toNat) r).LedgerInv P := by
  have hmem : (r.neSn.toNat, e) ∈ r.rb := (Memory.find_eq_some_iff hwf _ _).mp he
  have hrest : ∀ x ∈ Memory.remove r.rb r.neSn.toNat, x ∈ r.rb ∧ x.1 ≠ r.neSn.toNat :=
    fun x hx => (Memory.mem_remove_iff hwf).mp hx
  have hcount : e.count.toNat % 2 ^ snWidth r.lcfg = r.neSn.toNat := h.slotCount _ hmem
  obtain ⟨hdl, -, hdisj⟩ := onceOnly_iff.mp h.onceOnly
  have hslots : ∀ x ∈ Memory.remove r.rb r.neSn.toNat, x.2.count.toNat % 2 ^ snWidth r.lcfg = x.1 :=
    fun x hx => h.slotCount x (hrest x hx).1
  refine ⟨fun x hx => h.bufferedSeen x (hrest x hx).1, fun a ha => ?_, onceOnly_iff.mpr ⟨?_,
    Memory.nodup_counts (Memory.remove_wf hwf _) hslots, fun a ha x hx => ?_⟩, hslots, ?_, fun a ha => ?_, ?_, h.noOld,
    h.rcRoom, ?_⟩
  · rcases List.mem_append.mp ha with ha | ha
    · exact h.deliveredSeen a ha
    · rw [List.mem_singleton.mp ha]
      exact h.bufferedSeen _ hmem
  · rw [deliverSlot_dl, List.map_append, List.nodup_append']
    refine ⟨hdl, List.nodup_singleton _, List.disjoint_singleton.mpr fun hin => ?_⟩
    obtain ⟨a, ha, heq⟩ := List.mem_map.mp hin
    exact hdisj a ha _ hmem heq
  · rcases List.mem_append.mp ha with ha | ha
    · exact hdisj a ha x (hrest x hx).1
    · rw [List.mem_singleton.mp ha]
      intro heq
      have hxe : x.2.count = e.count := heq.symm
      exact (hrest x hx).2 (by rw [← hslots x hx, hxe, hcount])
  · rw [deliverSlot_dl, List.isChain_append]
    refine ⟨h.inSequence, List.isChain_singleton _, fun a ha b hb => ?_⟩
    obtain ⟨hv, hlast⟩ := h.lastDelivered a ha
    obtain rfl := Option.some.inj hb
    have hnext : r.neSn.toNat = (a.count.toNat + 1) % 2 ^ snWidth r.lcfg := by rw [hsucc hv, ← hlast, Nat.mod_add_mod]
    exact hcount.trans hnext
  · rw [deliverSlot_dl, List.getLast?_concat] at ha
    obtain rfl := Option.some.inj ha
    exact ⟨rfl, hcount⟩
  · rw [deliverSlot_cntSuccess, bump, h.success, deliverSlot_dl, List.length_append, List.length_singleton]
    exact BitVec.eq_of_toNat_eq (by simp)
  · rw [deliverSlot_dl, List.length_append]
    exact (atCapacity_eq_false_iff _ _).mp hroom

/-- A drain keeps the accounts. -/
theorem drain_keeps_ledger {P : Params} {own : Word} {fuel : Nat} {d d' : Drain}
    (hdrain : drain P own fuel d = .ok d') (h : d.rxu.LedgerInv P) (hwf : Memory.wf d.rxu.rb)
    (hsucc : d.rxu.ldValid = true → d.rxu.neSn.toNat = (d.rxu.ldSn.toNat + 1) % 2 ^ snWidth d.rxu.lcfg) :
    d'.rxu.LedgerInv P := by
  refine (drain_induction (M := fun d => d.rxu.LedgerInv P ∧ Memory.wf d.rxu.rb ∧
    (d.rxu.ldValid = true → d.rxu.neSn.toNat = (d.rxu.ldSn.toNat + 1) % 2 ^ snWidth d.rxu.lcfg))
    (fun d e hM _ he hroom => ?_) fuel d d' hdrain ⟨h, hwf, hsucc⟩).1
  obtain ⟨h, hwf, hsucc⟩ := hM
  exact ⟨h.deliver hwf hsucc he hroom, Memory.remove_wf hwf _, fun _ => deliverSlot_neSn_toNat _ _ _⟩

/-- Every move of RXU keeps its accounts, if it meets its window invariant. -/
theorem Rxu.Move.keeps_ledger {P : Params} {r r' : Rxu} (hm : r.Move P r') (hw : r.WindowInv P) (h : r.LedgerInv P) :
    r'.LedgerInv P := by
  cases hm with
  | stay => exact h
  | configured cfg hl _ =>
    rw [hw.idle (by simp [hl])]
    exact .of_empty rfl rfl rfl rfl rfl
  | failed hl => exact h.of_same_stores rfl
  | faulted hr => exact h.of_same_stores rfl
  | discarded reason hr => exact h.of_same_stores (by cases reason <;> rfl)
  | accepted p body d hr hsn hcount hnew hroom hb =>
    have hmod : p.count.toNat % 2 ^ snWidth r.lcfg = p.sn.toNat := hcount ▸ reconstruct_mod (hw.hfnBound hr) hsn
    exact drain_keeps_ledger (bufferAndDrain_eq_ok hb hsn) (h.stored hw.rbForm hnew hroom hmod body)
      (Memory.insert_wf hw.rbForm _ _) (hw.successor hr)

/-- Settles O57, by the moves of RXU. -/
theorem stepKeepsReceiverLedger : Obligations.StepKeepsReceiverLedger := by
  intro s t hw h hstep
  rcases step_rxu_move hstep with ⟨-, hreset⟩ | hm
  · rw [hreset]
    exact .of_empty rfl rfl rfl rfl rfl
  · exact hm.keeps_ledger hw h

/-! ### Safety (60_exceptions.md R425 to R427) -/

/-- Settles O54: after reset no unit is configured, and each holds its reset values. -/
theorem resetMeetsInvariant : Obligations.ResetMeetsInvariant :=
  ⟨.of_idle _ (life := .unconfigured) (by decide), .of_idle _ (life := .unconfigured) (by decide),
    .of_empty rfl rfl rfl rfl rfl, .of_idle _ (life := .unconfigured)⟩

/-- Steps 6 and 7 reach no slot that does not exist, where the PDU's number and the expected one are in range. -/
theorem bufferAndDrain_no_fault {P : Params} {p : Pdu} {body : List Byte} {r : Rxu}
    (hne : r.neSn.toNat ≤ maxSn (snWidth r.lcfg)) (hsn : p.sn.toNat ≤ maxSn (snWidth r.lcfg)) (f : Fault) :
    bufferAndDrain P p body r ≠ .error (.fault f) := by
  rw [bufferAndDrain_eq hsn]
  split
  · nofun
  · exact drain_no_fault _ _ hne f

/-- A configured RXU in its window invariant reads and writes no slot that does not exist. -/
theorem receive_no_fault {P : Params} {r : Rxu} {p : Pdu} (h : r.WindowInv P) (hr : r.life = .ready)
    (hok : receiveOperandOk P r p = true) (f : Fault) : receive P r p ≠ .stop (.fault f) := by
  rw [receiveOperandOk, Bool.and_eq_true, decide_eq_true_eq] at hok
  obtain ⟨-, hsn⟩ := hok
  intro hf
  rcases receive_cases P r p with ⟨-, hd⟩ | ⟨-, ⟨-, hd⟩ | ⟨data, -, ⟨reason, -, hd⟩ | ⟨body, v, -, ha⟩⟩⟩
  case inr.inr.inr =>
    rcases acceptPdu_cases P r { p with count := reconstruct r p.sn, verified := v } body with
      ⟨-, hd⟩ | ⟨-, -, hd⟩ | ⟨-, -, ⟨why, hb, hd⟩ | ⟨d, -, hd⟩⟩
    case inr.inr.inl =>
      rw [hf, hd] at ha
      cases ha
      exact bufferAndDrain_no_fault (by exact h.neBound hr) (by exact hsn) f hb
    all_goals
      rw [hf, hd] at ha
      cases ha
  all_goals
    rw [hf] at hd
    cases hd

/-- Every command of a state in which RXU meets its window invariant answers a next state. -/
theorem execAt_next {P : Params} {s : State} (h : s.rxu.WindowInv P) (i : Instr) : ∃ t, execAt P i s = .next t := by
  rw [execAt_eq_runCommand, runCommand]
  cases hp : prologue i.op (operandsOkAt P i s) s with
  | some code => exact ⟨_, rfl⟩
  | none =>
    cases i with
    | txConfig cfg | rxConfig cfg | chConfig cfg =>
      simp only [bodyAt]
      split <;> exact ⟨_, rfl⟩
    | chTransmit ps =>
      simp only [bodyAt]
      split <;> exact ⟨_, rfl⟩
    | txSend sduId payload => exact ⟨_, rfl⟩
    | rxStats | rxDelivered | chFlush => exact ⟨_, rfl⟩
    | rxReceive p =>
      obtain ⟨ha, hok⟩ := accepts_of_prologue hp rfl
      simp only [bodyAt]
      split
      case h_4 f hf => exact absurd hf (receive_no_fault h ha.1 hok f)
      all_goals exact ⟨_, rfl⟩

/-- A step from a state that meets the invariants answers a next state. -/
theorem State.Inv.step_next {s : State} (h : s.Inv) : ∃ t, step s = .next t := by
  unfold step
  split
  · exact ⟨_, rfl⟩
  · exact ⟨_, rfl⟩
  · next u f s' hfetch =>
    have hrxu : s'.rxu = s.rxu := by
      unfold fetch at hfetch
      split at hfetch
      · cases hfetch
      · cases hfetch
        rfl
    unfold runFrame
    split
    · next i _ =>
      rw [← execAt_params]
      exact execAt_next (hrxu ▸ h.window) i
    · exact ⟨_, rfl⟩
    · exact ⟨_, rfl⟩

/-- Every step keeps the invariants. -/
theorem State.Inv.step_keeps {s t : State} (h : s.Inv) (hstep : step s = .next t) : t.Inv :=
  ⟨stepKeepsTransmitter s t h.txu hstep, stepKeepsReceiverWindow s t h.window hstep,
    stepKeepsReceiverLedger s t h.window h.ledger hstep, stepKeepsChannel s t h.chu hstep⟩

/-- A run whose first step answers a next state is the run from there. -/
theorem run_succ_of_step {M : Host.Core} {s t : M.State} (n : Nat) (h : M.step s = .next t) :
    M.run (n + 1) s = M.run n t := by
  simp only [Host.Core.run, h]

/-- Settles O59, by induction on the number of steps: each answers a next state, which meets the invariants. -/
theorem noRunStops : Obligations.NoRunStops := by
  intro s h n
  induction n generalizing s with
  | zero => exact ⟨s, rfl⟩
  | succ n ih =>
    obtain ⟨t, ht⟩ := h.step_next
    obtain ⟨t', ht'⟩ := ih t (h.step_keeps ht)
    exact ⟨t', (run_succ_of_step (M := Sys2Proof.core) n ht).trans ht'⟩

end Sys2Proof.Machine
end

section
/-! O49: with unbounded stores no command raises the capacity fault (60_exceptions.md R412, 00_scope.md R8). -/

namespace Sys2Proof.Machine

section Unbounded

variable {P : Params}

/-- An unbounded store is never at capacity. -/
theorem atCapacity_unbounded {cap : Option Nat} (h : cap = none) (n : Nat) : atCapacity cap n = false := by
  rw [h, atCapacity]

/-- A drain into an unbounded delivered list meets no capacity. -/
theorem drain_ne_capacity (hdl : P.dlCap = none) {own : Word} {fuel : Nat} {d : Drain} :
    drain P own fuel d ≠ .error .capacity := by
  intro h
  obtain ⟨d', e, -, -, hcap⟩ := drain_capacity (M := fun _ => True) (fun _ _ _ _ => trivial) fuel d h trivial
  rw [atCapacity_unbounded hdl] at hcap
  cases hcap

/-- RX.RECEIVE meets no capacity where the replay cache and the delivered list are unbounded and slots may be
overwritten. -/
theorem receive_ne_capacity (hrc : P.replayCap = none) (hdl : P.dlCap = none) (hcol : P.collision = .overwrite)
    {r : Rxu} {p : Pdu} (hsn : p.sn.toNat ≤ maxSn (snWidth r.lcfg)) : receive P r p ≠ .stop .capacity := by
  intro h
  rcases receive_cases P r p with ⟨-, hd⟩ | ⟨-, ⟨-, hd⟩ | ⟨data, -, ⟨reason, -, hd⟩ | ⟨body, v, -, ha⟩⟩⟩
  case inr.inr.inr =>
    rcases acceptPdu_cases P r { p with count := reconstruct r p.sn, verified := v } body with
      ⟨-, hd⟩ | ⟨-, hcap, -⟩ | ⟨-, -, ⟨why, hb, hd⟩ | ⟨d, -, hd⟩⟩
    case inr.inl =>
      rw [atCapacity_unbounded hrc] at hcap
      cases hcap
    case inr.inr.inl =>
      rw [h, hd] at ha
      cases ha
      rw [bufferAndDrain_eq (by exact hsn), if_neg (by simp [hcol])] at hb
      exact drain_ne_capacity hdl hb
    all_goals
      rw [h, hd] at ha
      cases ha
  all_goals
    rw [h] at hd
    cases hd

/-- CH.TRANSMIT meets no capacity where the delay buffer is unbounded. -/
theorem transmitAll_no_overflow (hdb : P.dbCap = none) (c : Chu) (ix : Nat) (ps : List Pdu) :
    (transmitAll P c ix ps).overflow = false := by
  rw [transmitAll_overflow (by rw [hdb]; rfl), hdb]
  rfl

/-- What a body leaves of `FAULT` and answers where no store is bounded: `FAULT` as it was, and no capacity fault. -/
theorem bodyAt_unbounded {i : Instr} {s t : State} (hrc : P.replayCap = none) (hdl : P.dlCap = none)
    (hdb : P.dbCap = none) (hcol : P.collision = .overwrite) (hok : operandsOkAt P i s = true)
    (h : bodyAt P i s = .next t) :
    t.rxu.fault = s.rxu.fault ∧ t.chu.fault = s.chu.fault ∧ ∃ (code : Result) (record : List Word),
      code ≠ .capacityFault ∧
      t.outbox = s.outbox ++ [{ port := i.op.unit, words := responseWord i.op.word code :: record }] := by
  cases i with
  | txConfig cfg | rxConfig cfg | chConfig cfg =>
    simp only [bodyAt] at h
    split at h <;> cases h
    · exact ⟨rfl, rfl, .ok, [], by decide, rfl⟩
    · exact ⟨rfl, rfl, .configError, [], by decide, rfl⟩
  | txSend _ _ | rxStats | rxDelivered | chFlush =>
    cases h
    exact ⟨rfl, rfl, .ok, _, by decide, rfl⟩
  | chTransmit ps =>
    simp only [bodyAt, transmitAll_no_overflow hdb, Bool.false_eq_true, if_false] at h
    cases h
    exact ⟨rfl, rfl, .ok, _, by decide, rfl⟩
  | rxReceive p =>
    obtain ⟨-, hsn⟩ := Bool.and_eq_true_iff.mp hok
    rw [decide_eq_true_eq] at hsn
    simp only [bodyAt] at h
    split at h
    · next r q hr =>
      cases h
      obtain ⟨reason, rfl⟩ := receive_eq_discard hr
      exact ⟨countDiscard_fault _ reason, rfl, .ok, _, by decide, rfl⟩
    · next r q n hr =>
      cases h
      obtain ⟨v, body, d, -, -, hb, rfl⟩ := receive_eq_accept hr
      exact ⟨(bufferAndDrain_grown hb hsn).fault, rfl, .ok, _, by decide, rfl⟩
    · next hr => exact absurd hr (receive_ne_capacity hrc hdl hcol hsn)
    · cases h

end Unbounded

/-- The prologue answers a capacity fault only where `FAULT` is set. -/
theorem prologue_ne_capacityFault {op : Op} {ok : Bool} {s : State} (h : s.faultOf op.unit = false) :
    prologue op ok s ≠ some .capacityFault := by
  unfold prologue
  split_ifs <;> simp_all

/-- Settles O49: a command is turned away, for a `FAULT` that was set before if for any, or its body meets no
capacity. -/
theorem unboundedStoresNeverFault : Obligations.UnboundedStoresNeverFault := by
  intro P i s t hrc hdl hdb hcol h
  have hother : ∀ (code : Result) (record : List Word), code ≠ .capacityFault →
      t.outbox = s.outbox ++ [{ port := i.op.unit, words := responseWord i.op.word code :: record }] →
      t.outbox ≠ s.outbox ++ [{ port := i.op.unit, words := [responseWord i.op.word .capacityFault] }] := by
    intro code record hc ho heq
    simp only [ho, List.append_cancel_left_eq, List.cons.injEq, Response.mk.injEq, true_and, and_true] at heq
    exact hc (responseWord_inj heq.1)
  refine ⟨fun hP => by rw [← execAt_params, ← hP, h], ?_⟩
  rcases execAt_cases h with ⟨code, hp, rfl⟩ | ⟨hp, hb⟩
  · refine ⟨fun u => (raiseCmdError_sameUnit i.op code s u).lifeOf_faultOf.2, fun hf => hother code [] ?_ rfl⟩
    rintro rfl
    exact prologue_ne_capacityFault hf hp
  · obtain ⟨-, -, -, -, hok⟩ := (prologue_eq_none_iff _ _ _).mp hp
    obtain ⟨hrx, hch, code, record, hc, ho⟩ := bodyAt_unbounded hrc hdl hdb hcol hok hb
    refine ⟨fun u => ?_, fun _ => hother code record hc ho⟩
    cases u with
    | txu => rfl
    | rxu => exact hrx
    | chu => exact hch

end Sys2Proof.Machine
end

section
/-! O19: the cipher is its own inverse (40_crypto.md R202). -/

namespace Sys2Proof.Machine

/-- XOR with a string that is at least as long, twice, gives the string back. -/
theorem xorBytes_xorBytes {x k : List Byte} (h : x.length ≤ k.length) : xorBytes (xorBytes x k) k = x := by
  induction x generalizing k with
  | nil => rfl
  | cons a x ih =>
    cases k with
    | nil => cases h
    | cons b k =>
      have htail : xorBytes (xorBytes x k) k = x := ih (Nat.le_of_succ_le_succ h)
      have hhead : a ^^^ b ^^^ b = a := by rw [BitVec.xor_assoc, BitVec.xor_self, BitVec.xor_zero]
      exact congrArg₂ List.cons hhead htail

/-- Ciphering twice gives the string back: both times the keystream is that of the same length. -/
theorem cipher_cipher (P : Params) (keyPresent : Bool) (key : List Byte) (count : Word) (bearer : BitVec 5)
    (dir : BitVec 1) (x : List Byte) :
    cipher P keyPresent key count bearer dir (cipher P keyPresent key count bearer dir x) = x := by
  cases keyPresent with
  | false => rfl
  | true =>
    have hlen := cipher_length P true key count bearer dir x
    rw [cipher, if_pos rfl, hlen, cipher, if_pos rfl, xorBytes_xorBytes (keystream_length ..).ge]

/-- Settles O19. -/
theorem cipherInvolution : Obligations.CipherInvolution :=
  fun P keyPresent key count bearer dir x =>
    ⟨cipher_cipher P keyPresent key count bearer dir x, cipher_length P keyPresent key count bearer dir x⟩

end Sys2Proof.Machine
end

section
/-! O17: the counts of successive sends (41_transmitter.md R245). -/

namespace Sys2Proof.Machine

/-- The count of a configured TXU gives back its sequence number and its hyper-frame number. -/
theorem txCount_mod_div {P : Params} {t : Txu} (h : t.Inv P) (hr : t.life = .ready) :
    t.sn.toNat = (txCount t).toNat % 2 ^ snWidth t.lcfg ∧ t.hfn.toNat = (txCount t).toNat / 2 ^ snWidth t.lcfg := by
  have hsn := (le_maxSn_iff _ _).mp (h.snBound hr)
  rw [txCount_toNat h hr, Nat.mul_comm]
  exact ⟨by rw [Nat.mul_add_mod, Nat.mod_eq_of_lt hsn],
    by rw [Nat.mul_add_div (Nat.two_pow_pos _), Nat.div_eq_of_lt hsn, Nat.add_zero]⟩

/-- The count after a send is the next one, modulo `2^32`. -/
theorem txCount_advanceCounter {P : Params} {t : Txu} (h : t.Inv P) (hr : t.life = .ready) :
    (txCount (advanceCounter t)).toNat = ((txCount t).toNat + 1) % 2 ^ 32 := by
  obtain ⟨hsn, hhfn⟩ := advanceCounter_toNat h hr
  have hlt := (txCount t).isLt
  rw [txCount_toNat (advanceCounter_inv h hr) (by rw [advanceCounter_life, hr]), hsn, hhfn, advanceCounter_lcfg]
  rw [txCount_toNat h hr] at hlt ⊢
  have hmax := maxSn_add_one (snWidth t.lcfg)
  by_cases hlast : t.sn.toNat = maxSn (snWidth t.lcfg)
  · rw [if_pos hlast, if_pos hlast, ← hfnMod_mul t.lcfg, hlast, Nat.add_assoc, hmax, Nat.add_zero, ← Nat.succ_mul,
      Nat.mul_mod_mul_right]
  · have hfirst := hfnMod_mul t.lcfg
    have hbound := h.snBound hr
    have hrow : (t.hfn.toNat + 1) * 2 ^ snWidth t.lcfg ≤ hfnMod (snWidth t.lcfg) * 2 ^ snWidth t.lcfg :=
      Nat.mul_le_mul_right _ (h.hfnBound hr)
    rw [Nat.succ_mul, hfirst] at hrow
    rw [if_neg hlast, if_neg hlast, Nat.add_assoc, Nat.mod_eq_of_lt (by omega)]

/-- A configured TXU that meets its invariant does so, in the same configuration, after any number of sends; its count
has moved by as many. -/
theorem txCount_iterate_advanceCounter {P : Params} {t : Txu} (h : t.Inv P) (hr : t.life = .ready) (k : Nat) :
    (advanceCounter^[k] t).Inv P ∧ (advanceCounter^[k] t).life = .ready ∧ (advanceCounter^[k] t).lcfg = t.lcfg ∧
      (txCount (advanceCounter^[k] t)).toNat = ((txCount t).toNat + k) % 2 ^ 32 := by
  induction k with
  | zero => exact ⟨h, hr, rfl, (Nat.mod_eq_of_lt (txCount t).isLt).symm⟩
  | succ k ih =>
    obtain ⟨hinv, hready, hlcfg, hcount⟩ := ih
    rw [Function.iterate_succ_apply']
    exact ⟨advanceCounter_inv hinv hready, by rw [advanceCounter_life, hready], by rw [advanceCounter_lcfg, hlcfg],
      by rw [txCount_advanceCounter hinv hready, hcount, Nat.mod_add_mod, Nat.add_assoc]⟩

/-- What the operand check of TX.SEND reads of TXU: whether integrity is enabled. -/
theorem sendOperandOk_advanceCounter (P : Params) (t : Txu) (payload : List Byte) :
    sendOperandOk P (advanceCounter t) payload = sendOperandOk P t payload := by
  rw [sendOperandOk, sendOperandOk, advanceCounter_lcfg]

/-- The answers to a list of sends, from a TXU on. -/
def sendAnswers (P : Params) : Txu → List (Word × List Byte) → List Response
  | _, [] => []
  | t, x :: xs =>
    { port := .txu, words := 0x11000000 :: pduRecord P (txPdu P t x.1 x.2) } :: sendAnswers P (advanceCounter t) xs

/-- Each send is answered. -/
theorem length_sendAnswers (P : Params) (t : Txu) (sends : List (Word × List Byte)) :
    (sendAnswers P t sends).length = sends.length := by
  induction sends generalizing t with
  | nil => rfl
  | cons x xs ih => rw [sendAnswers, List.length_cons, List.length_cons, ih]

/-- The answer to each send is the PDU that TXU builds after the sends before it. -/
theorem getElem?_sendAnswers (P : Params) (t : Txu) (sends : List (Word × List Byte)) {k : Nat}
    (hk : k < sends.length) :
    ∃ (sduId : Word) (payload : List Byte), (sendAnswers P t sends)[k]? = some
      { port := .txu, words := 0x11000000 :: pduRecord P (txPdu P (advanceCounter^[k] t) sduId payload) } := by
  induction sends generalizing t k with
  | nil => cases hk
  | cons x xs ih =>
    cases k with
    | zero => exact ⟨x.1, x.2, rfl⟩
    | succ k => exact ih (advanceCounter t) (Nat.lt_of_succ_lt_succ hk)

/-- Sends with legal operands on a configured TXU are all answered, in order. -/
theorem execAll_sends {s : State} {sends : List (Word × List Byte)} (hr : s.txu.life = .ready)
    (hok : ∀ x ∈ sends, sendOperandOk Config.params s.txu x.2 = true) :
    ∃ t : State, execAll (sends.map fun x => .txSend x.1 x.2) s = .next t ∧
      t.outbox = s.outbox ++ sendAnswers Config.params s.txu sends := by
  induction sends generalizing s with
  | nil => exact ⟨s, rfl, (List.append_nil _).symm⟩
  | cons x xs ih =>
    obtain ⟨hx, hxs⟩ := List.forall_mem_cons.mp hok
    have hsend : exec (.txSend x.1 x.2) s = .next _ := txSend_ready hr hx
    obtain ⟨t, ht, hout⟩ := ih
      (s := respondOk .txSend (pduRecord Config.params (txPdu Config.params s.txu x.1 x.2))
        { s with txu := advanceCounter s.txu })
      ((advanceCounter_life s.txu).trans hr) fun y hy => (sendOperandOk_advanceCounter _ _ _).trans (hxs y hy)
    refine ⟨t, ?_, ?_⟩
    · rw [List.map_cons, execAll, hsend]
      exact ht
    · rw [hout, respondOk_outbox, List.append_assoc]
      rfl

/-- Settles O17, by induction over the sends: each answers its count and moves the counter on by one. -/
theorem countSequence : Obligations.CountSequence := by
  intro s sends hr hinv hok
  obtain ⟨t, ht, hout⟩ := execAll_sends hr hok
  refine ⟨t, ht, by rw [hout, List.length_append, length_sendAnswers], fun k hk => ?_⟩
  obtain ⟨sduId, payload, hanswer⟩ := getElem?_sendAnswers Config.params s.txu sends hk
  obtain ⟨hinv', hr', hlcfg, hcount⟩ := txCount_iterate_advanceCounter hinv hr k
  obtain ⟨hsn, hhfn⟩ := txCount_mod_div hinv' hr'
  rw [hlcfg] at hsn hhfn
  refine ⟨0x11000000 :: pduRecord Config.params (txPdu Config.params (advanceCounter^[k] s.txu) sduId payload), ?_,
    _, _, _, rfl, rfl, rfl, ?_, hsn, hhfn⟩
  · rw [hout, List.getElem?_append_right (Nat.le_add_right _ _), Nat.add_sub_cancel_left, hanswer]
  · exact hcount.trans (by rw [txCount_toNat hinv hr]; rfl)

end Sys2Proof.Machine
end

section
/-! O21: counter reconstruction, in integers (42_receiver.md R282). -/

namespace Sys2Proof.Machine

/-- From width 1 on half of the sequence numbers is the window size, and the wrap threshold as well (00_scope.md R9). -/
theorem windowSize_facts {S : Nat} (hS : 1 ≤ S) :
    2 ^ S = 2 * windowSize S ∧ wrapThreshold S = windowSize S ∧ 0 < windowSize S := by
  have hpow : 2 ^ S = 2 * windowSize S := by rw [windowSize, mul_comm, ← pow_succ, Nat.sub_add_cancel hS]
  have hpos : 0 < windowSize S := Nat.two_pow_pos _
  refine ⟨hpow, ?_, hpos⟩
  rw [wrapThreshold, maxSn]
  omega

/-- The rule as the spec writes it, in integers, of the estimate `h`, the reference `ref` and the number `n`. -/
def estimateRule (S : Nat) (ref h n : Int) : Int :=
  let W : Int := 2 ^ (S - 1)
  let T : Int := (2 ^ S - 1) - W + 1
  if |n - ref| < W then h
  else if n < ref ∧ ref - n > T then (h + 1) % 2 ^ (32 - S)
  else if n > ref ∧ n - ref > T then max (h - 1) 0
  else h

/-- The thresholds of the rule, in integers, are those of the model. -/
theorem wrapThreshold_cast {S : Nat} (hS : 1 ≤ S) :
    ((2 ^ S - 1 : Int) - 2 ^ (S - 1) + 1 : Int) = wrapThreshold S := by
  obtain ⟨hpow, hT, hpos⟩ := windowSize_facts hS
  have hpow' : (2 ^ S : Int) = 2 * (windowSize S : Int) := by exact_mod_cast hpow
  have hW : (2 ^ (S - 1) : Int) = (windowSize S : Int) := by rw [windowSize]; norm_cast
  rw [hT, hpow', hW]
  ring

/-- The estimate in natural numbers is that of the rule. -/
theorem estimateHfn_cast {S : Nat} (hS : 1 ≤ S) (ref h n : Nat) :
    (estimateHfn S ref h n : Int) = estimateRule S ref h n := by
  have hW : (2 ^ (S - 1) : Int) = (windowSize S : Int) := by rw [windowSize]; norm_cast
  have hnear : |(n : Int) - ref| < (windowSize S : Int) ↔ ((n : Int) - ref).natAbs < windowSize S := by
    rw [Int.abs_eq_natAbs, Int.ofNat_lt]
  have hwrap : (n : Int) < ref ∧ (ref : Int) - n > (wrapThreshold S : Int) ↔ n < ref ∧ ref - n > wrapThreshold S := by
    omega
  have hback : (n : Int) > ref ∧ (n : Int) - ref > (wrapThreshold S : Int) ↔ n > ref ∧ n - ref > wrapThreshold S := by
    omega
  simp only [estimateRule, estimateHfn, wrapThreshold_cast hS]
  simp only [hW, hnear, hwrap, hback]
  split_ifs
  · rfl
  · rw [hfnMod]
    push_cast
    rfl
  · omega
  · rfl

/-- Settles O21: the count is the estimate of the rule above the number, and with equal thresholds the last case is left
for the one distance between them. -/
theorem reconstructionRule : Obligations.ReconstructionRule := by
  intro P r sn hw hr hsn S ref h W T n eh
  obtain ⟨-, -, hwidth, -, -⟩ := (cfgLegal_eq_true_iff P r.lcfg).mp (hw.legal hr).1
  have hS : 1 ≤ snWidth r.lcfg := hwidth
  have href : (reference r : Int) = ref := apply_ite Nat.cast _ _ _
  constructor
  · rw [reconstruct_toNat (hw.hfnBound hr) hsn]
    push_cast
    rw [estimateHfn_cast hS, href]
    rfl
  · have hpos : 0 < W := pow_pos (by decide) _
    have hWT : W = T := by
      have hT : T = (wrapThreshold (snWidth r.lcfg) : Int) := wrapThreshold_cast hS
      rw [hT, (windowSize_facts hS).2.1, windowSize]
      push_cast
      rfl
    rw [← hWT]
    rcases abs_cases (n - ref) with ⟨habs, -⟩ | ⟨habs, -⟩ <;> rw [habs] <;> omega

end Sys2Proof.Machine
end

section
/-! O24, O25, O26, O27, O28 and O31: what RX.RECEIVE does with a PDU that passes its first steps (42_receiver.md R284 to
R288, 60_exceptions.md R412). -/

namespace Sys2Proof.Machine

/-! ### The keys of a configured receiver (41_transmitter.md R231) -/

/-- A configured receiver has the keys that it needs. -/
theorem Rxu.WindowInv.has_keys {P : Params} {r : Rxu} (h : r.WindowInv P) (hr : r.life = .ready) :
    ¬ (r.lcfg.cen = true ∧ r.lcfg.ckp = false) ∧ ¬ (r.lcfg.ien = true ∧ r.lcfg.ikp = false) := by
  obtain ⟨hikp, hckp, -⟩ := (cfgLegal_eq_true_iff P r.lcfg).mp (h.legal hr).1
  refine ⟨fun ⟨hc, hn⟩ => ?_, fun ⟨hi, hn⟩ => ?_⟩
  · rw [hckp hc] at hn
    cases hn
  · rw [hikp hi] at hn
    cases hn

/-! ### Discards (42_receiver.md R284, R285) -/

/-- Settles O24: step 4 discards, for the reason of its first check that fails. -/
theorem integrityFailureIsDiscarded : Obligations.IntegrityFailureIsDiscarded := by
  intro P s p data reason ha hw hok hc hien hdata hreason t
  refine execAt_and_exec (i := .rxReceive p) ?_
  obtain ⟨hckey, hikey⟩ := hw.has_keys ha.1
  have hcor : ¬ p.corrupted = true := by simp [hc]
  have hdec := decipher_passes (P := P) (count := reconstruct s.rxu p.sn) (payload := p.payload) hckey
  rw [← hdata] at hdec
  rcases hreason with ⟨hshort, rfl⟩ | ⟨hlong, rfl, htag⟩
  · exact rxReceive_of_discard ha hok (receive_of_verify_error hcor hdec (verify_tooShort hikey ⟨hien, hshort⟩))
  · exact rxReceive_of_discard ha hok
      (receive_of_verify_error hcor hdec (verify_failure hikey (fun h => by omega) ⟨hien, htag⟩))

/-- Settles O25: step 5 discards a count that the replay cache holds. -/
theorem duplicateIsDiscarded : Obligations.DuplicateIsDiscarded := by
  intro P s p data body v ha hok hc hdec hver hrc t
  exact execAt_and_exec (i := .rxReceive p)
    (rxReceive_of_discard ha hok (receive_of_duplicate (by simp [hc]) hdec hver hrc))

/-! ### Steps 5 to 7 (42_receiver.md R285 to R287) -/

/-- What a write leaves in each slot. -/
theorem Memory.find_insert (m : Memory) (i k : Nat) (e : Slot) :
    Memory.find (Memory.insert m i e) k = if k = i then some e else Memory.find m k := by
  split
  · next h => rw [h, Memory.find_insert_self]
  · next h => exact Memory.find_insert_of_ne m e h

/-- What steps 1 to 4 have made of a PDU that passes them. -/
def settledPdu (p : Pdu) (count : Word) (v : Verified) : Pdu := { p with count, verified := v }

/-- A PDU that passes steps 1 to 4 goes to steps 5 to 7. -/
theorem receive_of_passes {P : Params} {r : Rxu} {p : Pdu} {data body : List Byte} {v : Verified}
    (hc : p.corrupted = false) (hd : decipher P r.lcfg (reconstruct r p.sn) p.payload = some data)
    (hv : verify P r.lcfg (reconstruct r p.sn) data = .ok (body, v)) :
    receive P r p = acceptPdu P r (settledPdu p (reconstruct r p.sn) v) body := by
  simp [receive, settledPdu, hc, hd, hv]

/-- The causes of a capacity fault of steps 5 to 7: the replay cache is full, or the slot is occupied and may not be
replaced, or the run of valid slots from `NE_SN` is longer than the room in the delivered list. -/
def CapacityCause (P : Params) (r : Rxu) (sn : Nat) : Prop :=
  (∃ cap, P.replayCap = some cap ∧ cap ≤ r.rc.length) ∨
  (P.collision = .fault ∧ Memory.find r.rb sn ≠ none) ∨
  (∃ cap, P.dlCap = some cap ∧ cap - r.dl.length < 2 ^ snWidth r.lcfg ∧
    ∀ j ≤ cap - r.dl.length, (r.neSn.toNat + j) % 2 ^ snWidth r.lcfg = sn ∨
      Memory.find r.rb ((r.neSn.toNat + j) % 2 ^ snWidth r.lcfg) ≠ none)

/-- A store is at capacity exactly where it has one and holds as many. -/
theorem atCapacity_iff (cap : Option Nat) (n : Nat) : atCapacity cap n = true ↔ ∃ c, cap = some c ∧ c ≤ n := by
  cases cap <;> simp [atCapacity]

section StepsFiveToSeven

variable {P : Params} {r : Rxu} {p : Pdu} {body : List Byte}

/-- Steps 6 and 7 from a configured receiver: a capacity fault for the second or the third cause, else they complete. -/
theorem bufferAndDrain_capacity_iff (h : r.WindowInv P) (hr : r.life = .ready)
    (hsn : p.sn.toNat ≤ maxSn (snWidth r.lcfg)) :
    (bufferAndDrain P p body { r with rc := CountSet.insert r.rc p.count } = .error .capacity ↔
      (P.collision = .fault ∧ Memory.find r.rb p.sn.toNat ≠ none) ∨
      (∃ cap, P.dlCap = some cap ∧ cap - r.dl.length < 2 ^ snWidth r.lcfg ∧
        ∀ j ≤ cap - r.dl.length, (r.neSn.toNat + j) % 2 ^ snWidth r.lcfg = p.sn.toNat ∨
          Memory.find r.rb ((r.neSn.toNat + j) % 2 ^ snWidth r.lcfg) ≠ none)) ∧
    (bufferAndDrain P p body { r with rc := CountSet.insert r.rc p.count } ≠ .error .capacity →
      ∃ d, bufferAndDrain P p body { r with rc := CountSet.insert r.rc p.count } = .ok d) := by
  have hvalid : ∀ k, Memory.find (r.stored p body).rb k ≠ none ↔ k = p.sn.toNat ∨ Memory.find r.rb k ≠ none := by
    intro k
    rw [Rxu.stored, Memory.find_insert]
    split <;> simp_all
  obtain ⟨hiff, hok⟩ := drain_capacity_iff (P := P) (own := p.sn) (r := r.stored p body)
    ((le_maxSn_iff _ _).mp (h.neBound hr)) (Memory.insert_wf h.rbForm _ _)
    (fun hld => ⟨h.successor hr hld, h.ldBound hr hld⟩) (Nat.lt_succ_self _)
  simp only [hvalid] at hiff
  rw [bufferAndDrain_eq (by exact hsn)]
  by_cases hcol : P.collision = .fault ∧ Memory.find r.rb p.sn.toNat ≠ none
  · rw [if_pos ⟨Option.isSome_iff_ne_none.mpr hcol.2, hcol.1⟩]
    exact ⟨iff_of_true rfl (.inl hcol), fun hn => absurd rfl hn⟩
  · rw [if_neg fun hn => hcol ⟨hn.2, Option.isSome_iff_ne_none.mp hn.1⟩, or_iff_right hcol]
    exact ⟨hiff, hok⟩

/-- Steps 5 to 7 with a new count, from a configured receiver: a capacity fault for one of the causes, else an
acceptance. -/
theorem acceptPdu_capacity_iff (h : r.WindowInv P) (hr : r.life = .ready) (hsn : p.sn.toNat ≤ maxSn (snWidth r.lcfg))
    (hnew : p.count ∉ r.rc) :
    (acceptPdu P r p body = .stop .capacity ↔ CapacityCause P r p.sn.toNat) ∧
    (¬ CapacityCause P r p.sn.toNat → ∃ d,
      bufferAndDrain P p body { r with rc := CountSet.insert r.rc p.count } = .ok d ∧
      acceptPdu P r p body = .accept d.rxu { p with status := if d.own then .delivered else .buffered } d.ndrain) := by
  obtain ⟨hiff, hok⟩ := bufferAndDrain_capacity_iff (body := body) h hr hsn
  rw [CapacityCause, ← hiff, ← atCapacity_iff]
  rcases acceptPdu_cases P r p body with ⟨hin, -⟩ | ⟨-, hcap, ha⟩ | ⟨-, hcap, ⟨why, hb, ha⟩ | ⟨d, hb, ha⟩⟩
  · exact absurd hin hnew
  · exact ⟨iff_of_true ha (.inl hcap), fun hn => absurd (.inl hcap) hn⟩
  · have hwhy : why = .capacity := by
      by_contra hne
      obtain ⟨d, hd⟩ := hok (by rw [hb]; simpa using hne)
      rw [hb] at hd
      cases hd
    subst hwhy
    exact ⟨iff_of_true ha (.inr hb), fun hn => absurd (.inr hb) hn⟩
  · refine ⟨iff_of_false (by simp [ha]) (by simp [hcap, hb]), fun _ => ⟨d, hb, ha⟩⟩

end StepsFiveToSeven

/-! ### The whole command (42_receiver.md R280, R288) -/

/-- What RX.RECEIVE answers where its steps end in a capacity fault: the command is undone, but `FAULT` is set. -/
theorem rxReceive_of_capacity {P : Params} {s : State} {p : Pdu} (ha : s.accepts .rxu)
    (hok : receiveOperandOk P s.rxu p = true) (hd : receive P s.rxu p = .stop .capacity) :
    rxReceive P p s = .next { s with
      rxu := { s.rxu with fault := true }
      outbox := s.outbox ++ [{ port := .rxu, words := [0x21060000] }] } := by
  rw [rxReceive, runCommand_accepts _ rfl ha hok, hd]
  rfl

/-- What RX.RECEIVE does and answers where its steps end in an acceptance. -/
theorem rxReceive_of_accept {P : Params} {s : State} {p q : Pdu} {r : Rxu} {n : Nat} (ha : s.accepts .rxu)
    (hok : receiveOperandOk P s.rxu p = true) (hd : receive P s.rxu p = .accept r q n) :
    rxReceive P p s = .next { s with
      rxu := r
      outbox := s.outbox ++
        [{ port := .rxu, words := [0x21000000, rxInfo true q.verified q.status, q.count, countWord P n] }] } := by
  rw [rxReceive, runCommand_accepts _ rfl ha hok, hd]
  rfl

/-- A PDU with legal operands has a number in the receiver's index space. -/
theorem sn_le_of_receiveOperandOk {P : Params} {r : Rxu} {p : Pdu} (h : receiveOperandOk P r p = true) :
    p.sn.toNat ≤ maxSn (snWidth r.lcfg) := of_decide_eq_true (Bool.and_eq_true_iff.mp h).2

/-- Settles O31: a PDU that passes the first steps ends in a capacity fault exactly for one of the causes, and an
acceptance is answered otherwise. -/
theorem receiveCapacityFaults : Obligations.ReceiveCapacityFaults := by
  intro P s p data body v ha hw hok hc hdec hver hnew S valid t
  refine ⟨?_, fun hP => by rw [hP]; rfl⟩
  obtain ⟨hiff, haccept⟩ := acceptPdu_capacity_iff (p := settledPdu p (reconstruct s.rxu p.sn) v) (body := body) hw ha.1
    (by exact sn_le_of_receiveOperandOk hok) hnew
  rw [← receive_of_passes hc hdec hver] at hiff haccept
  refine Iff.trans ?_ hiff
  constructor
  · intro hrun
    by_contra hno
    obtain ⟨d, -, hd⟩ := haccept fun hcause => hno (hiff.mpr hcause)
    rw [rxReceive_of_accept ha hok hd] at hrun
    have hout := congrArg State.outbox (Host.Outcome.next.inj hrun)
    simp [t] at hout
  · exact fun hcap => rxReceive_of_capacity ha hok hcap

end Sys2Proof.Machine
end

section
/-! O26, O27, O28 and O34: the drain of an accepted PDU, out of order and in order, and the round trip
(42_receiver.md R280 to R288, 70_reset_and_hazards.md R462, 95_test_vectors.md 1.1). -/

namespace Sys2Proof.Machine

/-! ### The gap (70_reset_and_hazards.md R462) -/

/-- A drain whose first slot is empty does nothing. -/
theorem drain_of_headEmpty {P : Params} {own : Word} {fuel : Nat} {d : Drain}
    (hne : d.rxu.neSn.toNat ≤ maxSn (snWidth d.rxu.lcfg)) (h : Memory.find d.rxu.rb d.rxu.neSn.toNat = none) :
    drain P own (fuel + 1) d = .ok d := by
  rw [drain_succ, if_pos hne, h]

section Accepted

variable {P : Params} {r : Rxu} {p : Pdu} {body : List Byte} {d : Drain}

/-- An accepted PDU that is not the expected one is stored, and nothing is delivered. -/
theorem Rxu.WindowInv.accepted_gap (h : r.WindowInv P) (hr : r.life = .ready)
    (hsn : p.sn.toNat ≤ maxSn (snWidth r.lcfg)) (hgap : p.sn ≠ r.neSn)
    (hb : bufferAndDrain P p body { r with rc := CountSet.insert r.rc p.count } = .ok d) :
    d = { rxu := r.stored p body, ndrain := 0, own := false } := by
  have hslot : Memory.find (r.stored p body).rb r.neSn.toNat = none := by
    rw [Rxu.stored, Memory.find_insert_of_ne _ _ fun heq => hgap (BitVec.eq_of_toNat_eq heq.symm)]
    exact h.headEmpty
  have hdrain := bufferAndDrain_eq_ok hb hsn
  rw [drain_of_headEmpty (by exact h.neBound hr) hslot] at hdrain
  exact (Except.ok.inj hdrain).symm

/-- An acceptance delivers the PDU of the command exactly where it is the expected one. -/
theorem Rxu.WindowInv.own_iff (h : r.WindowInv P) (hr : r.life = .ready)
    (hsn : p.sn.toNat ≤ maxSn (snWidth r.lcfg))
    (hb : bufferAndDrain P p body { r with rc := CountSet.insert r.rc p.count } = .ok d) :
    d.own = true ↔ p.sn = r.neSn := by
  obtain ⟨hd, hend⟩ := h.drained hr hsn hb
  constructor
  · intro hown
    by_contra hgap
    rw [h.accepted_gap hr hsn hgap hb] at hown
    cases hown
  · intro heq
    have hne := (le_maxSn_iff _ _).mp (h.neBound hr)
    have hpos : 0 < d.ndrain := by
      rw [Nat.pos_iff_ne_zero]
      intro h0
      rw [hd.slots, if_neg (by simp [h0]), hd.next, h0, Nat.add_zero, Rxu.stored, heq, Nat.mod_eq_of_lt hne,
        Memory.find_insert_self] at hend
      cases hend
    rw [hd.own, decide_eq_true_eq]
    exact ⟨0, hpos, by rw [Nat.add_zero, heq]; exact Nat.mod_eq_of_lt hne⟩

end Accepted

/-- Settles O28: a discard and a capacity fault move no window register, and an acceptance that fills no expected slot
delivers nothing. -/
theorem gapBlocksDelivery : Obligations.GapBlocksDelivery := by
  intro P s t p hw hgap h
  rcases rxReceive_cases h with ⟨code, rfl⟩ | ⟨ha, hok, ⟨r, q, hr, rfl⟩ | ⟨r, q, n, hr, rfl⟩ | ⟨-, rfl⟩⟩
  · exact ⟨rfl, rfl, rfl, rfl, rfl, rfl⟩
  · obtain ⟨reason, rfl⟩ := receive_eq_discard hr
    simp
  · obtain ⟨v, body, d, -, -, hb, rfl⟩ := receive_eq_accept hr
    rw [hw.accepted_gap (p := settledPdu p (reconstruct s.rxu p.sn) v) ha.1 (sn_le_of_receiveOperandOk hok) hgap hb]
    exact ⟨rfl, rfl, rfl, rfl, rfl, rfl⟩
  · exact ⟨rfl, rfl, rfl, rfl, rfl, rfl⟩

/-! ### Acceptance (42_receiver.md R285 to R288) -/

/-- The premises on room of an acceptance are the complement of the causes of a capacity fault. -/
theorem not_capacityCause {P : Params} {r : Rxu} {p : Pdu} (body : List Byte)
    (hrc : ∀ cap, P.replayCap = some cap → r.rc.length < cap)
    (hslot : P.collision = .overwrite ∨ Memory.find r.rb p.sn.toNat = none)
    (hdl : ∀ cap, P.dlCap = some cap → 2 ^ snWidth r.lcfg ≤ cap - r.dl.length ∨
      ∃ j ≤ cap - r.dl.length, Memory.find (r.stored p body).rb ((r.neSn.toNat + j) % 2 ^ snWidth r.lcfg) = none) :
    ¬ CapacityCause P r p.sn.toNat := by
  rintro (⟨cap, hcap, hle⟩ | ⟨hcol, hocc⟩ | ⟨cap, hcap, hlt, hrun⟩)
  · exact absurd (hrc cap hcap) (Nat.not_lt.mpr hle)
  · rcases hslot with hover | hfree
    · rw [hover] at hcol
      cases hcol
    · exact hocc hfree
  · rcases hdl cap hcap with hroom | ⟨j, hj, hnone⟩
    · omega
    · rw [Rxu.stored, Memory.find_insert] at hnone
      split at hnone
      · cases hnone
      · next hne => exact (hrun j hj).elim hne fun hsome => hsome hnone

/-- Settles O26: with room the PDU is accepted, and the drain of the stored receiver is what `Drained` says. -/
theorem acceptedIsBufferedAndDrained : Obligations.AcceptedIsBufferedAndDrained := by
  intro P s p data body v ha hw hok hc hdec hver hnew S at' slots hrc hslot hdl
  have hsn := sn_le_of_receiveOperandOk hok
  have hslots : ∀ i, Memory.find (s.rxu.stored (settledPdu p (reconstruct s.rxu p.sn) v) body).rb i = slots i :=
    fun i => Memory.find_insert _ _ _ _
  have hroom : ¬ CapacityCause P s.rxu p.sn.toNat := by
    refine not_capacityCause (p := settledPdu p (reconstruct s.rxu p.sn) v) body hrc hslot fun cap hcap => ?_
    simp only [hslots]
    exact hdl cap hcap
  obtain ⟨d, hb, haccept⟩ := (acceptPdu_capacity_iff (p := settledPdu p (reconstruct s.rxu p.sn) v) (body := body) hw
    ha.1 hsn hnew).2 hroom
  obtain ⟨hd, hend⟩ := hw.drained (p := settledPdu p (reconstruct s.rxu p.sn) v) ha.1 hsn hb
  have hown := hw.own_iff (p := settledPdu p (reconstruct s.rxu p.sn) v) ha.1 hsn hb
  have hrun := rxReceive_of_accept ha hok ((receive_of_passes hc hdec hver).trans haccept)
  obtain ⟨hshape, -, hbound, hnext, hlength, hgrown, hdelivered, hleft, hnone, hsome, hestimate, -⟩ := hd
  simp only [hslots] at hdelivered hleft
  have hrcEq : d.rxu.rc = CountSet.insert s.rxu.rc (reconstruct s.rxu p.sn) := congrArg Rxu.rc hshape
  have hrxu : d.rxu = { s.rxu with
      neSn := d.rxu.neSn, hfnEst := d.rxu.hfnEst, ldValid := d.rxu.ldValid, ldSn := d.rxu.ldSn, rb := d.rxu.rb,
      rc := d.rxu.rc, dl := d.rxu.dl, cntSuccess := s.rxu.cntSuccess + BitVec.ofNat 32 d.ndrain } := by
    rw [hrcEq]
    exact hshape
  have hword : countWord P d.ndrain = BitVec.ofNat 32 d.ndrain :=
    countWord_of_lt P (lt_of_le_of_lt (hbound.trans (two_pow_snWidth_le s.rxu.lcfg)) (by decide))
  refine ⟨_, d.ndrain, hrun, fun hP => by rw [← hrun, hP]; rfl, ?_, fun c => ?_, hbound, hnext, ?_, hlength, hgrown,
    hdelivered, fun i _ => hleft i, hnone, hsome, hestimate⟩
  · rw [hword]
    simp only [settledPdu, hown]
    congr 1
  · rw [← CountSet.mem_insert, ← hrcEq]
  · rw [← hend, hnext]
    rfl

/-! ### In order (42_receiver.md R287) -/

/-- The receiver after the expected PDU, with nothing buffered, is delivered: its window, stores and counter. -/
def Rxu.deliveredNow (r : Rxu) (sduId count : Word) (body : List Byte) : Rxu :=
  { r with
    neSn := BitVec.ofNat 32 ((r.neSn.toNat + 1) % 2 ^ snWidth r.lcfg)
    hfnEst :=
      if r.neSn = 0 ∧ r.ldValid = true then BitVec.ofNat 32 ((r.hfnEst.toNat + 1) % hfnMod (snWidth r.lcfg))
      else r.hfnEst
    ldValid := true, ldSn := r.neSn, rb := [], rc := CountSet.insert r.rc count
    dl := r.dl ++ [{ sduId, payload := body, count }], cntSuccess := r.cntSuccess + 1 }

/-- Where the expected number is the successor of the last delivered one, it is 0 exactly after `MAX_SN`. -/
theorem Rxu.WindowInv.wrap_iff {P : Params} {r : Rxu} (h : r.WindowInv P) (hr : r.life = .ready) :
    (r.neSn = 0 ∧ r.ldValid = true ∧ r.ldSn.toNat = maxSn (snWidth r.lcfg)) ↔ (r.neSn = 0 ∧ r.ldValid = true) := by
  refine ⟨fun ⟨h0, hld, _⟩ => ⟨h0, hld⟩, fun ⟨h0, hld⟩ => ⟨h0, hld, ?_⟩⟩
  have hsucc := h.successor hr hld
  have hbound := h.ldBound hr hld
  have hmax := maxSn_add_one (snWidth r.lcfg)
  rw [h0, show (0 : Word).toNat = 0 from rfl] at hsucc
  by_contra hne
  rw [Nat.mod_eq_of_lt (by omega)] at hsucc
  omega

/-- The delivery of the expected PDU, with nothing else buffered and its count in the replay cache. -/
theorem Rxu.WindowInv.deliverSlot_expected {P : Params} {r : Rxu} (h : r.WindowInv P) (hr : r.life = .ready)
    (sduId count : Word) (body : List Byte) :
    deliverSlot { sduId, count, body } [] { r with rc := CountSet.insert r.rc count } =
      r.deliveredNow sduId count body := by
  simp only [deliverSlot, Rxu.deliveredNow, bump, maxSn_add_one, h.wrap_iff hr]

/-- Steps 6 and 7 for the expected PDU with nothing buffered: it is delivered, if the delivered list has room. -/
theorem bufferAndDrain_inOrder {P : Params} {p : Pdu} {body : List Byte} {r : Rxu} (hrb : r.rb = [])
    (hne : r.neSn.toNat ≤ maxSn (snWidth r.lcfg)) (hsn : p.sn = r.neSn) :
    bufferAndDrain P p body r =
      if atCapacity P.dlCap r.dl.length then .error .capacity
      else .ok { rxu := deliverSlot { sduId := p.sduId, count := p.count, body } [] r, ndrain := 1, own := true } := by
  obtain ⟨sduId, sn, count, hfn, payload, tag, corrupted, tampered, verified, status⟩ := p
  obtain rfl : sn = r.neSn := hsn
  have hsingle : Memory.find [(r.neSn.toNat, ({ sduId, count, body } : Slot))] r.neSn.toNat =
      some { sduId, count, body } := if_pos rfl
  have hremove : Memory.remove [(r.neSn.toNat, ({ sduId, count, body } : Slot))] r.neSn.toNat = [] := if_pos rfl
  rw [bufferAndDrain_eq hne, hrb, if_neg (by simp [Memory.find]), Memory.insert, drain_succ, if_pos hne]
  simp only [hsingle, hremove]
  split
  · rfl
  · rw [List.length_singleton, drain_of_headEmpty (deliverSlot_neSn_le _ _ _) rfl]
    simp [drainOne, deliverSlot]

/-- The steps of RX.RECEIVE for the expected PDU, past steps 1 to 4, with a new count and nothing buffered. -/
theorem receive_inOrder {P : Params} {r : Rxu} {p : Pdu} {count : Word} {data body : List Byte} {v : Verified}
    (hr : r.life = .ready) (hw : r.WindowInv P) (hrb : r.rb = []) (hc : p.corrupted = false) (hsn : p.sn = r.neSn)
    (hcount : reconstruct r p.sn = count) (hdec : decipher P r.lcfg count p.payload = some data)
    (hver : verify P r.lcfg count data = .ok (body, v)) (hnew : count ∉ r.rc) :
    receive P r p =
      if atCapacity P.replayCap r.rc.length = true ∨ atCapacity P.dlCap r.dl.length = true then .stop .capacity
      else .accept (r.deliveredNow p.sduId count body) { settledPdu p count v with status := .delivered } 1 := by
  subst hcount
  have hnew' : (settledPdu p (reconstruct r p.sn) v).count ∉ r.rc := hnew
  have hbuffer := bufferAndDrain_inOrder (P := P) (p := settledPdu p (reconstruct r p.sn) v) (body := body)
    (r := { r with rc := CountSet.insert r.rc (settledPdu p (reconstruct r p.sn) v).count }) hrb (hw.neBound hr) hsn
  rw [receive_of_passes hc hdec hver, acceptPdu, if_neg hnew', hbuffer]
  cases hcap : atCapacity P.replayCap r.rc.length with
  | true => rfl
  | false =>
    cases hdl : atCapacity P.dlCap r.dl.length with
    | true => rfl
    | false =>
      simp only [Bool.false_eq_true, or_self, if_false, ← hw.deliverSlot_expected hr]
      rfl

/-- Settles O27: the expected PDU is delivered by the first round of the drain, and the second finds nothing. -/
theorem inOrderReceiveDelivers : Obligations.InOrderReceiveDelivers := by
  intro s p data body v ha hw hrb hok hc hsn hdec hver hnew
  have hsteps := receive_inOrder ha.1 hw hrb hc hsn rfl hdec hver hnew
  show rxReceive Config.params p s = _
  split
  · next hfull => exact rxReceive_of_capacity ha hok (hsteps.trans (if_pos hfull))
  · next hroom =>
    rw [rxReceive_of_accept ha hok (hsteps.trans (if_neg hroom))]
    simp only [Rxu.deliveredNow, hrb, hsn]
    rfl

/-! ### The round trip (95_test_vectors.md 1.1, 40_crypto.md R202) -/

/-- The fields that a transmitter and a receiver in step share make the receiver reconstruct the transmitter's count,
from width 2 on. -/
theorem InStep.reconstruct_eq {P : Params} {t : Txu} {r : Rxu} (h : InStep t r) (ht : t.Inv P) (htr : t.life = .ready)
    (hr : r.WindowInv P) (hrr : r.life = .ready) (hS : 2 ≤ snWidth t.lcfg) : reconstruct r t.sn = txCount t := by
  have hestimate : estimateHfn (snWidth r.lcfg) (reference r) r.hfnEst.toNat t.sn.toNat = t.hfn.toNat := by
    obtain ⟨hpow, hT, -⟩ := windowSize_facts (S := snWidth t.lcfg) (by omega)
    have hwindow : 2 ≤ windowSize (snWidth t.lcfg) := by
      rw [windowSize]
      exact Nat.le_self_pow (by omega) 2
    have hsn := (le_maxSn_iff _ _).mp (ht.snBound htr)
    have hzero : t.sn = 0 ↔ t.sn.toNat = 0 := by rw [← BitVec.toNat_inj]; rfl
    rw [h.sameLink, estimateHfn, hT, h.sameHfn]
    simp only [hzero]
    cases hld : r.ldValid with
    | false =>
      rw [reference, hld, h.sameSn]
      simp only [Bool.false_eq_true, and_false, if_false]
      rw [if_pos (by omega)]
    | true =>
      have hsucc := hr.successor hrr hld
      have hlast := (le_maxSn_iff _ _).mp (hr.ldBound hrr hld)
      rw [h.sameLink] at hsucc hlast
      rw [h.sameSn] at hsucc
      rw [reference, hld, if_pos rfl]
      by_cases hwrap : r.ldSn.toNat + 1 < 2 ^ snWidth t.lcfg
      · rw [Nat.mod_eq_of_lt hwrap] at hsucc
        rw [if_pos (by omega), if_neg (by omega)]
      · have hfull : r.ldSn.toNat + 1 = 2 ^ snWidth t.lcfg := by omega
        rw [hfull, Nat.mod_self] at hsucc
        rw [if_neg (by omega), if_pos (by omega), if_pos ⟨hsucc, rfl⟩]
  rw [reconstruct, hestimate, h.sameLink, BitVec.ofNat_toNat, BitVec.setWidth_eq]
  rfl

/-- The receiver deciphers what the transmitter ciphered. -/
theorem decipher_txWire {P : Params} {t : Txu} (hkey : ¬ (t.lcfg.cen = true ∧ t.lcfg.ckp = false))
    (payload : List Byte) :
    decipher P t.lcfg (txCount t) (txWire P t payload) = some (txPlain P t payload) := by
  rw [decipher_passes hkey, txWire]
  split
  · rw [cipher_cipher]
  · rfl

/-- The receiver verifies what the transmitter tagged, and gets the payload back. -/
theorem verify_txPlain {P : Params} {t : Txu} (hkey : ¬ (t.lcfg.ien = true ∧ t.lcfg.ikp = false))
    (payload : List Byte) :
    verify P t.lcfg (txCount t) (txPlain P t payload) =
      .ok (payload, if t.lcfg.ien = true then .verifiedTrue else .notApplicable) := by
  cases hien : t.lcfg.ien with
  | false => simp [verify, txPlain, txTag, optionalTagBytes, hien]
  | true =>
    have hikp : t.lcfg.ikp = true := by simpa [hien] using hkey
    simp [verify, txPlain, txTag, optionalTagBytes, hien, hikp]

/-- What a transmitter in step with a receiver sends has legal operands for it. -/
theorem InStep.receiveOperandOk {P : Params} {t : Txu} {r : Rxu} (h : InStep t r) (ht : t.Inv P)
    (htr : t.life = .ready) {sduId : Word} {payload : List Byte} (status : Status)
    (hsend : sendOperandOk P t payload = true) (hlen : (txWire P t payload).length < 2 ^ 32) :
    receiveOperandOk P r { txPdu P t sduId payload with status } = true := by
  obtain ⟨-, hlimit⟩ := Bool.and_eq_true_iff.mp hsend
  rw [Machine.receiveOperandOk, Bool.and_eq_true, decide_eq_true_eq, h.sameLink, pduWithin, Bool.and_eq_true]
  refine ⟨⟨decide_eq_true hlen, ?_⟩, ht.snBound htr⟩
  show withinLimit P.maxPayload (txWire P t payload).length = true
  rw [txWire_length]
  exact hlimit

/-- After a send and the delivery of what it sent the two are in step again. -/
theorem InStep.next {P : Params} {t : Txu} {r : Rxu} (h : InStep t r) (ht : t.Inv P) (htr : t.life = .ready)
    (sduId count : Word) (body : List Byte) : InStep (advanceCounter t) (r.deliveredNow sduId count body) := by
  obtain ⟨hsn, hhfn⟩ := advanceCounter_toNat ht htr
  have hbound := (le_maxSn_iff _ _).mp (ht.snBound htr)
  have hmax := maxSn_add_one (snWidth t.lcfg)
  have h31 := two_pow_snWidth_le t.lcfg
  have hnext : (advanceCounter t).sn.toNat = (t.sn.toNat + 1) % 2 ^ snWidth t.lcfg := by
    rw [hsn]
    split
    · next hlast => rw [hlast, hmax, Nat.mod_self]
    · rw [Nat.mod_eq_of_lt (by omega)]
  have hestimate : (r.deliveredNow sduId count body).hfnEst.toNat = t.hfn.toNat := by
    have hlt := Nat.mod_lt (r.hfnEst.toNat + 1) (hfnMod_pos (snWidth t.lcfg))
    have hle := hfnMod_le (snWidth t.lcfg)
    rw [h.sameHfn, Rxu.deliveredNow, h.sameLink, h.sameSn]
    split
    · rw [BitVec.toNat_ofNat, Nat.mod_eq_of_lt (by omega)]
    · rfl
  refine ⟨by rw [advanceCounter_lcfg]; exact h.sameLink, rfl, BitVec.eq_of_toNat_eq ?_, ?_⟩
  · rw [hnext, Rxu.deliveredNow, h.sameLink, h.sameSn, BitVec.toNat_ofNat, Nat.mod_eq_of_lt (a := _ % _)]
    exact (Nat.mod_lt _ (Nat.two_pow_pos _)).trans_le (h31.trans (by decide))
  · rw [hestimate, hhfn, advanceCounter_lcfg]
    have hzero : (advanceCounter t).sn = 0 ↔ t.sn.toNat = maxSn (snWidth t.lcfg) := by
      rw [← BitVec.toNat_inj, hsn]
      split <;> simp_all
    simp only [hzero]
    exact if_congr (and_iff_left rfl).symm rfl rfl

/-- Settles O34: the receiver reconstructs the count of the send, deciphers and verifies with it, and delivers the PDU,
which is the expected one. -/
theorem roundTripDelivers : Obligations.RoundTripDelivers := by
  intro P s sduId payload status htr ht ha hw h hS hsend hlen hnew hrc hdl
  obtain ⟨hckey, hikey⟩ := hw.has_keys ha.1
  rw [h.sameLink] at hckey hikey
  have hcount := h.reconstruct_eq ht htr hw ha.1 hS
  have hdec : decipher P s.rxu.lcfg (txCount s.txu) (txWire P s.txu payload) = some (txPlain P s.txu payload) := by
    rw [h.sameLink, decipher_txWire hckey]
  have hver : verify P s.rxu.lcfg (txCount s.txu) (txPlain P s.txu payload) =
      .ok (payload, if s.rxu.lcfg.ien = true then .verifiedTrue else .notApplicable) := by
    rw [h.sameLink, verify_txPlain hikey]
  have hroom : ¬ (atCapacity P.replayCap s.rxu.rc.length = true ∨ atCapacity P.dlCap s.rxu.dl.length = true) := by
    simp [hrc, hdl]
  have hsteps := receive_inOrder (p := { txPdu P s.txu sduId payload with status }) ha.1 hw h.nothingBuffered rfl
    h.sameSn.symm hcount hdec hver hnew
  have hrecv := rxReceive_of_accept
    (s := respondOk .txSend (pduRecord P (txPdu P s.txu sduId payload)) { s with txu := advanceCounter s.txu })
    ha (h.receiveOperandOk ht htr status hsend hlen) (hsteps.trans (if_neg hroom))
  exact ⟨txPdu P s.txu sduId payload, _, _, txSend_ready htr hsend, rfl, hrecv, rfl, rfl, h.next ht htr _ _ _⟩

end Sys2Proof.Machine
end

section
/-! O29 and O53: what RX.RECEIVE and TX.SEND read of a PDU and of the keys (42_receiver.md R289, 30_encoding.md
R153). -/

namespace Sys2Proof.Machine

/-! ### What RX.RECEIVE answers (42_receiver.md R288) -/

/-- What a reception leaves and answers: the receiver and the response record, or why it stops. -/
def Reception.answer (P : Params) : Reception → Except Stop (Rxu × List Word)
  | .discard r q => .ok (r, receiveRecord P false q 0)
  | .accept r q n => .ok (r, receiveRecord P true q n)
  | .stop why => .error why

/-- The end of RX.RECEIVE in a state, from what the reception leaves and answers. -/
def endReceive (s : State) : Except Stop (Rxu × List Word) → StepResult
  | .ok (r, record) => .next (respondOk .rxReceive record { s with rxu := r })
  | .error .capacity => .next (raiseCapacity .rxReceive s)
  | .error (.fault f) => .fault f

/-- RX.RECEIVE is its prologue, and the end that its reception answers. -/
theorem rxReceive_eq_endReceive (P : Params) (p : Pdu) (s : State) :
    rxReceive P p s = runCommand .rxReceive (receiveOperandOk P s.rxu p)
      (fun s => endReceive s ((receive P s.rxu p).answer P)) s := by
  unfold rxReceive runCommand
  cases prologue .rxReceive (receiveOperandOk P s.rxu p) s with
  | some code => rfl
  | none =>
    dsimp only
    cases receive P s.rxu p with
    | discard r q | accept r q n => rfl
    | stop why => cases why <;> rfl

/-! ### The four fields (42_receiver.md R289) -/

section FourFields

variable {P : Params} {p q : Pdu}

/-- The operand check reads the number and the payload. -/
theorem receiveOperandOk_congr {r : Rxu} (hsn : p.sn = q.sn) (hpayload : p.payload = q.payload) :
    receiveOperandOk P r p = receiveOperandOk P r q := by
  simp only [receiveOperandOk, pduWithin, Pdu.fits, hsn, hpayload]

/-- Steps 6 and 7 read the number, the identity and the count. -/
theorem bufferAndDrain_congr {r : Rxu} {body : List Byte} (hid : p.sduId = q.sduId) (hsn : p.sn = q.sn)
    (hcount : p.count = q.count) : bufferAndDrain P p body r = bufferAndDrain P q body r := by
  simp only [bufferAndDrain, hid, hsn, hcount]

/-- Steps 5 to 7 answer the same for PDUs that agree in the fields they read and in `verified`. -/
theorem acceptPdu_answer_congr {r : Rxu} {body : List Byte} (hid : p.sduId = q.sduId) (hsn : p.sn = q.sn)
    (hcount : p.count = q.count) (hverified : p.verified = q.verified) :
    (acceptPdu P r p body).answer P = (acceptPdu P r q body).answer P := by
  simp only [acceptPdu, bufferAndDrain_congr hid hsn hcount, hcount]
  split
  · simp only [discard, Reception.answer, receiveRecord, hcount, hverified]
  · split
    · rfl
    · split
      · rfl
      · simp only [Reception.answer, receiveRecord, hverified]

/-- A configured receiver answers the same for PDUs that agree in the four fields; a corrupted one's count and
`verified` are answered as they came. -/
theorem receive_answer_congr {r : Rxu} (hw : r.WindowInv P) (hr : r.life = .ready) (hid : p.sduId = q.sduId)
    (hsn : p.sn = q.sn) (hpayload : p.payload = q.payload) (hc : p.corrupted = q.corrupted)
    (hcame : p.corrupted = true → p.count = q.count ∧ p.verified = q.verified) :
    (receive P r p).answer P = (receive P r q).answer P := by
  cases hcor : p.corrupted with
  | true =>
    obtain ⟨hcount, hverified⟩ := hcame hcor
    rw [receive_of_corrupted P r hcor, receive_of_corrupted P r (hc ▸ hcor)]
    simp only [discard, Reception.answer, receiveRecord, hcount, hverified]
  | false =>
    have hcorq : q.corrupted = false := hc ▸ hcor
    have hdec := decipher_passes (P := P) (count := reconstruct r q.sn) (payload := q.payload) (hw.has_keys hr).1
    generalize (if r.lcfg.cen = true then _ else _) = data at hdec
    cases hver : verify P r.lcfg (reconstruct r q.sn) data with
    | error reason =>
      rw [receive_of_verify_error (p := p) (by simp [hcor]) (by rw [hsn, hpayload, hdec]) (hsn ▸ hver),
        receive_of_verify_error (p := q) (by simp [hcorq]) hdec hver, hsn]
      rfl
    | ok x =>
      obtain ⟨body, v⟩ := x
      rw [receive_of_passes (p := p) hcor (by rw [hsn, hpayload, hdec]) (hsn ▸ hver),
        receive_of_passes (p := q) hcorq hdec hver, hsn]
      exact acceptPdu_answer_congr hid hsn rfl rfl

end FourFields

/-- Settles O29: the prologue reads the number and the payload, and a reception that is reached the four fields. -/
theorem receiveReadsFourFields : Obligations.ReceiveReadsFourFields := by
  intro s p q hw hid hsn hpayload hc hcame
  show rxReceive Config.params p s = rxReceive Config.params q s
  rw [rxReceive_eq_endReceive, rxReceive_eq_endReceive, receiveOperandOk_congr hsn hpayload]
  unfold runCommand
  split
  · rfl
  · next hp =>
    obtain ⟨ha, -⟩ := accepts_of_prologue hp rfl
    simp only [receive_answer_congr hw ha.1 hid hsn hpayload hc hcame]

/-! ### Keys that are not needed (30_encoding.md R153, 10_state.md R33) -/

/-- `cfg'` is `cfg` but for the bytes of keys whose use is not enabled. -/
structure SameNeeded (cfg cfg' : LinkCfg) : Prop where
  bearer : cfg'.bearer = cfg.bearer
  dir : cfg'.dir = cfg.dir
  ien : cfg'.ien = cfg.ien
  cen : cfg'.cen = cfg.cen
  snbits : cfg'.snbits = cfg.snbits
  ikp : cfg'.ikp = cfg.ikp
  ckp : cfg'.ckp = cfg.ckp
  ikey : cfg.ien = true → cfg'.ikey = cfg.ikey
  ckey : cfg.cen = true → cfg'.ckey = cfg.ckey

/-- Without integrity the bytes of the integrity key are not needed. -/
theorem SameNeeded.of_ikey {cfg : LinkCfg} (h : cfg.ien = false) (key : List Byte) :
    SameNeeded cfg { cfg with ikey := key } :=
  ⟨rfl, rfl, rfl, rfl, rfl, rfl, rfl, fun hi => absurd hi (by simp [h]), fun _ => rfl⟩

/-- Without ciphering the bytes of the cipher key are not needed. -/
theorem SameNeeded.of_ckey {cfg : LinkCfg} (h : cfg.cen = false) (key : List Byte) :
    SameNeeded cfg { cfg with ckey := key } :=
  ⟨rfl, rfl, rfl, rfl, rfl, rfl, rfl, fun _ => rfl, fun hc => absurd hc (by simp [h])⟩

/-- In a legal configuration a feature whose key is absent is not enabled. -/
theorem legalLink.disabled {P : Params} {cfg : LinkCfg} (h : legalLink P cfg) :
    (cfg.ikp = false → cfg.ien = false) ∧ (cfg.ckp = false → cfg.cen = false) := by
  obtain ⟨hikp, hckp, -⟩ := (cfgLegal_eq_true_iff P cfg).mp h.1
  refine ⟨fun hn => Bool.eq_false_iff.mpr fun hi => ?_, fun hn => Bool.eq_false_iff.mpr fun hc => ?_⟩
  · rw [hikp hi] at hn
    cases hn
  · rw [hckp hc] at hn
    cases hn

section Needed

variable {P : Params} {cfg cfg' : LinkCfg}

/-- The width is needed. -/
theorem SameNeeded.snWidth (h : SameNeeded cfg cfg') : snWidth cfg' = snWidth cfg := congrArg BitVec.toNat h.snbits

/-- Step 3 reads what is needed. -/
theorem SameNeeded.decipher (h : SameNeeded cfg cfg') (count : Word) (payload : List Byte) :
    decipher P cfg' count payload = decipher P cfg count payload := by
  cases hc : cfg.cen with
  | false => simp [Machine.decipher, h.cen, hc]
  | true => simp [Machine.decipher, h.cen, h.ckp, h.ckey hc, h.bearer, h.dir]

/-- Step 4 reads what is needed. -/
theorem SameNeeded.verify (h : SameNeeded cfg cfg') (count : Word) (data : List Byte) :
    verify P cfg' count data = verify P cfg count data := by
  cases hi : cfg.ien with
  | false => simp [Machine.verify, h.ien, hi]
  | true => simp [Machine.verify, h.ien, h.ikp, h.ikey hi, h.bearer, h.dir]

/-- TX.SEND builds its PDU from what is needed. -/
theorem SameNeeded.txPdu {t : Txu} (h : SameNeeded t.lcfg cfg') (sduId : Word) (payload : List Byte) :
    txPdu P { t with lcfg := cfg' } sduId payload = txPdu P t sduId payload := by
  have hcount : txCount { t with lcfg := cfg' } = txCount t := by simp only [txCount, h.snWidth]
  have htag : txTag P { t with lcfg := cfg' } payload = txTag P t payload := by
    cases hi : t.lcfg.ien with
    | false => simp [txTag, h.ien, hi]
    | true => simp [txTag, h.ien, h.ikey hi, h.bearer, h.dir, hcount]
  have hwire : txWire P { t with lcfg := cfg' } payload = txWire P t payload := by
    cases hc : t.lcfg.cen with
    | false => simp [txWire, txPlain, h.cen, hc, htag]
    | true => simp [txWire, txPlain, h.cen, h.ckey hc, h.bearer, h.dir, hcount, htag]
  simp only [Machine.txPdu, hcount, htag, hwire]

/-- The counter advances by what is needed. -/
theorem SameNeeded.advanceCounter {t : Txu} (h : SameNeeded t.lcfg cfg') :
    advanceCounter { t with lcfg := cfg' } = { advanceCounter t with lcfg := cfg' } := by
  simp only [Machine.advanceCounter, h.snWidth]
  split <;> rfl

end Needed

/-- TX.SEND does and answers the same with other bytes in the keys that are not needed. -/
theorem txSend_relink {P : Params} {sduId : Word} {payload : List Byte} {s t : State} {cfg' : LinkCfg}
    (h : SameNeeded s.txu.lcfg cfg') (hrun : txSend P sduId payload s = .next t) :
    txSend P sduId payload { s with txu := { s.txu with lcfg := cfg' } } =
      .next { t with txu := { t.txu with lcfg := cfg' } } := by
  have hok : sendOperandOk P { s.txu with lcfg := cfg' } payload = sendOperandOk P s.txu payload := by
    simp only [sendOperandOk, h.ien]
  have hprologue : ∀ ok, prologue .txSend ok { s with txu := { s.txu with lcfg := cfg' } } = prologue .txSend ok s :=
    fun _ => rfl
  unfold txSend runCommand at hrun ⊢
  simp only [hok, hprologue]
  split at hrun
  · cases hrun
    rfl
  · cases hrun
    simp only [h.txPdu, h.advanceCounter]
    rfl

/-! ### The same for RX.RECEIVE -/

/-- A drain with the configuration replaced. -/
def Drain.relink (cfg' : LinkCfg) (d : Drain) : Drain := { d with rxu := { d.rxu with lcfg := cfg' } }

@[simp] theorem relink_neSn (cfg' : LinkCfg) (d : Drain) : (d.relink cfg').rxu.neSn = d.rxu.neSn := rfl
@[simp] theorem relink_rb (cfg' : LinkCfg) (d : Drain) : (d.relink cfg').rxu.rb = d.rxu.rb := rfl
@[simp] theorem relink_dl (cfg' : LinkCfg) (d : Drain) : (d.relink cfg').rxu.dl = d.rxu.dl := rfl

/-- A drain reads the width alone of the configuration. -/
theorem drain_relink {P : Params} {own : Word} {cfg' : LinkCfg} (fuel : Nat) (d : Drain)
    (hS : snWidth cfg' = snWidth d.rxu.lcfg) :
    drain P own fuel (d.relink cfg') = (drain P own fuel d).map (Drain.relink cfg') := by
  induction fuel generalizing d with
  | zero => rfl
  | succ fuel ih =>
    have hone : ∀ e rb, drainOne own e rb (d.relink cfg') = (drainOne own e rb d).relink cfg' := fun e rb => by
      simp only [drainOne, Drain.relink, deliverSlot, hS]
      rfl
    have hS' : snWidth (d.relink cfg').rxu.lcfg = snWidth d.rxu.lcfg := hS
    rw [drain_succ, drain_succ, hS']
    simp only [hone, relink_neSn, relink_rb, relink_dl]
    by_cases hle : d.rxu.neSn.toNat ≤ maxSn (snWidth d.rxu.lcfg)
    · rw [if_pos hle, if_pos hle]
      cases Memory.find d.rxu.rb d.rxu.neSn.toNat with
      | none => rfl
      | some e =>
        cases hcap : atCapacity P.dlCap d.rxu.dl.length with
        | true => rfl
        | false => exact ih _ hS
    · rw [if_neg hle, if_neg hle]
      rfl

section Relink

variable {P : Params} {r : Rxu} {cfg' : LinkCfg}

/-- Steps 6 and 7 read the width alone of the configuration. -/
theorem bufferAndDrain_relink {p : Pdu} {body : List Byte} (hS : snWidth cfg' = snWidth r.lcfg) :
    bufferAndDrain P p body { r with lcfg := cfg' } = (bufferAndDrain P p body r).map (Drain.relink cfg') := by
  simp only [bufferAndDrain, hS]
  split
  · rfl
  · split
    · rfl
    · split
      · rfl
      · next rb _ => exact drain_relink _ { rxu := { r with rb := rb }, ndrain := 0, own := false } hS

/-- What a reception leaves, with the configuration replaced, and its answer. -/
def relinkAnswer (cfg' : LinkCfg) (x : Rxu × List Word) : Rxu × List Word := ({ x.1 with lcfg := cfg' }, x.2)

/-- A discard does not read the configuration. -/
theorem discard_relink (reason : Status) (p : Pdu) :
    (discard reason { r with lcfg := cfg' } p).answer P = ((discard reason r p).answer P).map (relinkAnswer cfg') := by
  cases reason <;> rfl

/-- Steps 5 to 7 read the width alone of the configuration. -/
theorem acceptPdu_relink {p : Pdu} {body : List Byte} (hS : snWidth cfg' = snWidth r.lcfg) :
    (acceptPdu P { r with lcfg := cfg' } p body).answer P =
      ((acceptPdu P r p body).answer P).map (relinkAnswer cfg') := by
  have hbuffer := bufferAndDrain_relink (P := P) (p := p) (body := body)
    (r := { r with rc := CountSet.insert r.rc p.count }) (cfg' := cfg') hS
  simp only [acceptPdu]
  split
  · exact discard_relink _ _
  · split
    · rfl
    · rw [hbuffer]
      cases bufferAndDrain P p body { r with rc := CountSet.insert r.rc p.count } with
      | error why => rfl
      | ok d => rfl

/-- RX.RECEIVE reads what is needed of the configuration. -/
theorem receive_relink (h : SameNeeded r.lcfg cfg') (p : Pdu) :
    (receive P { r with lcfg := cfg' } p).answer P = ((receive P r p).answer P).map (relinkAnswer cfg') := by
  have hcount : reconstruct { r with lcfg := cfg' } p.sn = reconstruct r p.sn := by
    simp only [reconstruct, reference, h.snWidth]
  simp only [receive, hcount, h.decipher, h.verify]
  split
  · exact discard_relink _ _
  · split
    · exact discard_relink _ _
    · split
      · exact discard_relink _ _
      · exact acceptPdu_relink h.snWidth

end Relink

/-- RX.RECEIVE does and answers the same with other bytes in the keys that are not needed. -/
theorem rxReceive_relink {P : Params} {p : Pdu} {s t : State} {cfg' : LinkCfg} (h : SameNeeded s.rxu.lcfg cfg')
    (hrun : rxReceive P p s = .next t) :
    rxReceive P p { s with rxu := { s.rxu with lcfg := cfg' } } =
      .next { t with rxu := { t.rxu with lcfg := cfg' } } := by
  have hok : receiveOperandOk P { s.rxu with lcfg := cfg' } p = receiveOperandOk P s.rxu p := by
    simp only [receiveOperandOk, h.snWidth]
  have hprologue : ∀ ok, prologue .rxReceive ok { s with rxu := { s.rxu with lcfg := cfg' } } =
      prologue .rxReceive ok s := fun _ => rfl
  rw [rxReceive_eq_endReceive] at hrun ⊢
  unfold runCommand at hrun ⊢
  simp only [hok, hprologue]
  split at hrun
  · cases hrun
    rfl
  · simp only [receive_relink h] at hrun ⊢
    cases ha : (receive P s.rxu p).answer P with
    | ok x =>
      rw [ha] at hrun
      cases hrun
      rfl
    | error why =>
      rw [ha] at hrun
      cases why with
      | capacity =>
        cases hrun
        rfl
      | fault f => cases hrun

/-- Settles O53: in a legal configuration a key that is absent is not needed. -/
theorem absentKeysUnread : Obligations.AbsentKeysUnread := by
  intro s key htx hrx
  refine ⟨fun hr sduId payload t h => ?_, fun hr p t h => ?_⟩
  · obtain ⟨hien, hcen⟩ := (htx.legal hr).disabled
    have hlcfg : t.txu.lcfg = s.txu.lcfg := (exec_sameConfig (u := .txu) h (by simp [hr])).2.1 rfl
    rw [hlcfg]
    exact ⟨fun hk => txSend_relink (.of_ikey (hien hk) key) h, fun hk => txSend_relink (.of_ckey (hcen hk) key) h⟩
  · obtain ⟨hien, hcen⟩ := (hrx.legal hr).disabled
    have hlcfg : t.rxu.lcfg = s.rxu.lcfg := (exec_sameConfig (u := .rxu) h (by simp [hr])).2.2.1 rfl
    rw [hlcfg]
    exact ⟨fun hk => rxReceive_relink (.of_ikey (hien hk) key) h, fun hk => rxReceive_relink (.of_ckey (hcen hk) key) h⟩

end Sys2Proof.Machine
end

section
/-! O35, O38 and O39: the rolls, and what tampering and corruption do to a PDU (43_channel.md R331, R333, R334, R353,
R354). -/

namespace Sys2Proof.Machine

/-- Between rate 0 and 65536 a roll reads one bit of the raw value. -/
theorem rollOf_between {rate : BitVec 17} (h0 : 0 < rate.toNat) (h1 : rate.toNat < 65536) (raw : Nat) :
    rollOf rate raw = decide (raw % 2 = 1) := by
  have hne0 : rate ≠ 0 := fun h => by simp [h] at h0
  have hne1 : rate ≠ 65536 := fun h => by simp [h] at h1
  rw [rollOf, if_neg hne0, if_neg hne1]

/-- Settles O35: the two ends by definition, between them by the two values of a bit. -/
theorem rollConstraint : Obligations.RollConstraint := by
  refine ⟨rollOf_zero, rollOf_full, fun rate h0 h1 b => ?_⟩
  cases b with
  | false => exact ⟨0, rollOf_between h0 h1 0⟩
  | true => exact ⟨1, rollOf_between h0 h1 1⟩

/-! ### Bytes XORed with masks (43_channel.md R353, R354) -/

/-- An XOR at one position changes that byte alone. -/
theorem getElem?_xorAt (bytes : List Byte) (pos : Nat) (mask : Byte) (i : Nat) :
    (xorAt bytes pos mask)[i]? = if i = pos then (bytes[i]?).map (· ^^^ mask) else bytes[i]? := by
  rw [xorAt, List.getElem?_modify]
  split
  · next h => rw [if_pos h.symm]; rfl
  · next h => rw [if_neg (Ne.symm h)]; simp

/-- The bytes after the XORs of a tamper draw, one pair after another. -/
def applyDraws (draws : List (Nat × Byte)) (bytes : List Byte) : List Byte :=
  draws.foldl (fun bytes d => xorAt bytes d.1 d.2) bytes

/-- A position that is not drawn keeps its byte. -/
theorem getElem?_applyDraws_of_notMem {draws : List (Nat × Byte)} {i : Nat} (h : i ∉ draws.map Prod.fst)
    (bytes : List Byte) : (applyDraws draws bytes)[i]? = bytes[i]? := by
  induction draws generalizing bytes with
  | nil => rfl
  | cons d draws ih =>
    rw [List.map_cons, List.mem_cons, not_or] at h
    obtain ⟨hd, hrest⟩ := h
    exact (ih hrest _).trans ((getElem?_xorAt _ _ _ _).trans (if_neg hd))

/-- With distinct positions and no mask 0 every drawn position changes its byte. -/
theorem getElem?_applyDraws_of_mem {draws : List (Nat × Byte)} {i : Nat} (hmem : i ∈ draws.map Prod.fst)
    (hd : (draws.map Prod.fst).Nodup) (hmask : ∀ d ∈ draws, d.2 ≠ 0) {bytes : List Byte} (hi : i < bytes.length) :
    (applyDraws draws bytes)[i]? ≠ bytes[i]? := by
  induction draws generalizing bytes with
  | nil => cases hmem
  | cons d draws ih =>
    obtain ⟨hfresh, hd⟩ := List.nodup_cons.mp hd
    obtain ⟨hne, hmask⟩ := List.forall_mem_cons.mp hmask
    have hfirst := getElem?_xorAt bytes d.1 d.2 i
    by_cases heq : i = d.1
    · rw [if_pos heq, List.getElem?_eq_getElem hi] at hfirst
      have hrest : (applyDraws (d :: draws) bytes)[i]? = (xorAt bytes d.1 d.2)[i]? :=
        getElem?_applyDraws_of_notMem (heq ▸ hfresh) _
      rw [hrest, hfirst, List.getElem?_eq_getElem hi]
      intro hsame
      have hzero : bytes[i] ^^^ d.2 = bytes[i] ^^^ 0 := by simpa using hsame
      exact hne ((BitVec.xor_right_inj _).mp hzero)
    · rw [if_neg heq] at hfirst
      rw [← hfirst]
      exact ih ((List.mem_cons.mp hmem).resolve_left heq) hd hmask (by rw [xorAt_length]; exact hi)

/-- The changed positions of a tamper are as many as the draw has pairs. -/
theorem countP_changed_applyDraws {draws : List (Nat × Byte)} {bytes : List Byte} (hd : (draws.map Prod.fst).Nodup)
    (h : ∀ d ∈ draws, d.1 < bytes.length ∧ d.2 ≠ 0) :
    ((List.range bytes.length).countP fun i => (applyDraws draws bytes)[i]? ≠ bytes[i]?) = draws.length := by
  have hperm : ((List.range bytes.length).filter fun i => (applyDraws draws bytes)[i]? ≠ bytes[i]?).Perm
      (draws.map Prod.fst) := by
    refine (List.perm_ext_iff_of_nodup (List.nodup_range.filter _) hd).mpr fun i => ?_
    rw [List.mem_filter, List.mem_range, decide_eq_true_eq]
    constructor
    · rintro ⟨-, hchanged⟩
      by_contra hno
      exact hchanged (getElem?_applyDraws_of_notMem hno bytes)
    · intro hmem
      obtain ⟨d, hdm, rfl⟩ := List.mem_map.mp hmem
      exact ⟨(h d hdm).1, getElem?_applyDraws_of_mem hmem hd (fun d hdm => (h d hdm).2) (h d hdm).1⟩
  rw [List.countP_eq_length_filter, hperm.length_eq, List.length_map]

/-- Settles O38: the changed bytes are those at the drawn positions, one to three of them. -/
theorem tamperChangesBytes : Obligations.TamperChangesBytes := by
  intro raw p
  refine ⟨rfl, tamperPdu_length raw p, fun hne => ?_⟩
  obtain ⟨h1, h2, hd, h⟩ := tamperOf_range (mt List.length_eq_zero_iff.mp hne) raw
  have hcount := countP_changed_applyDraws hd h
  show 1 ≤ List.countP _ _ ∧ List.countP _ _ ≤ 3
  rw [show (tamperPdu raw p).payload = applyDraws (tamperOf p.payload.length raw) p.payload from rfl, hcount]
  exact ⟨h1, h2.trans (Nat.min_le_left _ _)⟩

/-- The payload after a corruption, where there is a bit to flip. -/
theorem corruptPdu_payload {p : Pdu} (hne : p.payload ≠ []) (raw : Nat) :
    (corruptPdu raw p).payload =
      xorAt p.payload (raw % p.payload.length) (BitVec.twoPow 8 (raw / p.payload.length % 8)) :=
  if_pos (List.length_pos_iff.mpr hne)

/-- Settles O39: the draw reads a position and a bit, and every pair of them is read from some raw value. -/
theorem corruptFlipsOneBit : Obligations.CorruptFlipsOneBit := by
  intro p
  refine ⟨fun raw => ⟨rfl, fun hempty => ?_⟩, fun q hne => ?_⟩
  · rw [← List.length_eq_zero_iff, corruptPdu_length, hempty, List.length_nil]
  · have hlen : 0 < p.payload.length := List.length_pos_iff.mpr hne
    constructor
    · rintro ⟨raw, rfl⟩
      refine ⟨raw % p.payload.length, Nat.mod_lt _ hlen, raw / p.payload.length % 8, Nat.mod_lt _ (by decide),
        corruptPdu_length raw p, fun i => ?_⟩
      rw [corruptPdu_payload hne, getElem?_xorAt]
    · rintro ⟨pos, hpos, bit, hbit, -, hq⟩
      obtain ⟨hdiv, hmod⟩ := (Nat.div_mod_unique hlen).mpr ⟨rfl, hpos⟩
      refine ⟨pos + p.payload.length * bit, List.ext_getElem? fun i => ?_⟩
      rw [corruptPdu_payload hne, hdiv, hmod, Nat.mod_eq_of_lt hbit, getElem?_xorAt, hq]

end Sys2Proof.Machine
end

section
/-! O41 to O43: CH.TRANSMIT, what it returns and keeps (43_channel.md R350 to R358, 60_exceptions.md R412). -/

namespace Sys2Proof.Machine

/-! ### Transmits that append nothing (43_channel.md R351, R357) -/

/-- A CH.TRANSMIT that appends nothing releases what has run out and counts the rest down. -/
theorem exec_chTransmit_of_unchanged {s : State} {ps : List Pdu} (ha : s.accepts .chu)
    (hok : transmitOperandOk Config.params ps = true)
    (hdb : (transmitAll Config.params s.chu s.drawIx ps).db = s.chu.db)
    (ho : (transmitAll Config.params s.chu s.drawIx ps).overflow = false) :
    ∃ (t : State) (out : List Pdu), exec (.chTransmit ps) s = .next t ∧
      out.Perm ((s.chu.db.filter fun e => e.delay = 0).map DbEntry.pdu) ∧
      t = { s with
        chu := { s.chu with
          db := (s.chu.db.filter fun e => e.delay ≠ 0).map fun e => { e with delay := e.delay - 1 } }
        drawIx := t.drawIx
        outbox := s.outbox ++ [{ port := .chu, words := 0x31000000 :: pduListRecord Config.params out }] } := by
  have hrun := chTransmit_accepts ha hok
  rw [ho, hdb] at hrun
  exact ⟨_, _, hrun, shuffleOf_perm _ _, rfl⟩

/-- Settles O41: no PDU appends nothing. -/
theorem tickReleases : Obligations.TickReleases := by
  intro s ha
  exact exec_chTransmit_of_unchanged ha rfl rfl rfl

/-- Settles O42: at loss rate 65536 no input PDU appends anything. -/
theorem totalLossDropsAll : Obligations.TotalLossDropsAll := by
  intro s ps ha hok hloss
  obtain ⟨hdb, ho⟩ := transmitAll_induction (P := Config.params) (c := s.chu)
    (M := fun t => t.db = s.chu.db ∧ t.overflow = false) ps (fun t p _ ht => by
      rcases transmitOne_cases Config.params s.chu t p with ⟨-, he⟩ | ⟨hne, -⟩
      · rw [he]
        exact ht
      · exact absurd hloss hne) { db := s.chu.db, overflow := false, ix := s.drawIx } ⟨rfl, rfl⟩
  exact exec_chTransmit_of_unchanged ha hok hdb ho

/-! ### Transmits at every rate (43_channel.md R350 to R358) -/

/-- Settles O43: the entries appended are fates of the input PDUs, and the delay buffer that they leave decides. -/
theorem duplicationAndDelay : Obligations.DuplicationAndDelay := by
  intro P s ps ha hok hroom
  obtain ⟨fates, hfates, hdb⟩ := transmitAll_fates P s.chu s.drawIx ps
  have hover := transmitAll_overflow (ix := s.drawIx) (ps := ps) hroom
  have hrun := chTransmit_accepts ha hok
  rw [hover, hdb] at hrun
  cases hw : withinLimit P.dbCap (s.chu.db ++ fates.flatten).length with
  | true =>
    rw [hw, Bool.not_true, if_neg Bool.false_ne_true] at hrun
    obtain ⟨hrun, hexec⟩ := execAt_and_exec (i := .chTransmit ps) hrun
    exact ⟨_, _, fates, hrun, hexec, hfates, shuffleOf_perm _ _, (if_pos hw).symm⟩
  | false =>
    rw [hw, Bool.not_false, if_pos rfl] at hrun
    obtain ⟨hrun, hexec⟩ := execAt_and_exec (i := .chTransmit ps) hrun
    exact ⟨_, _, fates, hrun, hexec, hfates, List.Perm.refl _, (if_neg (by rw [hw]; exact Bool.false_ne_true)).symm⟩

/-- A CH.TRANSMIT that is accepted and does not fault: the entries it appends are fates of its input PDUs, it returns
what has run out, in some order, and keeps the rest, counted down. -/
theorem chTransmit_released {P : Params} {s t : State} {ps : List Pdu} (ha : s.accepts .chu)
    (hok : transmitOperandOk P ps = true) (h : chTransmit P ps s = .next t) (hf : t.chu.fault = false) :
    ∃ (fates : List (List DbEntry)) (out : List Pdu), List.Forall₂ (ChannelFate s.chu) ps fates ∧
      out.Perm (released (s.chu.db ++ fates.flatten)) ∧
      t.outbox = s.outbox ++ [{ port := .chu, words := 0x31000000 :: pduListRecord P out }] ∧
      t.chu = { s.chu with db := keptDelayed (s.chu.db ++ fates.flatten) } := by
  obtain ⟨fates, hfates, hdb⟩ := transmitAll_fates P s.chu s.drawIx ps
  rw [chTransmit_accepts ha hok] at h
  split at h
  · cases h
    cases hf
  · cases h
    exact ⟨fates, _, hfates, hdb ▸ shuffleOf_perm _ _, rfl, by rw [← hdb]; rfl⟩

end Sys2Proof.Machine
end

section
/-! O40, O44 to O46 and O48: what a CH.TRANSMIT appends, and what it returns and keeps (43_channel.md R351 to R364,
60_exceptions.md R412). -/

namespace Sys2Proof.Machine

/-! ### The appended entries, counted (43_channel.md R351, R355) -/

/-- Where every input appends exactly one entry, the appended entries are the inputs', in order. -/
theorem flatten_eq_map_of_forall₂ {R : Pdu → List DbEntry → Prop} {f : Pdu → DbEntry} (hf : ∀ p es, R p es → es = [f p])
    {ps : List Pdu} {fates : List (List DbEntry)} (h : List.Forall₂ R ps fates) : fates.flatten = ps.map f := by
  induction h with
  | nil => rfl
  | cons hp _ ih => rw [List.flatten_cons, hf _ _ hp, ih, List.singleton_append, List.map_cons]

/-- Where every input appends at least `k` entries, so many times `k` are appended. -/
theorem mul_length_le_of_forall₂ {R : Pdu → List DbEntry → Prop} {k : Nat} (hk : ∀ p es, R p es → k ≤ es.length)
    {ps : List Pdu} {fates : List (List DbEntry)} (h : List.Forall₂ R ps fates) :
    k * ps.length ≤ fates.flatten.length := by
  induction h with
  | nil => exact Nat.le_refl _
  | cons hp _ ih =>
    have hhead := hk _ _ hp
    rw [List.flatten_cons, List.length_append, List.length_cons, Nat.mul_succ]
    omega

/-- At rates 0 an input PDU passes unimpaired, alone, with delay 0. -/
theorem ChannelFate.eq_of_rates_zero {c : Chu} {p : Pdu} {entries : List DbEntry} (h : ChannelFate c p entries)
    (hl : c.rateLoss = 0) (hd : c.rateDup = 0) (hr : c.rateReorder = 0) (hc : c.rateCorrupt = 0)
    (ht : c.rateTamper = 0) : entries = [{ pdu := { p with status := .inTransit }, delay := 0 }] := by
  rcases h with ⟨hne, -⟩ | ⟨-, q, hq, cloned, delay, rfl, hclone, -, hdelay, -, -⟩
  · exact absurd hl hne
  · rw [hclone hd, hdelay (.inl hr)]
    rcases hq with ⟨-, -, rfl⟩ | ⟨hne, -⟩ | ⟨-, hne, -⟩
    · rfl
    · exact absurd ht hne
    · exact absurd hc hne

/-- At loss rate 0 every input PDU appends an entry. -/
theorem ChannelFate.one_le_length {c : Chu} {p : Pdu} {entries : List DbEntry} (h : ChannelFate c p entries)
    (hl : c.rateLoss = 0) : 1 ≤ entries.length := by
  rcases h with ⟨hne, -⟩ | ⟨-, q, -, cloned, delay, rfl, -⟩
  · exact absurd hl hne
  · rw [List.length_append, List.length_singleton]
    exact Nat.le_add_left _ _

/-- At loss rate 0 and duplication rate 65536 every input PDU appends its clone too. -/
theorem ChannelFate.two_le_length {c : Chu} {p : Pdu} {entries : List DbEntry} (h : ChannelFate c p entries)
    (hl : c.rateLoss = 0) (hd : c.rateDup = 65536) : 2 ≤ entries.length := by
  rcases h with ⟨hne, -⟩ | ⟨-, q, -, cloned, delay, rfl, -, hclone, -⟩
  · exact absurd hl hne
  · rw [hclone hd]
    exact Nat.le_refl _

/-- Settles O40: at rates 0 every input PDU is appended with delay 0, so all are released and none is kept. -/
theorem noOpChannel : Obligations.NoOpChannel := by
  intro P s ps ha hok hl hd hr hc ht hdb hroom
  obtain ⟨t, out, fates, hrun, hexec, hfates, hperm, heq⟩ :=
    duplicationAndDelay P s ps ha hok (by rw [hdb]; exact withinLimit_zero _)
  have hflat : s.chu.db ++ fates.flatten = ps.map fun p => { pdu := { p with status := .inTransit }, delay := 0 } := by
    rw [hdb, List.nil_append]
    exact flatten_eq_map_of_forall₂ (fun p es h => h.eq_of_rates_zero hl hd hr hc ht) hfates
  have hreleased : ∀ e ∈ s.chu.db ++ fates.flatten, e.delay = 0 := by
    rw [hflat]
    exact List.forall_mem_map.mpr fun _ _ => rfl
  have hkept : (s.chu.db ++ fates.flatten).filter (fun e => e.delay ≠ 0) = [] :=
    List.filter_eq_nil_iff.mpr fun e he => by simp [hreleased e he]
  dsimp only at hperm heq
  rw [List.filter_eq_self.mpr fun e he => decide_eq_true (hreleased e he), hflat, List.map_map] at hperm
  rw [if_pos (by rw [hflat, List.length_map]; exact hroom), hkept, List.map_nil, ← hdb] at heq
  exact ⟨t, out, hrun, hexec, hperm, heq⟩

/-- Settles O48: the input PDUs alone, or with their clones, append more entries than there is room for. -/
theorem transmitCapacityFault : Obligations.TransmitCapacityFault := by
  intro P s ps cap ha hok hl hcap hroom hmany
  obtain ⟨t, out, fates, hrun, hexec, hfates, -, heq⟩ :=
    duplicationAndDelay P s ps ha hok (by rw [hcap]; exact decide_eq_true hroom)
  have hbeyond : cap < (s.chu.db ++ fates.flatten).length := by
    rw [List.length_append]
    rcases hmany with hmany | ⟨hd, hmany⟩
    · have := mul_length_le_of_forall₂ (fun p es h => h.one_le_length hl) hfates
      omega
    · have := mul_length_le_of_forall₂ (fun p es h => h.two_le_length hl hd) hfates
      omega
  have hover : ¬ withinLimit P.dbCap (s.chu.db ++ fates.flatten).length = true := by
    rw [hcap]
    exact fun h => Nat.not_lt.mpr (of_decide_eq_true h) hbeyond
  exact ⟨t, hrun, hexec, heq.trans (if_neg hover)⟩

/-! ### What an input PDU passes as (43_channel.md R351 to R355) -/

/-- The entries of a fate, without their delays: nothing, or an impaired PDU once or twice. -/
theorem ChannelFate.pdus {c : Chu} {p : Pdu} {entries : List DbEntry} (h : ChannelFate c p entries) :
    (c.rateLoss ≠ 0 ∧ entries.map DbEntry.pdu = []) ∨
    (c.rateLoss ≠ 65536 ∧ ∃ q, Impaired c p q ∧
      ((c.rateDup ≠ 65536 ∧ entries.map DbEntry.pdu = [q]) ∨ (c.rateDup ≠ 0 ∧ entries.map DbEntry.pdu = [q, q]))) := by
  rcases h with ⟨hne, rfl⟩ | ⟨hne, q, hq, cloned, delay, rfl, h0, h1, -⟩
  · exact .inl ⟨hne, rfl⟩
  · refine .inr ⟨hne, q, hq, ?_⟩
    cases cloned with
    | false => exact .inl ⟨fun hd => Bool.false_ne_true (h1 hd), rfl⟩
    | true => exact .inr ⟨fun hd => Bool.false_ne_true (h0 hd).symm, rfl⟩

/-- What an impaired PDU is, with its flags and its status: unimpaired, tampered with, or corrupted. -/
theorem Impaired.flags {c : Chu} {p q : Pdu} (h : Impaired c p q) :
    (q = { p with status := .inTransit } ∧ c.rateTamper ≠ 65536 ∧ c.rateCorrupt ≠ 65536) ∨
    ((∃ raw, q = tamperPdu raw { p with status := .inTransit }) ∧ q.tampered = true ∧ q.corrupted = p.corrupted ∧
      q.status = .tampered ∧ c.rateTamper ≠ 0) ∨
    ((∃ raw, q = corruptPdu raw { p with status := .inTransit }) ∧ q.corrupted = true ∧ q.tampered = p.tampered ∧
      q.status = .corrupted ∧ c.rateCorrupt ≠ 0 ∧ c.rateTamper ≠ 65536) := by
  rcases h with ⟨ht, hc, rfl⟩ | ⟨ht, raw, rfl⟩ | ⟨ht, hc, raw, rfl⟩
  · exact .inl ⟨rfl, ht, hc⟩
  · exact .inr (.inl ⟨⟨raw, rfl⟩, rfl, rfl, rfl, ht⟩)
  · exact .inr (.inr ⟨⟨raw, rfl⟩, rfl, rfl, rfl, hc, ht⟩)

/-- Settles O44: the entries of the fates, without their delays, are what passes. -/
theorem tamperExcludesCorruption : Obligations.TamperExcludesCorruption := by
  intro P s t ps ha hok hrun hf
  obtain ⟨fates, out, hfates, hperm, hout, hchu⟩ := chTransmit_released ha hok hrun hf
  refine ⟨out, fates.map (List.map DbEntry.pdu), hout, ?_, ?_⟩
  · rw [hchu, ← List.map_flatten, ← List.map_append]
    exact (hperm.append_right _).trans (released_append_kept _)
  · refine List.forall₂_map_right_iff.mpr (hfates.imp fun p es hfate => ?_)
    rcases hfate.pdus with ⟨hl, he⟩ | ⟨hl, q, hq, ⟨hd, he⟩ | ⟨hd, he⟩⟩
    · rw [he]
      exact ⟨fun h => absurd h hl, fun _ => rfl, fun _ => Nat.zero_le _, fun _ => Nat.zero_ne_one,
        _, .inl rfl, (impair_impaired P s.chu s.drawIx p).flags⟩
    · rw [he]
      exact ⟨fun _ => List.cons_ne_nil _ _, fun h => absurd h hl, fun _ => Nat.le_refl _, fun h => absurd h hd,
        q, .inr (.inl rfl), hq.flags⟩
    · rw [he]
      exact ⟨fun _ => List.cons_ne_nil _ _, fun h => absurd h hl, fun h => absurd h hd, fun _ => Nat.succ_ne_self 1,
        q, .inr (.inr rfl), hq.flags⟩

/-! ### Conservation (43_channel.md R362, R364) -/

/-- What two parts of a delay buffer release. -/
theorem released_append (db db' : List DbEntry) : released (db ++ db') = released db ++ released db' := by
  rw [released, List.filter_append, List.map_append, released, released]

/-- What two parts of a delay buffer keep. -/
theorem keptDelayed_append (db db' : List DbEntry) : keptDelayed (db ++ db') = keptDelayed db ++ keptDelayed db' := by
  rw [keptDelayed, List.filter_append, List.map_append, keptDelayed, keptDelayed]

/-- The release of a delay buffer in another order is the release, in another order. -/
theorem released_perm {db db' : List DbEntry} (h : db.Perm db') : (released db).Perm (released db') :=
  (h.filter _).map _

/-- What a delay buffer in another order keeps is what it keeps, in another order. -/
theorem keptDelayed_perm {db db' : List DbEntry} (h : db.Perm db') : (keptDelayed db).Perm (keptDelayed db') :=
  (h.filter _).map _

/-- The PDUs of these fates that have a clone. -/
def clonedPdus (fates : List (Pdu × Bool)) : List Pdu := (fates.filter Prod.snd).map Prod.fst

/-- The entries of the clones: their delay is 0 (43_channel.md R355). -/
def cloneEntries (fates : List (Pdu × Bool)) : List DbEntry := (clonedPdus fates).map fun q => { pdu := q, delay := 0 }

/-- The clones of two parts of the fates. -/
theorem cloneEntries_append (fates fates' : List (Pdu × Bool)) :
    cloneEntries (fates ++ fates') = cloneEntries fates ++ cloneEntries fates' := by
  simp only [cloneEntries, clonedPdus, List.filter_append, List.map_append]

/-- A clone is not delayed. -/
theorem delay_of_mem_cloneEntries {fates : List (Pdu × Bool)} {e : DbEntry} (h : e ∈ cloneEntries fates) :
    e.delay = 0 := by
  obtain ⟨q, -, rfl⟩ := List.mem_map.mp h
  rfl

/-- The clones are released at once. -/
theorem released_cloneEntries (fates : List (Pdu × Bool)) : released (cloneEntries fates) = clonedPdus fates := by
  rw [released, List.filter_eq_self.mpr fun e he => decide_eq_true (delay_of_mem_cloneEntries he), cloneEntries,
    List.map_map]
  exact List.map_id _

/-- No clone is kept. -/
theorem keptDelayed_cloneEntries (fates : List (Pdu × Bool)) : keptDelayed (cloneEntries fates) = [] := by
  rw [keptDelayed, List.filter_eq_nil_iff.mpr fun e he => by simp [delay_of_mem_cloneEntries he], List.map_nil]

/-- The fields of the input that a PDU keeps on its pass (43_channel.md R362, R364). -/
def KeepsFields (p : Pdu) (fate : Option (Pdu × Bool)) : Prop :=
  ∀ (q : Pdu) (cloned : Bool), fate = some (q, cloned) →
    q.sduId = p.sduId ∧ q.sn = p.sn ∧ q.count = p.count ∧ q.hfn = p.hfn ∧ q.tag = p.tag ∧ q.verified = p.verified ∧
      q.payload.length = p.payload.length ∧ (p.corrupted = true → q.corrupted = true) ∧
      (p.tampered = true → q.tampered = true)

/-- A fate is the clones of what passes, then what passes itself. -/
theorem ChannelFate.split {c : Chu} {p : Pdu} {entries : List DbEntry} (h : ChannelFate c p entries) :
    ∃ (fate : Option (Pdu × Bool)) (passed : List DbEntry), KeepsFields p fate ∧
      entries = cloneEntries fate.toList ++ passed ∧ passed.map DbEntry.pdu = fate.toList.map Prod.fst := by
  rcases h with ⟨-, rfl⟩ | ⟨-, q, hq, cloned, delay, rfl, -⟩
  · refine ⟨none, [], ?_, rfl, rfl⟩
    rintro _ _ ⟨⟩
  · refine ⟨some (q, cloned), [{ pdu := q, delay }], ?_, ?_, rfl⟩
    · rintro _ _ ⟨⟩
      exact hq.keeps
    · cases cloned <;> rfl

/-- The fates of all input PDUs are, in some order, the clones of what passes and what passes itself. -/
theorem ChannelFate.split_all {c : Chu} {ps : List Pdu} {entries : List (List DbEntry)}
    (h : List.Forall₂ (ChannelFate c) ps entries) :
    ∃ (fates : List (Option (Pdu × Bool))) (passed : List DbEntry), List.Forall₂ KeepsFields ps fates ∧
      entries.flatten.Perm (cloneEntries fates.reduceOption ++ passed) ∧
      passed.map DbEntry.pdu = fates.reduceOption.map Prod.fst := by
  induction h with
  | nil => exact ⟨[], [], .nil, .nil, rfl⟩
  | cons hp _ ih =>
    obtain ⟨fate, first, hfirst, rfl, hpdu⟩ := hp.split
    obtain ⟨fates, passed, hrest, hperm, hpdus⟩ := ih
    have hreduce : (fate :: fates).reduceOption = fate.toList ++ fates.reduceOption := by cases fate <;> rfl
    refine ⟨fate :: fates, first ++ passed, .cons hfirst hrest, ?_, ?_⟩
    · rw [hreduce, cloneEntries_append, List.flatten_cons, List.append_assoc, List.append_assoc]
      exact ((hperm.append_left first).trans (List.perm_append_comm_assoc _ _ _)).append_left _
    · rw [hreduce, List.map_append, List.map_append, hpdu, hpdus]

/-- Settles O45: beside the clones, which are all released, the buffered and the passed entries are released or kept. -/
theorem channelOnlyClones : Obligations.ChannelOnlyClones := by
  intro P s t ps ha hok hrun hf
  obtain ⟨entries, out, hentries, hperm, hout, hchu⟩ := chTransmit_released ha hok hrun hf
  obtain ⟨fates, passed, hfates, hsplit, hpassed⟩ := ChannelFate.split_all hentries
  have hdb : (s.chu.db ++ entries.flatten).Perm ((s.chu.db ++ passed) ++ cloneEntries fates.reduceOption) := by
    rw [List.append_assoc]
    exact (hsplit.trans List.perm_append_comm).append_left _
  refine ⟨out, released (s.chu.db ++ passed), fates, hout, ?_, ?_, hfates⟩
  · have hreleased := hperm.trans (released_perm hdb)
    rw [released_append, released_cloneEntries] at hreleased
    exact hreleased
  · have hkept := keptDelayed_perm hdb
    rw [keptDelayed_append (s.chu.db ++ passed), keptDelayed_cloneEntries, List.append_nil] at hkept
    have hall := ((hkept.map DbEntry.pdu).append_left _).trans (released_append_kept (s.chu.db ++ passed))
    rw [hchu, ← hpassed, ← List.map_append]
    exact hall

/-! ### Arrival (43_channel.md R361) -/

/-- Commands executed one after another keep a `FAULT` of CHU. -/
theorem execAll_keeps_fault {is : List Instr} {s t : State} (h : execAll is s = .next t) (hf : s.chu.fault = true) :
    t.chu.fault = true := by
  induction is generalizing s with
  | nil =>
    cases h
    exact hf
  | cons i is ih =>
    rw [execAll] at h
    split at h
    · next s' hs =>
      obtain ⟨-, -, hsame⟩ := exec_sameUnit_of_fault (u := .chu) hs hf
      exact ih h (by rw [(hsame rfl).1]; exact hf)
    · cases h
    · cases h

/-- An entry whose delay has not run out is counted down by a CH.TRANSMIT that does not fault, and CHU still accepts. -/
theorem exec_chTransmit_counts_down {s t : State} {ps : List Pdu} {e : DbEntry} (ha : s.accepts .chu)
    (hok : transmitOperandOk Config.params ps = true) (h : exec (.chTransmit ps) s = .next t) (hf : t.chu.fault = false)
    (he : e ∈ s.chu.db) (hd : e.delay ≠ 0) : t.accepts .chu ∧ { e with delay := e.delay - 1 } ∈ t.chu.db := by
  obtain ⟨fates, out, -, -, -, hchu⟩ := chTransmit_released ha hok h hf
  refine ⟨⟨?_, hf⟩, ?_⟩
  · show t.chu.life = .ready
    rw [hchu]
    exact ha.1
  · rw [hchu]
    exact mem_keptDelayed.mpr ⟨e, List.mem_append_left _ he, hd, rfl⟩

/-- So do as many of them as the delay allows. -/
theorem execAll_chTransmit_counts_down {s t : State} {batches : List (List Pdu)} {e : DbEntry} (ha : s.accepts .chu)
    (hok : ∀ ps ∈ batches, transmitOperandOk Config.params ps = true)
    (h : execAll (batches.map .chTransmit) s = .next t) (hf : t.chu.fault = false) (he : e ∈ s.chu.db)
    (hd : batches.length ≤ e.delay.toNat) :
    t.accepts .chu ∧ { e with delay := e.delay - BitVec.ofNat 16 batches.length } ∈ t.chu.db := by
  induction batches generalizing s e with
  | nil =>
    cases h
    exact ⟨ha, by rw [List.length_nil, BitVec.sub_zero]; exact he⟩
  | cons ps batches ih =>
    obtain ⟨hps, hbatches⟩ := List.forall_mem_cons.mp hok
    rw [List.map_cons, execAll] at h
    split at h
    · next s' hs =>
      have hf' : s'.chu.fault = false := by
        by_contra hfault
        rw [execAll_keeps_fault h (Bool.eq_true_of_not_eq_false hfault)] at hf
        cases hf
      rw [List.length_cons] at hd
      have hne : e.delay ≠ 0 := fun h0 => by simp [h0] at hd
      have hone := delay_sub_one_toNat hne
      obtain ⟨ha', he'⟩ := exec_chTransmit_counts_down ha hps hs hf' he hne
      obtain ⟨hat, het⟩ := ih ha' hbatches h he' (by dsimp only; omega)
      have hcount : e.delay - 1 - BitVec.ofNat 16 batches.length = e.delay - BitVec.ofNat 16 (batches.length + 1) := by
        rw [BitVec.ofNat_add]
        bv_omega
      rw [hcount] at het
      exact ⟨hat, het⟩
    · cases h
    · cases h

/-- Settles O46: the delay counts down to 0, and the next CH.TRANSMIT releases the entry. -/
theorem bufferedPduArrives : Obligations.BufferedPduArrives := by
  intro s t t' batches last e ha he hok hlast hrun hf hexec hf'
  refine ⟨fun hle => (execAll_chTransmit_counts_down ha hok hrun hf he hle).2, fun heq => ?_⟩
  obtain ⟨hat, het⟩ := execAll_chTransmit_counts_down ha hok hrun hf he heq.le
  rw [heq, BitVec.ofNat_toNat, BitVec.setWidth_eq, BitVec.sub_self] at het
  obtain ⟨fates, out, -, hperm, hout, -⟩ := chTransmit_released hat hlast hexec hf'
  have hreleased : e.pdu ∈ released (t.chu.db ++ fates.flatten) :=
    List.mem_map.mpr ⟨_, List.mem_filter.mpr ⟨List.mem_append_left _ het, decide_eq_true rfl⟩, rfl⟩
  exact ⟨out, hperm.mem_iff.mpr hreleased, hout⟩

end Sys2Proof.Machine
end
